-- ==== Sys2Proof/Word.lean ====
section
/-! DEFINITION. The word types of the BSU: bytes, 32-bit register words, 64-bit values and binary64 patterns
(00_scope.md R8, R11). -/
namespace Sys2Proof

/-- One byte of IBUF, or an 8-bit register field. -/
abbrev Byte := BitVec 8

/-- A 32-bit register or command word; bit 0 is the least significant (R8). -/
abbrev Word := BitVec 32

/-- A 64-bit value: RES and MSG_DECL. -/
abbrev DWord := BitVec 64

/-- A binary64 bit pattern (R11): bit 63 the sign, bits 62:52 the biased exponent, bits 51:0 the fraction. -/
abbrev B64 := BitVec 64

end Sys2Proof
end

