-- ==== Sys2Proof/Syntax.lean ====
section
/-! DEFINITION. The commands of the BSU (30_encoding.md R101): one constructor per row of the opcode table. -/
namespace Sys2Proof

/-- A command. The codec rows carry the SPAN field of the word (R102); every other command has no operand
field, its operands are block registers (R104). -/
inductive Instr where
  /-- `nop` (R230) -/
  | nop
  /-- `uint.<n>`, n the SPAN field (R121) -/
  | uint (n : BitVec 4)
  /-- `smint.<n>`, n the SPAN field (R123) -/
  | smint (n : BitVec 4)
  /-- `f32` (R125) -/
  | f32
  /-- `msginit` (R141) -/
  | msginit
  /-- `msgnext` (R143) -/
  | msgnext
  /-- `sectsplit` (R148) -/
  | sectsplit
  /-- `unpack` (R182) -/
  | unpack
  deriving DecidableEq, Repr

/-- The assigned opcodes (R101). -/
inductive Opcode where
  | nop | uint | smint | f32 | msginit | msgnext | sectsplit | unpack
  deriving DecidableEq, Repr

/-- Why a command word is illegal, one reason for each check of R105, in its order. -/
inductive DecodeError where
  /-- check 1: the opcode is unassigned -/
  | unassignedOpcode (opc : Byte)
  /-- check 2: a bit of RSV is set -/
  | reservedBits (rsv : BitVec 20)
  /-- check 3: SPAN is not legal for the opcode -/
  | illegalSpan (span : BitVec 4)
  deriving DecidableEq, Repr

/-- A row of the opcode table: a word belongs to the row when `word AND mask = pattern` (R106). -/
structure OpcodeRow where
  mnemonic : String
  pattern : Word
  mask : Word
  deriving DecidableEq, Repr

end Sys2Proof
end

