-- ==== Sys2Proof/WellFormed.lean ====
section
/-! DEFINITION. The legal operands of each command (30_encoding.md R102). -/
namespace Sys2Proof

/-- The spans R102 calls legal for `uint` and `smint`: 1 to 8 bytes. -/
def codecSpanLegal (n : BitVec 4) : Bool := 1 ≤ n.toNat && n.toNat ≤ 8

/-- A command the encoding admits: a codec span from 1 to 8. -/
def Instr.wf : Instr → Bool
  | .nop => true
  | .uint n => codecSpanLegal n
  | .smint n => codecSpanLegal n
  | .f32 => true
  | .msginit => true
  | .msgnext => true
  | .sectsplit => true
  | .unpack => true

end Sys2Proof
end

