-- ==== Sys2Proof/Decode.lean ====
section
/-! DEFINITION. The decoder of command words (30_encoding.md R100 to R106), total on every 32-bit word, and the encoder
written from the same tables. -/
namespace Sys2Proof

/-- OPC, bits 31:24 of a command word (R100). -/
def opcOf (w : Word) : Byte := w.extractLsb' 24 8

/-- SPAN, bits 23:20 of a command word (R100, R102). -/
def spanOf (w : Word) : BitVec 4 := w.extractLsb' 20 4

/-- RSV, bits 19:0 of a command word (R100, R103). -/
def rsvOf (w : Word) : BitVec 20 := w.extractLsb' 0 20

/-- The opcode byte of each command (R101). -/
def opcodeByte : Opcode → Byte
  | .nop => 0x00#8
  | .uint => 0x01#8
  | .smint => 0x02#8
  | .f32 => 0x03#8
  | .msginit => 0x10#8
  | .msgnext => 0x11#8
  | .sectsplit => 0x12#8
  | .unpack => 0x20#8

/-- The opcode map read from the word's side (R101): every value not listed is unassigned. -/
def opcodeOfByte (b : Byte) : Option Opcode :=
  if b = 0x00#8 then some .nop
  else if b = 0x01#8 then some .uint
  else if b = 0x02#8 then some .smint
  else if b = 0x03#8 then some .f32
  else if b = 0x10#8 then some .msginit
  else if b = 0x11#8 then some .msgnext
  else if b = 0x12#8 then some .sectsplit
  else if b = 0x20#8 then some .unpack
  else none

/-- The legal spans of each opcode (R102). -/
def spanLegal (o : Opcode) (span : BitVec 4) : Bool :=
  match o with
  | .uint => codecSpanLegal span
  | .smint => codecSpanLegal span
  | .f32 => span == 4#4
  | .nop => span == 0#4
  | .msginit => span == 0#4
  | .msgnext => span == 0#4
  | .sectsplit => span == 0#4
  | .unpack => span == 0#4

/-- The command of an opcode and its span field. -/
def instrOf (o : Opcode) (span : BitVec 4) : Instr :=
  match o with
  | .nop => .nop
  | .uint => .uint span
  | .smint => .smint span
  | .f32 => .f32
  | .msginit => .msginit
  | .msgnext => .msgnext
  | .sectsplit => .sectsplit
  | .unpack => .unpack

/-- The decoder: R105's three checks in its order, and the command of a legal word. -/
def decode (w : Word) : Except DecodeError Instr :=
  match opcodeOfByte (opcOf w) with
  | none => .error (.unassignedOpcode (opcOf w))
  | some o =>
    if rsvOf w ≠ 0#20 then .error (.reservedBits (rsvOf w))
    else if spanLegal o (spanOf w) then .ok (instrOf o (spanOf w))
    else .error (.illegalSpan (spanOf w))

/-- The opcode of a command. -/
def instrOpcode : Instr → Opcode
  | .nop => .nop
  | .uint _ => .uint
  | .smint _ => .smint
  | .f32 => .f32
  | .msginit => .msginit
  | .msgnext => .msgnext
  | .sectsplit => .sectsplit
  | .unpack => .unpack

/-- The span field of a command's word (R102). -/
def instrSpan : Instr → BitVec 4
  | .nop => 0#4
  | .uint n => n
  | .smint n => n
  | .f32 => 4#4
  | .msginit => 0#4
  | .msgnext => 0#4
  | .sectsplit => 0#4
  | .unpack => 0#4

/-- The word of a command: OPC, SPAN and a zero RSV (R100, R110). -/
def encode (i : Instr) : Word := opcodeByte (instrOpcode i) ++ instrSpan i ++ 0#20

/-- The rows of the opcode table (opcode_table.json; R106). -/
def opcodeTable : List OpcodeRow :=
  [ ⟨"nop", 0x00000000#32, 0xFFFFFFFF#32⟩,
    ⟨"uint.<n>", 0x01000000#32, 0xFF0FFFFF#32⟩,
    ⟨"smint.<n>", 0x02000000#32, 0xFF0FFFFF#32⟩,
    ⟨"f32", 0x03400000#32, 0xFFFFFFFF#32⟩,
    ⟨"msginit", 0x10000000#32, 0xFFFFFFFF#32⟩,
    ⟨"msgnext", 0x11000000#32, 0xFFFFFFFF#32⟩,
    ⟨"sectsplit", 0x12000000#32, 0xFFFFFFFF#32⟩,
    ⟨"unpack", 0x20000000#32, 0xFFFFFFFF#32⟩ ]

/-- A word belongs to a row of the table (R106). -/
def rowMatches (r : OpcodeRow) (w : Word) : Bool := (w &&& r.mask) == r.pattern

/-- The mnemonic of a command's row in the table. -/
def instrMnemonic : Instr → String
  | .nop => "nop"
  | .uint _ => "uint.<n>"
  | .smint _ => "smint.<n>"
  | .f32 => "f32"
  | .msginit => "msginit"
  | .msgnext => "msgnext"
  | .sectsplit => "sectsplit"
  | .unpack => "unpack"

/-- The command word of a table word: `nbits` bits numbered as the table numbers them, every bit above them 0. A
command is one 32-bit word (R107), so a longer value is no command. -/
def tableWord (nbits w : Nat) : Option Word :=
  if w % 2 ^ nbits < 2 ^ 32 then some (BitVec.ofNat 32 (w % 2 ^ nbits)) else none

/-- What the decoder reads from a table word; none where it refuses the word. -/
def decodeTableWord (nbits w : Nat) : Option Instr :=
  match tableWord nbits w with
  | none => none
  | some c =>
    match decode c with
    | .ok i => some i
    | .error _ => none

end Sys2Proof
end

