-- ==== Sys2Proof/Config.lean ====
section
/-! DEFINITION. What one BSU is built with: the implementation parameters of 00_scope.md R6, the constants that R6 calls
fixed, and the free values for buffer contents after RESET that the spec leaves unspecified. -/
namespace Sys2Proof

/-- The parameters of R6. They are plain data, held in State and written by no step, so that a claim about every state
is a claim about every build of the block. The two parameter functions POW10 and ROUND4 are given by the
arguments where this build differs from the default of R195 and R196 (log entry 8). -/
structure Params where
  /-- log2 of IBUF_SIZE; R6 allows 4 to 31, default 24. -/
  ibufLog : Nat
  /-- log2 of OUT_MAX; R6 allows 0 to 26, default 20. -/
  outLog : Nat
  /-- S0_DISC_OFF, default 7. -/
  s0DiscOff : Nat
  /-- S0_ED_OFF, default 8. -/
  s0EdOff : Nat
  /-- S0_TLEN_OFF, default 9. -/
  s0TlenOff : Nat
  /-- S0_TLEN_BYTES, 1 to 8, default 7. -/
  s0TlenBytes : Nat
  /-- The integers D at which this build's POW10 differs from the correctly rounded 10^D, with its value there. -/
  pow10Diff : List (Int × B64)
  /-- The patterns at which this build's ROUND4 differs from the default of R196, with its value there. -/
  round4Diff : List (B64 × B64)
  deriving DecidableEq, Repr

/-- The default of every parameter (R6). -/
def Params.default : Params :=
  { ibufLog := 24, outLog := 20, s0DiscOff := 7, s0EdOff := 8, s0TlenOff := 9, s0TlenBytes := 7
    pow10Diff := [], round4Diff := [] }

/-- IBUF_SIZE, the bytes of the input buffer (R6). -/
def Params.ibufSize (p : Params) : Nat := 2 ^ p.ibufLog

/-- OUT_MAX, the entries of the output buffer (R6). -/
def Params.outMax (p : Params) : Nat := 2 ^ p.outLog

/-- The ranges R6 gives for the parameters. That the discipline and edition offsets lie inside section 0 is read from
R149 ("Section 0's reads lie inside [b, b + 16)"); log entry 7. -/
abbrev Params.wf (p : Params) : Prop :=
  (4 ≤ p.ibufLog ∧ p.ibufLog ≤ 31) ∧ p.outLog ≤ 26 ∧ p.s0DiscOff < 16 ∧ p.s0EdOff < 16 ∧
    (1 ≤ p.s0TlenBytes ∧ p.s0TlenBytes ≤ 8) ∧ p.s0TlenOff + p.s0TlenBytes ≤ 16

/-- W_MAX (R6, fixed): the largest legal bits-per-value. -/
def wMax : Nat := 32

/-- SPAN_MAX (R6, fixed): the longest codec span in bytes. -/
def spanMax : Nat := 8

/-- S0_LEN (R6, fixed): the length of section 0. -/
def s0Len : Nat := 16

/-- MIN_BUF (R6, fixed): the smallest BUF_LEN that MSGINIT accepts. -/
def minBuf : Nat := 10

/-- MAGIC (R6, fixed): "GRIB". -/
def magic : List Byte := [0x47#8, 0x52#8, 0x49#8, 0x42#8]

/-- ENDMARK (R6, fixed): "7777". -/
def endMark : List Byte := [0x37#8, 0x37#8, 0x37#8, 0x37#8]

/-- FREE VALUE: the byte a host read finds at an IBUF offset that nothing has written since the RESET with the given
number (R72: unspecified). An engine read of such a byte is a model fault and never meets this value. -/
opaque Config.freeIbufByte : Nat → Nat → Byte

/-- FREE VALUE: the word a host read finds at a word offset of an OBUF entry that nothing has written since the RESET with
the given number (R77, R295: any value). The arguments are the number of the RESET, the entry and the word offset. -/
opaque Config.freeObufWord : Nat → Nat → Nat → Word

end Sys2Proof
end

