-- ==== Sys2Proof/Machine/State.lean ====
section
/-! DEFINITION. The state of one BSU (10_state.md, 20_memory.md), the ways a model step can stop, and the state after
RESET (70_reset_and_hazards.md R290, R292). -/
namespace Sys2Proof.Machine

/-- The fields of STATUS (R24). Bits 7 and 31:21 are reserved and read 0, so nothing is held for them. -/
structure Status where
  /-- bit 0, BUSY -/
  busy : Bool
  /-- bit 1, DONE (W1C) -/
  done : Bool
  /-- bit 2, ERR -/
  err : Bool
  /-- bit 3, MSG_END -/
  msgEnd : Bool
  /-- bit 4, MSG_VALID -/
  msgValid : Bool
  /-- bit 5, SECT_VALID -/
  sectValid : Bool
  /-- bit 6, OUT_VALID -/
  outValid : Bool
  /-- bits 15:8, ERRCODE -/
  errcode : Byte
  /-- bit 16, W_TRUNC (W1C) -/
  wTrunc : Bool
  /-- bit 17, W_SECTNUM (W1C) -/
  wSectnum : Bool
  /-- bit 18, W_DUP (W1C) -/
  wDup : Bool
  /-- bit 19, W_NONFINITE (W1C) -/
  wNonfinite : Bool
  /-- bit 20, W_DROP (W1C) -/
  wDrop : Bool
  deriving DecidableEq, Repr

/-- STATUS with every field 0, its reset value (R24, R292). -/
def Status.zero : Status :=
  { busy := false, done := false, err := false, msgEnd := false, msgValid := false, sectValid := false
    outValid := false, errcode := 0#8, wTrunc := false, wSectnum := false, wDup := false, wNonfinite := false
    wDrop := false }

/-- The fields of IRQ_EN (R27). -/
structure IrqEn where
  /-- bit 0, DONE_IE -/
  doneIe : Bool
  /-- bit 1, ERR_IE -/
  errIe : Bool
  /-- bit 2, WARN_IE -/
  warnIe : Bool
  deriving DecidableEq, Repr

/-- The message registers (R34, R35). -/
structure MsgRegs where
  /-- MSG_PTR: the IBUF offset where the next message begins -/
  ptr : Word
  /-- MSG_BASE: the offset of the current message -/
  base : Word
  /-- MSG_LEN: the length of the current message -/
  len : Word
  /-- MSG_DECL_LO -/
  declLo : Word
  /-- MSG_DECL_HI -/
  declHi : Word
  deriving DecidableEq, Repr

/-- The message registers cleared (R141, R292). -/
def MsgRegs.zero : MsgRegs := { ptr := 0#32, base := 0#32, len := 0#32, declLo := 0#32, declHi := 0#32 }

/-- One slot of the section table: its SECT_PRESENT bit, SECT_ADDR and SECT_LEN (R37, R39). -/
structure Slot where
  present : Bool
  addr : Word
  len : Word
  deriving DecidableEq, Repr

/-- A slot that holds no section (R147). -/
def Slot.absent : Slot := { present := false, addr := 0#32, len := 0#32 }

/-- The section table with the two registers that SECTSPLIT clears and writes with it (R36 to R39, R53). -/
structure SectTable where
  /-- the nine slots, section numbers 0 to 8 -/
  slots : Vector Slot 9
  /-- END_ADDR: the offset of the end marker -/
  endAddr : Word
  /-- S0_INFO bits 7:0, DISC -/
  disc : Byte
  /-- S0_INFO bits 15:8, EDITION -/
  edition : Byte
  deriving DecidableEq, Repr

/-- The cleared section table (R146, R149, R292). -/
def SectTable.empty : SectTable :=
  { slots := Vector.replicate 9 Slot.absent, endAddr := 0#32, disc := 0#8, edition := 0#8 }

/-- The parameter file (R40 to R47, R53); the reserved bits of WIDTH, DRT and BMP_CTRL read 0 and are not held. -/
structure ParamFile where
  /-- NPTS -/
  npts : Word
  /-- WIDTH[7:0] -/
  width : Byte
  /-- REF, a binary32 pattern -/
  ref : Word
  /-- BSF, read as two's complement -/
  bsf : Word
  /-- DSF, read as two's complement -/
  dsf : Word
  /-- DRT[15:0] -/
  drt : BitVec 16
  /-- DATA_ADDR -/
  dataAddr : Word
  /-- DATA_LEN -/
  dataLen : Word
  /-- BMP_CTRL bit 0, EN -/
  bmpEn : Bool
  /-- BMP_ADDR -/
  bmpAddr : Word
  /-- BMP_LEN -/
  bmpLen : Word
  deriving DecidableEq, Repr

/-- The cleared parameter file (R146, R292). -/
def ParamFile.zero : ParamFile :=
  { npts := 0#32, width := 0#8, ref := 0#32, bsf := 0#32, dsf := 0#32, drt := 0#16, dataAddr := 0#32
    dataLen := 0#32, bmpEn := false, bmpAddr := 0#32, bmpLen := 0#32 }

/-- The result and progress registers of UNPACK (R48, R49). -/
structure ProgressRegs where
  /-- OUT_COUNT -/
  outCount : Word
  /-- UNP_IDX -/
  idx : Word
  /-- UNP_CURSOR -/
  cursor : Word
  /-- UNP_CW -/
  cw : Word
  deriving DecidableEq, Repr

/-- The cleared result and progress registers (R146, R292). -/
def ProgressRegs.zero : ProgressRegs := { outCount := 0#32, idx := 0#32, cursor := 0#32, cw := 0#32 }

/-- ESTATE, the engine state (R55). The integers are the mathematical integers of R10. -/
inductive EState where
  /-- no command running -/
  | idle
  /-- command word `w` is accepted and its first step has not been taken -/
  | start (w : Word)
  /-- SECTSPLIT will next examine offset `ptr` of a message ending at `stop` -/
  | sect (ptr stop : Nat)
  /-- UNPACK will next process point `i` with cursor `c`, having consumed `k` codewords -/
  | unp (i c k : Nat)
  deriving DecidableEq, Repr

/-- One entry of OBUF (R76). -/
structure OutEntry where
  /-- FLAGS bit 0, PRESENT -/
  present : Bool
  /-- VALUE, a binary64 pattern: VAL_HI and VAL_LO -/
  value : B64
  /-- RAW -/
  raw : Word
  deriving DecidableEq, Repr

/-- A buffer as the list of what has been written to it since RESET: (place, content), places rising. A place that is
not listed is unwritten (R72, R77) and holds no content. -/
abbrev Cells (α : Type) := List (Nat × α)

/-- The canonical form of a buffer: the places strictly rise. -/
abbrev Cells.wf {α : Type} (m : Cells α) : Prop := m.Pairwise (fun x y => x.1 < y.1)

/-- IBUF: the bytes written since RESET, by their offset (R72). -/
abbrev Memory := List Host.Cell

/-- The canonical form of IBUF. -/
abbrev Memory.wf (m : Memory) : Prop := Cells.wf m

/-- The width of a host access (R73, R79). -/
inductive Size where
  | b8 | b16 | b32
  deriving DecidableEq, Repr

/-- One host access at a block offset (R70). -/
inductive Access where
  | read (size : Size) (off : Word)
  | write (size : Size) (off : Word) (value : Word)
  deriving DecidableEq, Repr

/-- What the block answers to a host access. -/
inductive BusResp where
  /-- a legal write: taken, ignored or dropped -/
  | okay
  /-- the data of a legal read -/
  | data (v : Word)
  /-- a bus error (R73, R78, R79, R85) -/
  | busError
  deriving DecidableEq, Repr

/-- One event of the interleaving R299 speaks of: an engine step, a host access, or the platform's RESET. -/
inductive Move where
  | engine
  | host (a : Access)
  | reset
  deriving DecidableEq, Repr

/-- Why the MODEL stops a run where the chip goes on. A block fault (R253) is no such stop: it is a next state. -/
inductive Fault where
  /-- SAFE. Raised by an engine read of an IBUF byte that nothing has written since RESET (R72, R295, I-1). -/
  | ibufUnwritten (a : Nat)
  /-- SAFE. Raised by an engine read at or past BUF_LEN, which R10 and R74 call illegal. No state that meets the
  machine's invariant reaches it. -/
  | ibufPastBufLen (a : Nat)
  deriving DecidableEq, Repr

/-- Why a command has no meaning in the model. -/
inductive Refusal where
  /-- SAFE. Raised by an arm of exec that has no meaning yet; no arm of this model raises it. -/
  | notModelled (mnemonic : String)
  deriving DecidableEq, Repr

/-- The state of the block (R292: "No other state exists"), and the last four fields, which are the model's own. -/
structure State where
  /-- the parameters this block is built with (R6); no step writes them -/
  par : Params
  /-- STATUS (R24) -/
  status : Status
  /-- IRQ_EN (R27) -/
  irqEn : IrqEn
  /-- LAST_CMD, what a read of CMD returns (R28) -/
  lastCmd : Word
  /-- ADDR (R29) -/
  addr : Word
  /-- RES_LO (R30) -/
  resLo : Word
  /-- RES_HI (R30) -/
  resHi : Word
  /-- ERR_INFO0 bits 7:0; bits 31:8 read 0 (R31) -/
  errInfo0 : Byte
  /-- ERR_INFO1 (R31) -/
  errInfo1 : Word
  /-- BUF_LEN (R32) -/
  bufLen : Word
  /-- MSG_PTR, MSG_BASE, MSG_LEN, MSG_DECL_LO, MSG_DECL_HI (R34, R35) -/
  msg : MsgRegs
  /-- SECT_PRESENT, SECT_ADDR, SECT_LEN, END_ADDR, S0_INFO (R36 to R39) -/
  table : SectTable
  /-- NPTS to BMP_LEN (R40 to R47) -/
  prm : ParamFile
  /-- OUT_COUNT, UNP_IDX, UNP_CURSOR, UNP_CW (R48, R49) -/
  prog : ProgressRegs
  /-- ESTATE (R55) -/
  estate : EState
  /-- IBUF (R72) -/
  ibuf : Memory
  /-- OBUF, by entry index (R76, R77) -/
  obuf : Cells OutEntry
  /-- the model's own: how many RESET events there have been; it tells one power-on content of the buffers from the next -/
  resets : Nat
  /-- the model's own: the events still to come before the engine runs undisturbed, oldest first (R299) -/
  moves : List Move
  /-- the model's own: the block's answer to the latest host access -/
  resp : Option BusResp
  deriving DecidableEq, Repr

/-- The block right after RESET (R290, R292): every register 0, the engine idle, both buffers unwritten. The model's own
fields have no reset value in the spec (log entry 20): the default parameters, no RESET before this one, no event
to come, no access answered. -/
def State.reset : State :=
  { par := Params.default
    status := Status.zero
    irqEn := { doneIe := false, errIe := false, warnIe := false }
    lastCmd := 0#32
    addr := 0#32
    resLo := 0#32
    resHi := 0#32
    errInfo0 := 0#8
    errInfo1 := 0#32
    bufLen := 0#32
    msg := MsgRegs.zero
    table := SectTable.empty
    prm := ParamFile.zero
    prog := ProgressRegs.zero
    estate := EState.idle
    ibuf := []
    obuf := []
    resets := 0
    moves := []
    resp := none }

end Sys2Proof.Machine
end

