-- ==== Sys2Proof/Machine/Ops.lean ====
section
/-! DEFINITION. The named operations over the buffers and registers: buffer reads and writes, the engine's read of IBUF,
fault entry and the return from a fault, completion, command acceptance, the message-start reset and the two resets. -/
namespace Sys2Proof.Machine

/-- What one step of the model answers. -/
abbrev Result := Host.Outcome State Fault Refusal

/-! ### Buffers (20_memory.md) -/

/-- The content of a place, if it has been written. -/
def Cells.read {α : Type} : Cells α → Nat → Option α
  | [], _ => none
  | (b, u) :: m, a => if a = b then some u else Cells.read m a

/-- Write a place, keeping the canonical form. -/
def Cells.write {α : Type} : Cells α → Nat → α → Cells α
  | [], a, v => [(a, v)]
  | (b, u) :: m, a, v =>
    if a < b then (a, v) :: (b, u) :: m
    else if a = b then (a, v) :: m
    else (b, u) :: Cells.write m a v

/-- `IBUF[a]` as the engine reads it (R10, R74): legal only below BUF_LEN, and a byte nothing has written since RESET
stops the model (R72). -/
def readByte (s : State) (a : Nat) : Except Fault Byte :=
  if a < s.bufLen.toNat then
    match Cells.read s.ibuf a with
    | some b => .ok b
    | none => .error (.ibufUnwritten a)
  else .error (.ibufPastBufLen a)

/-- `MemRead(a, n)`: the bytes `IBUF[a], ..., IBUF[a+n-1]` (R10). -/
def memRead (s : State) (a : Nat) : Nat → Except Fault (List Byte)
  | 0 => .ok []
  | n + 1 =>
    match readByte s a with
    | .error f => .error f
    | .ok b =>
      match memRead s (a + 1) n with
      | .error f => .error f
      | .ok bs => .ok (b :: bs)

/-- `OBUF[i] <- entry` (R77). -/
def writeOut (i : Nat) (entry : OutEntry) (s : State) : State :=
  { s with obuf := Cells.write s.obuf i entry }

/-! ### Faults (60_exceptions.md) -/

/-- The block's fault codes by name (R253). -/
inductive ErrCode where
  | illegal | range | undersized | msgShort | msgLen | nomsg | magic | noEnd | sectLen | sectRange
  | template | width | npts | bmpRange | dataRange
  deriving DecidableEq, Repr

/-- The value ERRCODE takes for each fault (R253). -/
def errByte : ErrCode → Byte
  | .illegal => 0x01#8
  | .range => 0x02#8
  | .undersized => 0x03#8
  | .msgShort => 0x04#8
  | .msgLen => 0x05#8
  | .nomsg => 0x06#8
  | .magic => 0x07#8
  | .noEnd => 0x08#8
  | .sectLen => 0x09#8
  | .sectRange => 0x0A#8
  | .template => 0x0B#8
  | .width => 0x0C#8
  | .npts => 0x0D#8
  | .bmpRange => 0x0E#8
  | .dataRange => 0x0F#8

/-- `raise E_X(info)` in a step of the command with opcode byte `opc`: fault entry (R255). The state handed in is the one
the statements before the raise have made. DONE is not touched: acceptance has cleared it (R251). -/
def raise (opc : Byte) (e : ErrCode) (info : Word) (s : State) : State :=
  { s with
    status := { s.status with err := true, errcode := errByte e, busy := false }
    errInfo0 := opc
    errInfo1 := info
    estate := EState.idle }

/-- The return from a fault: the error clear of CTRL.CLR_ERR (R232). -/
def clearError (s : State) : State :=
  if s.status.err then
    { s with status := { s.status with err := false, errcode := 0#8 }, errInfo0 := 0#8, errInfo1 := 0#32 }
  else s

/-! ### Acceptance and completion -/

/-- Acceptance of command word `w` by an engine that is free of BUSY and ERR (R251). -/
def accept (w : Word) (s : State) : State :=
  { s with
    lastCmd := w
    status := { s.status with done := false, busy := true }
    estate := EState.start w }

/-- A dropped host write or command: W_DROP and nothing else (R80, R251). -/
def dropWrite (s : State) : State := { s with status := { s.status with wDrop := true } }

/-- A host write of `w` to CMD (R251). -/
def issueCmd (w : Word) (s : State) : State :=
  if s.status.busy || s.status.err then dropWrite s else accept w s

/-- `finish` (R252). -/
def finish (s : State) : State :=
  { s with status := { s.status with busy := false, done := true }, estate := EState.idle }

/-- The engine step of an accepted illegal word: `raise E_ILLEGAL(w)` (R105, R251). -/
def illegalWord (w : Word) (s : State) : State := raise (opcOf w) .illegal w s

/-! ### Clearing -/

/-- What SECTSPLIT's start step and the message-start reset clear alike (R146, R149): the section table, END_ADDR,
S0_INFO and SECT_VALID. -/
def clearTable (s : State) : State :=
  { s with table := SectTable.empty, status := { s.status with sectValid := false } }

/-- `message_start_reset()` (R146). -/
def messageStartReset (s : State) : State :=
  { s with
    table := SectTable.empty
    prm := ParamFile.zero
    prog := ProgressRegs.zero
    status := { s.status with sectValid := false, outValid := false } }

/-- The register part of both resets (R231, R290): ESTATE idle and every register at its reset value. The parameters, the
buffers and the model's own fields are kept. -/
def resetRegisters (s : State) : State :=
  { State.reset with
    par := s.par, ibuf := s.ibuf, obuf := s.obuf, resets := s.resets, moves := s.moves, resp := s.resp }

/-- Soft reset (R231, R291): the registers are reset and the buffers keep their contents. -/
def softReset (s : State) : State := resetRegisters s

/-- The platform's RESET (R290): the registers are reset and both buffers become unspecified. -/
def hardReset (s : State) : State :=
  { resetRegisters s with ibuf := [], obuf := [], resets := s.resets + 1, resp := none }

end Sys2Proof.Machine
end

