-- ==== Sys2Proof/Machine/Flags.lean ====
section
/-! DEFINITION. STATUS as a word, its write-one-to-clear bits, the warning bits and the interrupt output (10_state.md R24
to R27; 60_exceptions.md R262 to R266). -/
namespace Sys2Proof.Machine

/-- A field of a 32-bit word whose lowest bit is bit `lo` (R8). -/
def place {n : Nat} (lo : Nat) (v : BitVec n) : Word := v.setWidth 32 <<< lo

/-- A one-bit field at bit `i`. -/
def placeBit (i : Nat) (b : Bool) : Word := place i (BitVec.ofBool b)

/-- The word a read of STATUS returns (R24): bits 31:21 and 7 read 0. -/
def statusWord (f : Status) : Word :=
  placeBit 0 f.busy ||| placeBit 1 f.done ||| placeBit 2 f.err ||| placeBit 3 f.msgEnd ||| placeBit 4 f.msgValid |||
    placeBit 5 f.sectValid ||| placeBit 6 f.outValid ||| place 8 f.errcode ||| placeBit 16 f.wTrunc |||
    placeBit 17 f.wSectnum ||| placeBit 18 f.wDup ||| placeBit 19 f.wNonfinite ||| placeBit 20 f.wDrop

/-- A host write of `v` to STATUS (R25). -/
def writeStatus (v : Word) (s : State) : State :=
  { s with
    status :=
      { s.status with
        done := s.status.done && !v.getLsbD 1
        wTrunc := s.status.wTrunc && !v.getLsbD 16
        wSectnum := s.status.wSectnum && !v.getLsbD 17
        wDup := s.status.wDup && !v.getLsbD 18
        wNonfinite := s.status.wNonfinite && !v.getLsbD 19
        wDrop := s.status.wDrop && !v.getLsbD 20 } }

/-- The word a read of IRQ_EN returns: bits 31:3 read 0 (R27). -/
def irqEnWord (e : IrqEn) : Word :=
  placeBit 0 e.doneIe ||| placeBit 1 e.errIe ||| placeBit 2 e.warnIe

/-- A host write of `v` to IRQ_EN (R27). -/
def writeIrqEn (v : Word) (s : State) : State :=
  { s with irqEn := { doneIe := v.getLsbD 0, errIe := v.getLsbD 1, warnIe := v.getLsbD 2 } }

/-- Some warning bit is set: STATUS[20:16] is not 0 (R264). -/
def anyWarning (f : Status) : Bool := f.wTrunc || f.wSectnum || f.wDup || f.wNonfinite || f.wDrop

/-- The interrupt output, a level that follows its terms and is held nowhere (R265). -/
def irq (s : State) : Bool :=
  (s.status.done && s.irqEn.doneIe) || (s.status.err && s.irqEn.errIe) || (anyWarning s.status && s.irqEn.warnIe)

/-- `warn W_TRUNC` where `c` holds (R262). -/
def warnTrunc (c : Bool) (s : State) : State :=
  { s with status := { s.status with wTrunc := s.status.wTrunc || c } }

/-- `warn W_SECTNUM` (R262). -/
def warnSectnum (s : State) : State := { s with status := { s.status with wSectnum := true } }

/-- `warn W_DUP` where `c` holds (R262). -/
def warnDup (c : Bool) (s : State) : State :=
  { s with status := { s.status with wDup := s.status.wDup || c } }

/-- `warn W_NONFINITE` where `c` holds (R199, R262). -/
def warnNonfinite (c : Bool) (s : State) : State :=
  { s with status := { s.status with wNonfinite := s.status.wNonfinite || c } }

end Sys2Proof.Machine
end

