-- ==== Sys2Proof/Machine/Operands.lean ====
section
/-! DEFINITION. The operand forms of the commands: byte spans, big-endian and sign-magnitude integers, the bitstream and
the bitmap (00_scope.md R9, R10; 40_codec.md; 42_unpacker.md R185, R189). -/
namespace Sys2Proof.Machine

/-- The span of `n` bytes from `a` lies inside the valid buffer: `a + n <= BUF_LEN`, without wrap (R74, R120). -/
def spanFits (s : State) (a n : Nat) : Bool := a + n ≤ s.bufLen.toNat

/-- Continue the big-endian accumulation `acc <- acc * 256 + byte` over a span (R121). -/
def beFrom (acc : Nat) (bs : List Byte) : Nat := bs.foldl (fun n b => n * 256 + b.toNat) acc

/-- The big-endian unsigned integer of a span (R10, R121). -/
def beNat (bs : List Byte) : Nat := beFrom 0 bs

/-- The sign-magnitude integer of a span (R123): the highest bit of the first byte is the sign, and the rest is the
magnitude. -/
def signMag (bs : List Byte) : Int :=
  match bs with
  | [] => 0
  | b :: rest =>
    let m : Nat := beFrom (b &&& 0x7F#8).toNat rest
    if b.msb then -(m : Int) else (m : Int)

/-- `BE(a, n)` (R10). -/
def readBE (s : State) (a n : Nat) : Except Fault Nat :=
  match memRead s a n with
  | .error f => .error f
  | .ok bs => .ok (beNat bs)

/-- `bitAt(b, k)`: bit `7 - (k mod 8)` of `IBUF[b + floor(k / 8)]` (R9). -/
def bitAt (s : State) (b k : Nat) : Except Fault Bool :=
  match readByte s (b + k / 8) with
  | .error f => .error f
  | .ok x => .ok (x.getLsbD (7 - k % 8))

/-- Read `w` more bits from bit index `c`, after those already in `acc`. -/
def bitsFrom (s : State) (b : Nat) : Nat → Nat → Nat → Except Fault Nat
  | acc, _, 0 => .ok acc
  | acc, c, w + 1 =>
    match bitAt s b c with
    | .error f => .error f
    | .ok x => bitsFrom s b (2 * acc + x.toNat) (c + 1) w

/-- `bits(b, c, w)`: the `w`-bit unsigned field at bit index `c`, most significant bit first (R10, R185). -/
def readBits (s : State) (b c w : Nat) : Except Fault Nat := bitsFrom s b 0 c w

/-- Whether point `i` is present (R186, R189): the bitmap's bit, or 1 where no bitmap is enabled. -/
def pointPresent (s : State) (i : Nat) : Except Fault Bool :=
  if s.prm.bmpEn then bitAt s s.prm.bmpAddr.toNat i else .ok true

end Sys2Proof.Machine
end

