-- ==== Sys2Proof/Machine/Framer.lean ====
section
/-! DEFINITION. The message and section framer (41_framer.md R141 to R156). -/
namespace Sys2Proof.Machine

/-- `msginit` (R141). -/
def execMsginit (s : State) : Result :=
  if s.bufLen.toNat < minBuf then .next (raise (opcodeByte .msginit) .undersized s.bufLen s)
  else
    .next (finish (messageStartReset
      { s with msg := MsgRegs.zero, status := { s.status with msgEnd := false, msgValid := false } }))

/-- MSGNEXT's branch at the end of the buffer (R143). -/
def endOfMessages (s : State) : State :=
  finish (messageStartReset { s with status := { s.status with msgEnd := true, msgValid := false } })

/-- MSGNEXT's selection of a message of declared length `decl` at MSG_PTR, with `avail` bytes left (R143). -/
def selectMessage (decl avail : Nat) (s : State) : State :=
  let p := s.msg.ptr.toNat
  let len := min decl avail
  let s1 := warnTrunc (decide (avail < decl)) s
  finish (messageStartReset
    { s1 with
      msg :=
        { ptr := BitVec.ofNat 32 (p + len)
          base := s.msg.ptr
          len := BitVec.ofNat 32 len
          declLo := BitVec.ofNat 32 decl
          declHi := BitVec.ofNat 32 (decl / 2 ^ 32) }
      status := { s1.status with msgValid := true } })

/-- `msgnext` (R143). -/
def execMsgnext (s : State) : Result :=
  let p := s.msg.ptr.toNat
  if s.status.msgEnd || decide (s.bufLen.toNat ≤ p) then .next (endOfMessages s)
  else
    let avail := s.bufLen.toNat - p
    if avail < s0Len then .next (raise (opcodeByte .msgnext) .msgShort s.msg.ptr s)
    else
      match readBE s (p + s.par.s0TlenOff) s.par.s0TlenBytes with
      | .error f => .fault f
      | .ok decl =>
        if decl < s0Len then .next (raise (opcodeByte .msgnext) .msgLen s.msg.ptr s)
        else .next (selectMessage decl avail s)

/-- Record a section in slot `n` of the table (R149, R152). -/
def recordSection (n : Nat) (addr len : Nat) (s : State) : State :=
  { s with
    table :=
      { s.table with
        slots := s.table.slots.setIfInBounds n
          { present := true, addr := BitVec.ofNat 32 addr, len := BitVec.ofNat 32 len } } }

/-- Slot `n` holds a section: SECT_PRESENT[n] (R37). -/
def slotPresent (s : State) (n : Nat) : Bool :=
  match s.table.slots[n]? with
  | some t => t.present
  | none => false

/-- Record section 0, latch its discipline and edition, and go on to offset 16 (R149). -/
def openSections (base stop : Nat) (disc edition : Byte) (s : State) : State :=
  let s1 := recordSection 0 base s0Len s
  { s1 with
    table := { s1.table with disc := disc, edition := edition }
    estate := EState.sect (base + s0Len) stop }

/-- `sectsplit`: its start step (R149). The header steps follow from the ESTATE it leaves (R148). -/
def execSectsplit (s : State) : Result :=
  let b := s.msg.base.toNat
  let e := b + s.msg.len.toNat
  if s.status.msgValid = false then .next (raise (opcodeByte .sectsplit) .nomsg 0#32 s)
  else if s.bufLen.toNat < e then .next (raise (opcodeByte .sectsplit) .sectRange s.msg.base s)
  else
    let s1 := clearTable s
    match memRead s1 b 4 with
    | .error f => .fault f
    | .ok m =>
      if m = magic then
        match readByte s1 (b + s.par.s0DiscOff) with
        | .error f => .fault f
        | .ok disc =>
          match readByte s1 (b + s.par.s0EdOff) with
          | .error f => .fault f
          | .ok edition => .next (openSections b e disc edition s1)
      else .next (raise (opcodeByte .sectsplit) .magic s.msg.base s1)

/-- The header step's end of SECTSPLIT: the marker is at `ptr` (R150, R151). -/
def closeSections (ptr : Nat) (s : State) : State :=
  finish
    { s with
      table := { s.table with endAddr := BitVec.ofNat 32 ptr }
      status := { s.status with sectValid := true } }

/-- The header step's record of the section of number `num` and length `len` at `ptr` (R152): numbers 1 to 8 take their
slot, 0 and 9 to 255 are skipped with a warning. -/
def takeSection (ptr stop len num : Nat) (s : State) : State :=
  let s1 :=
    if 1 ≤ num ∧ num ≤ 8 then recordSection num ptr len (warnDup (slotPresent s num) s)
    else warnSectnum s
  { s1 with estate := EState.sect (ptr + len) stop }

/-- Part 2 of a header step: there is no marker at `ptr` (R152). -/
def headerRecord (ptr stop : Nat) (s : State) : Result :=
  if stop - ptr < 5 then .next (raise (opcodeByte .sectsplit) .noEnd (BitVec.ofNat 32 ptr) s)
  else
    match readBE s ptr 4 with
    | .error f => .fault f
    | .ok len =>
      match readByte s (ptr + 4) with
      | .error f => .fault f
      | .ok num =>
        if len < 5 then .next (raise (opcodeByte .sectsplit) .sectLen (BitVec.ofNat 32 ptr) s)
        else if stop - ptr < len then .next (raise (opcodeByte .sectsplit) .sectRange (BitVec.ofNat 32 ptr) s)
        else .next (takeSection ptr stop len num.toNat s)

/-- The four bytes at `ptr` are the end marker and lie before `stop` (R151). -/
def atEndMark (ptr stop : Nat) (s : State) : Except Fault Bool :=
  if 4 ≤ stop - ptr then
    match memRead s ptr 4 with
    | .error f => .error f
    | .ok m => .ok (decide (m = endMark))
  else .ok false

/-- One header step of SECTSPLIT, in ESTATE `SECT(ptr, stop)` (R151, R152). -/
def sectHeader (ptr stop : Nat) (s : State) : Result :=
  match atEndMark ptr stop s with
  | .error f => .fault f
  | .ok true => .next (closeSections ptr s)
  | .ok false => headerRecord ptr stop s

end Sys2Proof.Machine
end

