-- ==== Sys2Proof/Machine/Bus.lean ====
section
/-! DEFINITION. The host's side: the register map and what a host access does (10_state.md R22 to R50; 20_memory.md R70 to
R85; 43_system.md R231, R232). -/
namespace Sys2Proof.Machine

/-- The registers of the register window by name (R22). -/
inductive Reg where
  | id | status | ctrl | irqEn | cmd | addr | resLo | resHi | errInfo0 | errInfo1 | bufLen | caps
  | msgPtr | msgBase | msgLen | msgDeclLo | msgDeclHi | s0Info | sectPresent | endAddr
  | sectAddr (n : Fin 9) | sectLen (n : Fin 9)
  | npts | width | ref | bsf | dsf | drt | dataAddr | dataLen | bmpCtrl | bmpAddr | bmpLen
  | outCount | unpIdx | unpCursor | unpCw
  deriving DecidableEq, Repr

/-- The register at a word-aligned offset of the window (R22); none where the offset is reserved (R50). -/
def regAt (off : Nat) : Option Reg :=
  if off = 0x000 then some .id
  else if off = 0x004 then some .status
  else if off = 0x008 then some .ctrl
  else if off = 0x00C then some .irqEn
  else if off = 0x010 then some .cmd
  else if off = 0x014 then some .addr
  else if off = 0x018 then some .resLo
  else if off = 0x01C then some .resHi
  else if off = 0x020 then some .errInfo0
  else if off = 0x024 then some .errInfo1
  else if off = 0x028 then some .bufLen
  else if off = 0x02C then some .caps
  else if off = 0x030 then some .msgPtr
  else if off = 0x034 then some .msgBase
  else if off = 0x038 then some .msgLen
  else if off = 0x03C then some .msgDeclLo
  else if off = 0x040 then some .msgDeclHi
  else if off = 0x044 then some .s0Info
  else if off = 0x048 then some .sectPresent
  else if off = 0x04C then some .endAddr
  else if 0x050 ≤ off ∧ off < 0x098 then
    let n : Fin 9 := Fin.ofNat 9 ((off - 0x050) / 8)
    if off % 8 = 0 then some (.sectAddr n) else if off % 8 = 4 then some (.sectLen n) else none
  else if off = 0x0A0 then some .npts
  else if off = 0x0A4 then some .width
  else if off = 0x0A8 then some .ref
  else if off = 0x0AC then some .bsf
  else if off = 0x0B0 then some .dsf
  else if off = 0x0B4 then some .drt
  else if off = 0x0B8 then some .dataAddr
  else if off = 0x0BC then some .dataLen
  else if off = 0x0C0 then some .bmpCtrl
  else if off = 0x0C4 then some .bmpAddr
  else if off = 0x0C8 then some .bmpLen
  else if off = 0x0D0 then some .outCount
  else if off = 0x0D4 then some .unpIdx
  else if off = 0x0D8 then some .unpCursor
  else if off = 0x0DC then some .unpCw
  else none

/-- The offset of a register, as the map of R22 lists it. -/
def regOffset : Reg → Nat
  | .id => 0x000
  | .status => 0x004
  | .ctrl => 0x008
  | .irqEn => 0x00C
  | .cmd => 0x010
  | .addr => 0x014
  | .resLo => 0x018
  | .resHi => 0x01C
  | .errInfo0 => 0x020
  | .errInfo1 => 0x024
  | .bufLen => 0x028
  | .caps => 0x02C
  | .msgPtr => 0x030
  | .msgBase => 0x034
  | .msgLen => 0x038
  | .msgDeclLo => 0x03C
  | .msgDeclHi => 0x040
  | .s0Info => 0x044
  | .sectPresent => 0x048
  | .endAddr => 0x04C
  | .sectAddr n => 0x050 + 8 * n.val
  | .sectLen n => 0x054 + 8 * n.val
  | .npts => 0x0A0
  | .width => 0x0A4
  | .ref => 0x0A8
  | .bsf => 0x0AC
  | .dsf => 0x0B0
  | .drt => 0x0B4
  | .dataAddr => 0x0B8
  | .dataLen => 0x0BC
  | .bmpCtrl => 0x0C0
  | .bmpAddr => 0x0C4
  | .bmpLen => 0x0C8
  | .outCount => 0x0D0
  | .unpIdx => 0x0D4
  | .unpCursor => 0x0D8
  | .unpCw => 0x0DC

/-- ID, hard-wired: "BSU1" (R23). -/
def idWord : Word := 0x42535531#32

/-- CAPS, hard-wired from the parameters (R33). -/
def capsWord (p : Params) : Word :=
  place 0 (BitVec.ofNat 5 p.ibufLog) ||| place 8 (BitVec.ofNat 5 p.outLog) ||| place 16 (BitVec.ofNat 8 wMax) |||
    place 24 (BitVec.ofNat 4 spanMax)

/-- SECT_PRESENT as a word: bit `n` is the presence of slot `n`, bits 31:9 read 0 (R37). -/
def presentWord (s : State) : Word :=
  placeBit 0 (slotPresent s 0) ||| placeBit 1 (slotPresent s 1) ||| placeBit 2 (slotPresent s 2) |||
    placeBit 3 (slotPresent s 3) ||| placeBit 4 (slotPresent s 4) ||| placeBit 5 (slotPresent s 5) |||
    placeBit 6 (slotPresent s 6) ||| placeBit 7 (slotPresent s 7) ||| placeBit 8 (slotPresent s 8)

/-- What a read of a register returns (R22 to R49). -/
def readReg (s : State) : Reg → Word
  | .id => idWord
  | .status => statusWord s.status
  | .ctrl => 0#32
  | .irqEn => irqEnWord s.irqEn
  | .cmd => s.lastCmd
  | .addr => s.addr
  | .resLo => s.resLo
  | .resHi => s.resHi
  | .errInfo0 => s.errInfo0.setWidth 32
  | .errInfo1 => s.errInfo1
  | .bufLen => s.bufLen
  | .caps => capsWord s.par
  | .msgPtr => s.msg.ptr
  | .msgBase => s.msg.base
  | .msgLen => s.msg.len
  | .msgDeclLo => s.msg.declLo
  | .msgDeclHi => s.msg.declHi
  | .s0Info => place 0 s.table.disc ||| place 8 s.table.edition
  | .sectPresent => presentWord s
  | .endAddr => s.table.endAddr
  | .sectAddr n => s.table.slots[n].addr
  | .sectLen n => s.table.slots[n].len
  | .npts => s.prm.npts
  | .width => s.prm.width.setWidth 32
  | .ref => s.prm.ref
  | .bsf => s.prm.bsf
  | .dsf => s.prm.dsf
  | .drt => s.prm.drt.setWidth 32
  | .dataAddr => s.prm.dataAddr
  | .dataLen => s.prm.dataLen
  | .bmpCtrl => placeBit 0 s.prm.bmpEn
  | .bmpAddr => s.prm.bmpAddr
  | .bmpLen => s.prm.bmpLen
  | .outCount => s.prog.outCount
  | .unpIdx => s.prog.idx
  | .unpCursor => s.prog.cursor
  | .unpCw => s.prog.cw

/-- The registers whose writes the block drops while BUSY (R22, R80). -/
def droppedWhileBusy : Reg → Bool
  | .cmd => true
  | .addr => true
  | .bufLen => true
  | .npts => true
  | .width => true
  | .ref => true
  | .bsf => true
  | .dsf => true
  | .drt => true
  | .dataAddr => true
  | .dataLen => true
  | .bmpCtrl => true
  | .bmpAddr => true
  | .bmpLen => true
  | _ => false

/-- A host write of `v` to CTRL (R26): the soft reset wins over the error clear. -/
def writeCtrl (v : Word) (s : State) : State :=
  if v.getLsbD 0 then softReset s else if v.getLsbD 1 then clearError s else s

/-- A host write of `v` to BUF_LEN stores `min(v, IBUF_SIZE)` (R32). -/
def writeBufLen (v : Word) (s : State) : State :=
  { s with bufLen := BitVec.ofNat 32 (min v.toNat s.par.ibufSize) }

/-- A host write of `v` to a register that is not dropped (R22 to R50): a read-only register ignores it. -/
def storeReg (r : Reg) (v : Word) (s : State) : State :=
  match r with
  | .status => writeStatus v s
  | .ctrl => writeCtrl v s
  | .irqEn => writeIrqEn v s
  | .cmd => issueCmd v s
  | .addr => { s with addr := v }
  | .bufLen => writeBufLen v s
  | .npts => { s with prm := { s.prm with npts := v } }
  | .width => { s with prm := { s.prm with width := v.setWidth 8 } }
  | .ref => { s with prm := { s.prm with ref := v } }
  | .bsf => { s with prm := { s.prm with bsf := v } }
  | .dsf => { s with prm := { s.prm with dsf := v } }
  | .drt => { s with prm := { s.prm with drt := v.setWidth 16 } }
  | .dataAddr => { s with prm := { s.prm with dataAddr := v } }
  | .dataLen => { s with prm := { s.prm with dataLen := v } }
  | .bmpCtrl => { s with prm := { s.prm with bmpEn := v.getLsbD 0 } }
  | .bmpAddr => { s with prm := { s.prm with bmpAddr := v } }
  | .bmpLen => { s with prm := { s.prm with bmpLen := v } }
  | _ => s

/-- A host write of `v` to register `r` (R80). -/
def writeReg (r : Reg) (v : Word) (s : State) : State :=
  if droppedWhileBusy r && s.status.busy then dropWrite s else storeReg r v s

/-- The bytes of an access width. -/
def sizeBytes : Size → Nat
  | .b8 => 1
  | .b16 => 2
  | .b32 => 4

/-- The windows of the block's address space (R70): the register window, the OBUF window with an entry and a word
offset, the IBUF window with a window offset, and the rest, which is reserved (R85). -/
inductive Window where
  | regs (off : Nat)
  | obuf (entry word : Nat)
  | ibuf (a : Nat)
  | reserved
  deriving DecidableEq, Repr

/-- The window a block offset falls in (R70, R85). -/
def windowOf (p : Params) (off : Nat) : Window :=
  if off < 0x1000 then .regs off
  else if 0x00100000 ≤ off ∧ off < 0x00100000 + 16 * p.outMax then
    .obuf ((off - 0x00100000) / 16) ((off - 0x00100000) % 16)
  else if 0x80000000 ≤ off ∧ off < 0x80000000 + p.ibufSize then .ibuf (off - 0x80000000)
  else .reserved

/-- A host access to IBUF offset `a` of `n` bytes is legal: aligned and inside IBUF (R73). -/
def ibufLegal (p : Params) (a n : Nat) : Bool := decide (a % n = 0) && decide (a + n ≤ p.ibufSize)

/-- A register or OBUF access is legal: 32 bits, at a multiple of 4 (R78, R79). -/
def wordLegal (size : Size) (off : Nat) : Bool := decide (size = .b32) && decide (off % 4 = 0)

/-- The byte a host read finds at IBUF offset `a`: the written one, or the unspecified power-on one (R72). -/
def hostByte (s : State) (a : Nat) : Byte :=
  match Cells.read s.ibuf a with
  | some b => b
  | none => Config.freeIbufByte s.resets a

/-- The little-endian value of the `n` bytes from IBUF offset `a` (R73). -/
def lanesValue (s : State) (a : Nat) : Nat → Nat
  | 0 => 0
  | n + 1 => (hostByte s a).toNat + 256 * lanesValue s (a + 1) n

/-- Store `n` bytes of `v` at IBUF offset `a`, the low byte first (R73). -/
def storeLanes (m : Memory) (a : Nat) (v : Nat) : Nat → Memory
  | 0 => m
  | n + 1 => storeLanes (Cells.write m a (BitVec.ofNat 8 v)) (a + 1) (v / 256) n

/-- A legal host write to IBUF, dropped while BUSY (R73, R80). -/
def writeIbuf (a n : Nat) (v : Word) (s : State) : State :=
  if s.status.busy then dropWrite s else { s with ibuf := storeLanes s.ibuf a v.toNat n }

/-- The word at word offset `w` of a written OBUF entry (R76). -/
def entryWord (o : OutEntry) (w : Nat) : Word :=
  if w = 0 then o.value.extractLsb' 0 32
  else if w = 4 then o.value.extractLsb' 32 32
  else if w = 8 then placeBit 0 o.present
  else o.raw

/-- The word a host read finds at word offset `w` of OBUF entry `i`: the written entry's, or any word where nothing has
written the entry since RESET (R77, R295; log entry 6). -/
def hostEntryWord (s : State) (i w : Nat) : Word :=
  match Cells.read s.obuf i with
  | some o => entryWord o w
  | none => Config.freeObufWord s.resets i w

/-- The answer to a host read (R50, R73, R78, R79, R85). A read has no side effect (R84). -/
def readBus (s : State) (size : Size) (off : Nat) : BusResp :=
  match windowOf s.par off with
  | .regs o =>
    if wordLegal size o then
      match regAt o with
      | some r => .data (readReg s r)
      | none => .data 0#32
    else .busError
  | .obuf i w => if wordLegal size w then .data (hostEntryWord s i w) else .busError
  | .ibuf a =>
    if ibufLegal s.par a (sizeBytes size) then .data (BitVec.ofNat 32 (lanesValue s a (sizeBytes size))) else .busError
  | .reserved => .busError

/-- The state after a host write and the answer to it (R25 to R50, R73, R78 to R80, R85). -/
def writeBus (s : State) (size : Size) (off : Nat) (v : Word) : State × BusResp :=
  match windowOf s.par off with
  | .regs o =>
    if wordLegal size o then
      match regAt o with
      | some r => (writeReg r v s, .okay)
      | none => (s, .okay)
    else (s, .busError)
  | .obuf _ w => if wordLegal size w then (s, .okay) else (s, .busError)
  | .ibuf a =>
    if ibufLegal s.par a (sizeBytes size) then (writeIbuf a (sizeBytes size) v s, .okay) else (s, .busError)
  | .reserved => (s, .busError)

/-- One host access: its effect, and its answer in `resp`. -/
def hostAccess (a : Access) (s : State) : State :=
  match a with
  | .read size off => { s with resp := some (readBus s size off.toNat) }
  | .write size off v =>
    let out := writeBus s size off.toNat v
    { out.1 with resp := some out.2 }

end Sys2Proof.Machine
end

