-- ==== Sys2Proof/Machine/Codec.lean ====
section
/-! DEFINITION. The scalar codec commands (40_codec.md R120 to R125): one engine step each. -/
namespace Sys2Proof.Machine

/-- RES_HI and RES_LO take the two halves of a 64-bit result (R30). -/
def setRes (v : DWord) (s : State) : State :=
  { s with resHi := v.extractLsb' 32 32, resLo := v.extractLsb' 0 32 }

/-- The step all codec commands share: the span check of R120, the read of the span, and RES from its bytes. -/
def codecStep (opc : Byte) (span : Nat) (value : List Byte → DWord) (s : State) : Result :=
  if spanFits s s.addr.toNat span then
    match memRead s s.addr.toNat span with
    | .error f => .fault f
    | .ok bs => .next (finish (setRes (value bs) s))
  else .next (raise opc .range s.addr s)

/-- `uint.<n>`: the big-endian unsigned integer of the span (R121). -/
def execUint (n : BitVec 4) (s : State) : Result :=
  codecStep (opcodeByte .uint) n.toNat (fun bs => BitVec.ofNat 64 (beNat bs)) s

/-- `smint.<n>`: the sign-magnitude integer of the span, in 64-bit two's complement (R123). -/
def execSmint (n : BitVec 4) (s : State) : Result :=
  codecStep (opcodeByte .smint) n.toNat (fun bs => BitVec.ofInt 64 (signMag bs)) s

/-- `f32`: the bit pattern of the big-endian binary32 at ADDR; RES_HI is 0 (R125). -/
def execF32 (s : State) : Result :=
  codecStep (opcodeByte .f32) 4 (fun bs => BitVec.ofNat 64 (beNat bs)) s

end Sys2Proof.Machine
end

