-- ==== Sys2Proof/Machine/System.lean ====
section
/-! DEFINITION. The system command (43_system.md R230). -/
namespace Sys2Proof.Machine

/-- `nop`: finish (R230). -/
def execNop (s : State) : Result := .next (finish s)

end Sys2Proof.Machine
end

