-- ==== Sys2Proof/Machine/Float.lean ====
section
/-! DEFINITION. The binary64 arithmetic of UNPACK (00_scope.md R11; 42_unpacker.md R191 to R197): rounding of an exact
rational, the three IEEE-754 operations the scale formula uses, POW10, ROUND4 and SCALE. A value is an exact
rational until `fl64` rounds it once. -/
namespace Sys2Proof.Machine

/-- The value of a floating-point pattern: not a number, an infinity, or `mant * 2^exp` with a sign. -/
inductive FVal where
  | nan
  | inf (neg : Bool)
  | fin (neg : Bool) (mant : Nat) (exp : Int)
  deriving DecidableEq, Repr

/-- The one NaN the block writes (R197). -/
def canonNaN : B64 := 0x7FF8000000000000#64

/-- The magnitude bits of an infinity: biased exponent 2047, fraction 0. -/
def infMag : Nat := 2047 * 2 ^ 52

/-- Sign bit and magnitude bits of a binary64 pattern put together. -/
def signed64 (neg : Bool) (mag : Nat) : B64 := BitVec.ofNat 64 (neg.toNat * 2 ^ 63 + mag)

/-- The infinity of a sign. -/
def inf64 (neg : Bool) : B64 := signed64 neg infMag

/-- The zero of a sign. -/
def zero64 (neg : Bool) : B64 := signed64 neg 0

/-- The value of a binary64 pattern (R11; I-GK4). -/
def unpack64 (b : B64) : FVal :=
  let e := (b.extractLsb' 52 11).toNat
  let f := (b.extractLsb' 0 52).toNat
  if e = 2047 then (if f = 0 then .inf b.msb else .nan)
  else if e = 0 then .fin b.msb f (-1074)
  else .fin b.msb (2 ^ 52 + f) ((e : Int) - 1075)

/-- The value of a binary32 pattern (R126). -/
def unpack32 (p : Word) : FVal :=
  let e := (p.extractLsb' 23 8).toNat
  let f := (p.extractLsb' 0 23).toNat
  if e = 255 then (if f = 0 then .inf p.msb else .nan)
  else if e = 0 then .fin p.msb f (-149)
  else .fin p.msb (2 ^ 23 + f) ((e : Int) - 150)

/-- The floor of log2 of the positive rational `num / den`. -/
def floorLog2 (num den : Nat) : Int :=
  let l : Int := (num.log2 : Int) - (den.log2 : Int)
  if den * 2 ^ l.toNat ≤ num * 2 ^ (-l).toNat then l else l - 1

/-- The exponent of the spacing of binary64 numbers around `num / den`: 52 below the leading bit, and never below the
subnormal spacing 2^-1074. -/
def ulpExp (num den : Nat) : Int := max (floorLog2 num den - 52) (-1074)

/-- `n / d` rounded to the nearest integer, ties to even. -/
def roundEven (n d : Nat) : Nat :=
  if d < 2 * (n % d) ∨ (d = 2 * (n % d) ∧ n / d % 2 = 1) then n / d + 1 else n / d

/-- The magnitude bits of `num / den` rounded to nearest, ties to even, an overflow giving the infinity (R11). The
significand's leading bit adds itself to the exponent field, and a carry out of it goes there too. -/
def roundMag (num den : Nat) : Nat :=
  if num = 0 then 0
  else
    let e := ulpExp num den
    min ((e + 1074).toNat * 2 ^ 52 + roundEven (num * 2 ^ (-e).toNat) (den * 2 ^ e.toNat)) infMag

/-- `fl64` of the exact rational `num / den`, `den > 0`, with the sign `neg` (R11). -/
def fl64 (neg : Bool) (num den : Nat) : B64 := signed64 neg (roundMag num den)

/-- `fl64` of `mant * 2^exp` with a sign. -/
def flScaled (neg : Bool) (mant : Nat) (exp : Int) : B64 := fl64 neg (mant * 2 ^ exp.toNat) (2 ^ (-exp).toNat)

/-- A signed significand as an integer. -/
def signedInt (neg : Bool) (m : Nat) : Int := if neg then -(m : Int) else (m : Int)

/-- The IEEE-754 product (R11, R193): 0 times an infinity is NaN. -/
def mul64 (x y : B64) : B64 :=
  match unpack64 x, unpack64 y with
  | .nan, _ => canonNaN
  | _, .nan => canonNaN
  | .inf a, .inf b => inf64 (a ^^ b)
  | .inf a, .fin b m _ => if m = 0 then canonNaN else inf64 (a ^^ b)
  | .fin a m _, .inf b => if m = 0 then canonNaN else inf64 (a ^^ b)
  | .fin a m e, .fin b n f => flScaled (a ^^ b) (m * n) (e + f)

/-- The IEEE-754 sum (R194): opposite infinities give NaN, an exact zero sum is +0 unless both operands are
negative zeros. -/
def add64 (x y : B64) : B64 :=
  match unpack64 x, unpack64 y with
  | .nan, _ => canonNaN
  | _, .nan => canonNaN
  | .inf a, .inf b => if a = b then inf64 a else canonNaN
  | .inf a, .fin _ _ _ => inf64 a
  | .fin _ _ _, .inf b => inf64 b
  | .fin a m e, .fin b n f =>
    let g := min e f
    let t : Int := signedInt a m * 2 ^ (e - g).toNat + signedInt b n * 2 ^ (f - g).toNat
    if t = 0 then zero64 (a && b) else flScaled (decide (t < 0)) t.natAbs g

/-- The IEEE-754 quotient (R195). R195 names no quotient of two infinities: it is NaN, as IEEE-754 has it, also where the
overflow, infinite-reference and decimal-overflow rows of R200 take one in (DEDUCED, log entry 23). -/
def div64 (x y : B64) : B64 :=
  match unpack64 x, unpack64 y with
  | .nan, _ => canonNaN
  | _, .nan => canonNaN
  | .inf _, .inf _ => canonNaN
  | .inf a, .fin b _ _ => inf64 (a ^^ b)
  | .fin a _ _, .inf b => zero64 (a ^^ b)
  | .fin a m e, .fin b n f =>
    if n = 0 then (if m = 0 then canonNaN else inf64 (a ^^ b))
    else fl64 (a ^^ b) (m * 2 ^ (e - f).toNat) (n * 2 ^ (f - e).toNat)

/-- `widen(p)`, exact for every pattern that is no NaN (R192). -/
def widen (p : Word) : B64 :=
  match unpack32 p with
  | .nan => canonNaN
  | .inf a => inf64 a
  | .fin a m e => flScaled a m e

/-- `fl64(2^E)` (R193). -/
def pow2of (e : Int) : B64 :=
  if 1024 ≤ e then inf64 false
  else if e ≤ -1075 then zero64 false
  else flScaled false 1 e

/-- The default of POW10: the correctly rounded `10^D` (R195). -/
def pow10Default (d : Int) : B64 :=
  if 309 ≤ d then inf64 false
  else if d ≤ -324 then zero64 false
  else fl64 false (10 ^ d.toNat) (10 ^ (-d).toNat)

/-- The first value listed for a key, if there is one. -/
def lookupKey {κ β : Type} [DecidableEq κ] : List (κ × β) → κ → Option β
  | [], _ => none
  | (k, v) :: rest, x => if x = k then some v else lookupKey rest x

/-- `POW10(D)`, the parameter function of R6: this build's own value where it has one, the default elsewhere. -/
def pow10 (p : Params) (d : Int) : B64 :=
  match lookupKey p.pow10Diff d with
  | some v => v
  | none => pow10Default d

/-- `floor(s + 1/2)` of `s = mant * 2^exp` with a sign, in exact arithmetic (R196). -/
def floorHalfUp (neg : Bool) (mant : Nat) (exp : Int) : Int :=
  (2 * signedInt neg mant * 2 ^ exp.toNat + 2 ^ (-exp).toNat) / (2 * 2 ^ (-exp).toNat)

/-- The default of ROUND4 (R196). -/
def round4Default (v : B64) : B64 :=
  match unpack64 (mul64 v (fl64 false 10000 1)) with
  | .nan => canonNaN
  | .inf a => inf64 a
  | .fin a m e =>
    let k := floorHalfUp a m e
    fl64 (decide (k < 0) || (decide (k = 0) && a)) k.natAbs 10000

/-- `ROUND4(v)`, the parameter function of R6: this build's own value where it has one, the default elsewhere. -/
def round4 (p : Params) (v : B64) : B64 :=
  match lookupKey p.round4Diff v with
  | some o => o
  | none => round4Default v

/-- The value is a NaN. -/
def isNaN64 (b : B64) : Bool := unpack64 b == .nan

/-- `canon(o)`: every NaN is the canonical one (R197). -/
def canon (o : B64) : B64 := if isNaN64 o then canonNaN else o

/-- The value is an infinity or a NaN (R199). -/
def nonFinite (b : B64) : Bool := b.extractLsb' 52 11 == 2047#11

/-- `SCALE(raw)`: `(R + raw * 2^E) / 10^D` rounded to 4 decimal digits, one IEEE-754 operation at a time (R191). Where the
summary of R200 (overflow and infinite reference with D >= 309, decimal overflow with t2 = -infinity) or of R201
(W = 0 with REF = -0 or E >= 1024) differs from these operations, the operations stand (DEDUCED, log entries 23 and
24). -/
def scale (p : Params) (ref : Word) (e d : Int) (raw : Nat) : B64 :=
  let t1 := mul64 (fl64 false raw 1) (pow2of e)
  let t2 := add64 (widen ref) t1
  let v := div64 t2 (pow10 p d)
  canon (round4 p v)

end Sys2Proof.Machine
end

