-- ==== Sys2Proof/Machine/Unpacker.lean ====
section
/-! DEFINITION. The bitstream unpacker (42_unpacker.md R182 to R206). -/
namespace Sys2Proof.Machine

/-- The progress registers mirror point `i`, cursor `c` and codeword count `k` (R49, R55). -/
def setProgress (i c k : Nat) (s : State) : State :=
  { s with
    prog :=
      { s.prog with idx := BitVec.ofNat 32 i, cursor := BitVec.ofNat 32 c, cw := BitVec.ofNat 32 k } }

/-- UNPACK's first act: no result is valid (R183). -/
def dropOutput (s : State) : State :=
  { s with status := { s.status with outValid := false }, prog := { s.prog with outCount := 0#32 } }

/-- UNPACK's completion: NPTS results are valid (R184). -/
def publishOutput (s : State) : State :=
  finish { s with status := { s.status with outValid := true }, prog := { s.prog with outCount := s.prm.npts } }

/-- UNPACK goes on to point `i`, or completes where `i` is NPTS (R183, R186). -/
def nextPoint (i c k : Nat) (s : State) : State :=
  let s1 := setProgress i c k s
  if i = s.prm.npts.toNat then publishOutput s1 else { s1 with estate := EState.unp i c k }

/-- `unpack`: its start step (R183). The point steps follow from the ESTATE it leaves (R182). -/
def execUnpack (s : State) : Result :=
  let opc := opcodeByte .unpack
  let s1 := dropOutput s
  if s.prm.drt ≠ 0#16 then .next (raise opc .template (s.prm.drt.setWidth 32) s1)
  else if wMax < s.prm.width.toNat then .next (raise opc .width (s.prm.width.setWidth 32) s1)
  else if s.par.outMax < s.prm.npts.toNat then .next (raise opc .npts s.prm.npts s1)
  else if spanFits s s.prm.dataAddr.toNat s.prm.dataLen.toNat = false then .next (raise opc .range s.prm.dataAddr s1)
  else if s.prm.bmpEn = true ∧ spanFits s s.prm.bmpAddr.toNat s.prm.bmpLen.toNat = false then
    .next (raise opc .range s.prm.bmpAddr s1)
  else .next (nextPoint 0 0 0 s1)

/-- The OBUF entry of a masked point (R76, R186, R187). -/
def nullEntry : OutEntry := { present := false, value := 0#64, raw := 0#32 }

/-- The value of a codeword under the parameter file (R191): BSF and DSF are read as two's complement (R104). -/
def pointValue (s : State) (raw : Nat) : B64 := scale s.par s.prm.ref s.prm.bsf.toInt s.prm.dsf.toInt raw

/-- A masked point: a null entry, and the cursor stays (R186, R187). -/
def maskedPoint (i c k : Nat) (s : State) : State := nextPoint (i + 1) c k (writeOut i nullEntry s)

/-- A present point of codeword `raw`: the scaled value, its warning, and the cursor moves by W (R186, R188, R199). -/
def presentPoint (i c k raw : Nat) (s : State) : State :=
  let v := pointValue s raw
  let s1 := writeOut i { present := true, value := v, raw := BitVec.ofNat 32 raw } s
  nextPoint (i + 1) (c + s.prm.width.toNat) (k + 1) (warnNonfinite (nonFinite v) s1)

/-- One point step of UNPACK, in ESTATE `UNP(i, c, k)` (R186). -/
def unpPoint (i c k : Nat) (s : State) : Result :=
  if s.prm.bmpEn = true ∧ 8 * s.prm.bmpLen.toNat ≤ i then
    .next (raise (opcodeByte .unpack) .bmpRange (BitVec.ofNat 32 i) s)
  else
    match pointPresent s i with
    | .error f => .fault f
    | .ok false => .next (maskedPoint i c k s)
    | .ok true =>
      if 8 * s.prm.dataLen.toNat < c + s.prm.width.toNat then
        .next (raise (opcodeByte .unpack) .dataRange (BitVec.ofNat 32 i) s)
      else
        match readBits s s.prm.dataAddr.toNat c s.prm.width.toNat with
        | .error f => .fault f
        | .ok raw => .next (presentPoint i c k raw s)

end Sys2Proof.Machine
end

