-- ==== Sys2Proof/Machine/Dispatch.lean ====
section
/-! DEFINITION. The first engine step of each command (60_exceptions.md R251). -/
namespace Sys2Proof.Machine

def exec (i : Instr) (s : State) : Host.Outcome State Fault Refusal :=
  match i with
  | .nop => Sys2Proof.Machine.execNop s
  | .uint n => Sys2Proof.Machine.execUint n s
  | .smint n => Sys2Proof.Machine.execSmint n s
  | .f32 => Sys2Proof.Machine.execF32 s
  | .msginit => Sys2Proof.Machine.execMsginit s
  | .msgnext => Sys2Proof.Machine.execMsgnext s
  | .sectsplit => Sys2Proof.Machine.execSectsplit s
  | .unpack => Sys2Proof.Machine.execUnpack s

end Sys2Proof.Machine
end

