-- ==== Sys2Proof/Machine/Step.lean ====
section
/-! DEFINITION. One step of the block: the next event of the interleaving (70_reset_and_hazards.md R297, R299). -/
namespace Sys2Proof.Machine

/-- One engine step (R55, R251, R297): from START(w) the decoded command's first step, or the fault of an illegal word;
from SECT and UNP the next step of the running command; an idle engine does nothing (R294). -/
def engineStep (s : State) : Result :=
  match s.estate with
  | .idle => .next s
  | .start w =>
    match decode w with
    | .ok i => exec i s
    | .error _ => .next (illegalWord w s)
  | .sect ptr stop => sectHeader ptr stop s
  | .unp i c k => unpPoint i c k s

/-- One step of the block: the oldest event still to come, and an engine step when there is none (R298, R299). -/
def step (s : State) : Host.Outcome State Fault Refusal :=
  match s.moves with
  | [] => engineStep s
  | .engine :: rest => engineStep { s with moves := rest }
  | .host a :: rest => .next (hostAccess a { s with moves := rest })
  | .reset :: rest => .next (hardReset { s with moves := rest })

/-- The state whose very next step runs the command of a table word: the word is accepted as R251 says and the next event
is an engine step. It stands for the host's write to CMD (log entry 3). -/
def State.withFetchWord (s : State) (nbits w : Nat) : State :=
  { accept (BitVec.ofNat 32 (w % 2 ^ nbits)) s with moves := .engine :: s.moves }

end Sys2Proof.Machine
end

