-- ==== Sys2Proof/Safety.lean ====
section
/-! DEFINITION. What a safe run is, in the terms the statements use: the machine's invariant, part by part, the written
buffer that R295 asks of a correct host, and the runs of the machine. -/
namespace Sys2Proof.Machine

/-- The buffers and BUF_LEN stay inside the block (20_memory.md R72, R77; 10_state.md R32; 00_scope.md R6). -/
structure BufferInv (s : State) : Prop where
  /-- the parameters lie in the ranges of R6 -/
  params : s.par.wf
  /-- IBUF is in its canonical form -/
  ibuf_wf : Memory.wf s.ibuf
  /-- OBUF is in its canonical form -/
  obuf_wf : Cells.wf s.obuf
  /-- only offsets below IBUF_SIZE are written -/
  ibuf_inside : ∀ c ∈ s.ibuf, c.1 < s.par.ibufSize
  /-- only entries below OUT_MAX are written -/
  obuf_inside : ∀ c ∈ s.obuf, c.1 < s.par.outMax
  /-- BUF_LEN holds at most IBUF_SIZE (R32) -/
  bufLen_le : s.bufLen.toNat ≤ s.par.ibufSize

/-- The engine state and the fault registers go together (10_state.md R55; 60_exceptions.md R251 to R256). -/
structure EngineInv (s : State) : Prop where
  /-- STATUS.BUSY = 1 exactly when ESTATE is not IDLE (R55) -/
  busy_iff : s.status.busy = true ↔ s.estate ≠ .idle
  /-- a running command has DONE clear (R251) -/
  busy_not_done : s.estate ≠ .idle → s.status.done = false
  /-- while ERR = 1 the engine is idle and DONE is 0 (R232, R255) -/
  err_idle : s.status.err = true → s.estate = .idle ∧ s.status.done = false
  /-- ERRCODE is 0 exactly when ERR = 0 (R254) -/
  errcode_iff : s.status.errcode = 0#8 ↔ s.status.err = false
  /-- ERRCODE values 0x10 to 0xFF are never produced (R254) -/
  errcode_le : s.status.errcode.toNat ≤ 0x0F
  /-- with no fault taken, the fault information is clear (R31, R232) -/
  info_clear : s.status.err = false → s.errInfo0 = 0#8 ∧ s.errInfo1 = 0#32
  /-- ERR_INFO0 is the opcode of the last accepted command, which faulted (R255) -/
  info_opcode : s.status.err = true → s.errInfo0 = opcOf s.lastCmd
  /-- START holds the last accepted word (R251) -/
  start_word : ∀ w, s.estate = .start w → s.lastCmd = w
  /-- a SECT state belongs to SECTSPLIT -/
  sect_word : ∀ ptr stop, s.estate = .sect ptr stop → s.lastCmd = encode .sectsplit
  /-- a UNP state belongs to UNPACK -/
  unp_word : ∀ i c k, s.estate = .unp i c k → s.lastCmd = encode .unpack

/-- The framer registers describe a message and its sections (41_framer.md R140, R144, R147, R154). -/
structure FramerInv (s : State) : Prop where
  /-- MSG_END and MSG_VALID are never both 1 (R140) -/
  end_not_valid : s.status.msgEnd = true → s.status.msgValid = false
  /-- SECT_VALID only with MSG_VALID (R140) -/
  sect_has_msg : s.status.sectValid = true → s.status.msgValid = true
  /-- a selected message holds a section 0, lies in IBUF and ends where MSG_PTR stands (R144) -/
  span : s.status.msgValid = true →
    16 ≤ s.msg.len.toNat ∧ s.msg.base.toNat + s.msg.len.toNat = s.msg.ptr.toNat ∧ s.msg.ptr.toNat ≤ s.par.ibufSize
  /-- without a message the table is clear (R141, R143) -/
  no_message : s.status.msgValid = false → s.table = SectTable.empty
  /-- a slot that holds no section reads 0 (R147) -/
  absent_zero : ∀ n : Fin 9, s.table.slots[n].present = false → s.table.slots[n] = Slot.absent
  /-- slot 0 is section 0: the first 16 bytes of the message (R149, R154) -/
  slot_zero : s.table.slots[(0 : Fin 9)].present = true →
    s.table.slots[(0 : Fin 9)].addr = s.msg.base ∧ s.table.slots[(0 : Fin 9)].len = 16#32
  /-- every other section lies in the message, after section 0 (R154) -/
  slot_inside : ∀ n : Fin 9, n ≠ 0 → s.table.slots[n].present = true →
    s.msg.base.toNat + 16 ≤ s.table.slots[n].addr.toNat ∧ 5 ≤ s.table.slots[n].len.toNat ∧
      s.table.slots[n].addr.toNat + s.table.slots[n].len.toNat ≤ s.msg.base.toNat + s.msg.len.toNat
  /-- a valid table ends at the marker (R154) -/
  framed : s.status.sectValid = true →
    s.table.slots[(0 : Fin 9)].present = true ∧ s.msg.base.toNat + 16 ≤ s.table.endAddr.toNat ∧
      s.table.endAddr.toNat + 4 ≤ s.msg.base.toNat + s.msg.len.toNat ∧
      ∀ n : Fin 9, n ≠ 0 → s.table.slots[n].present = true →
        s.table.slots[n].addr.toNat + s.table.slots[n].len.toNat ≤ s.table.endAddr.toNat
  /-- while SECTSPLIT runs, the offset examined lies in the message, past every section recorded (R149, R152) -/
  running : ∀ ptr stop, s.estate = .sect ptr stop →
    s.status.msgValid = true ∧ s.status.sectValid = false ∧
      stop = s.msg.base.toNat + s.msg.len.toNat ∧ stop ≤ s.bufLen.toNat ∧
      s.msg.base.toNat + 16 ≤ ptr ∧ ptr ≤ stop ∧ s.table.slots[(0 : Fin 9)].present = true ∧
      ∀ n : Fin 9, n ≠ 0 → s.table.slots[n].present = true →
        s.table.slots[n].addr.toNat + s.table.slots[n].len.toNat ≤ ptr

/-- UNPACK's registers describe its progress and its result (42_unpacker.md R183 to R190, R202). -/
structure UnpackInv (s : State) : Prop where
  /-- a valid result lies in OBUF and every entry of it is written (R184, R188) -/
  result : s.status.outValid = true →
    s.prog.outCount.toNat ≤ s.par.outMax ∧ s.prog.idx = s.prog.outCount ∧
      ∀ i, i < s.prog.outCount.toNat → (Cells.read s.obuf i).isSome = true
  /-- without a valid result OUT_COUNT is 0 (R146, R183) -/
  no_result : s.status.outValid = false → s.prog.outCount = 0#32
  /-- while UNPACK runs, its start checks hold, the progress registers mirror ESTATE, the cursor is W times the codewords
  read, and the entries below the point are written (R183, R186, R188, R190) -/
  running : ∀ i c k, s.estate = .unp i c k →
    s.status.outValid = false ∧ i < s.prm.npts.toNat ∧ s.prm.npts.toNat ≤ s.par.outMax ∧
      s.prm.drt = 0#16 ∧ s.prm.width.toNat ≤ 32 ∧
      s.prm.dataAddr.toNat + s.prm.dataLen.toNat ≤ s.bufLen.toNat ∧
      (s.prm.bmpEn = true → s.prm.bmpAddr.toNat + s.prm.bmpLen.toNat ≤ s.bufLen.toNat) ∧
      s.prog.idx.toNat = i ∧ s.prog.cursor.toNat = c ∧ s.prog.cw.toNat = k ∧
      c = s.prm.width.toNat * k ∧ k ≤ i ∧ c ≤ 8 * s.prm.dataLen.toNat ∧
      ∀ j, j < i → (Cells.read s.obuf j).isSome = true

/-- The machine's invariant. -/
structure BlockInv (s : State) : Prop where
  buffers : BufferInv s
  engine : EngineInv s
  framer : FramerInv s
  unpack : UnpackInv s

/-- Every byte of the valid buffer has been written, as a correct host sees to (R295). -/
abbrev Written (s : State) : Prop := ∀ a, a < s.bufLen.toNat → (Cells.read s.ibuf a).isSome = true

/-- `k` engine steps from a state (R297); the run ends early at a model fault. -/
def engineRun : Nat → State → Result
  | 0, s => .next s
  | k + 1, s =>
    match engineStep s with
    | .next t => engineRun k t
    | .fault f => .fault f
    | .refused r => .refused r

/-! ### Terms of the statements -/

/-- The legal spans of each opcode, as R102 tables them. -/
def LegalSpan (opc : Byte) (span : Nat) : Prop :=
  if opc = 0x01#8 ∨ opc = 0x02#8 then 1 ≤ span ∧ span ≤ 8 else if opc = 0x03#8 then span = 4 else span = 0

/-- An illegal command word: one of the three conditions of R105. -/
def Illegal (w : Word) : Prop :=
  w.extractLsb' 24 8 ∉ [0x00#8, 0x01#8, 0x02#8, 0x03#8, 0x10#8, 0x11#8, 0x12#8, 0x20#8] ∨
    w.extractLsb' 0 20 ≠ 0#20 ∨ ¬ LegalSpan (w.extractLsb' 24 8) (w.extractLsb' 20 4).toNat

/-- The engine can read the `n` bytes `f 0 .. f (n-1)` at IBUF offset `a`: they are written, and lie below BUF_LEN. -/
def Holds (s : State) (a n : Nat) (f : Nat → Byte) : Prop :=
  a + n ≤ s.bufLen.toNat ∧ ∀ k, k < n → Cells.read s.ibuf (a + k) = some (f k)

/-- The state after the fault `code` of a command with opcode byte `opc`, raised in state `s` (R255). -/
def faulted (opc : Byte) (code : Byte) (info : Word) (s : State) : State :=
  { s with
    status := { s.status with err := true, errcode := code, busy := false }
    errInfo0 := opc
    errInfo1 := info
    estate := .idle }

/-- The value a register has after RESET and after a soft reset (R292). -/
def resetWord (p : Params) : Reg → Word
  | .id => 0x42535531#32
  | .caps => capsWord p
  | _ => 0#32

/-- The rational value of a finite binary64 pattern; none for an infinity or a NaN. -/
def ratValue (b : B64) : Option ℚ :=
  match unpack64 b with
  | .fin neg m e => some ((if neg then -1 else 1) * (m : ℚ) * (2 : ℚ) ^ e)
  | _ => none

/-- Point `i` of UNPACK is present, as far as its bitmap bit can be read (R187). -/
def isPresent (s : State) (i : Nat) : Bool :=
  match pointPresent s i with
  | .ok b => b
  | .error _ => false

/-- The number of present points among the first `i` (R202). -/
def presentBefore (s : State) (i : Nat) : Nat := (List.range i).countP (isPresent s)

/-- The chain of sections from offset `ptr` to the end marker at `last`, in a message that ends at `stop`: each section is
a header's length and number, and its first four bytes are no marker (R151, R152). -/
inductive Chain (s : State) (stop : Nat) : Nat → List (Nat × Nat) → Nat → Prop where
  | mark {ptr : Nat} : 4 ≤ stop - ptr → memRead s ptr 4 = .ok endMark → Chain s stop ptr [] ptr
  | header {ptr last len : Nat} {bytes : List Byte} {num : Byte} {rest : List (Nat × Nat)} :
      memRead s ptr 4 = .ok bytes → bytes ≠ endMark → beNat bytes = len → readByte s (ptr + 4) = .ok num →
      5 ≤ len → len ≤ stop - ptr → Chain s stop (ptr + len) rest last →
      Chain s stop ptr ((len, num.toNat) :: rest) last

/-- The last section of number `n` in a chain that starts at `ptr`: its offset and length (R155). -/
def lastOf (n : Nat) : Nat → List (Nat × Nat) → Option (Nat × Nat)
  | _, [] => none
  | ptr, (len, num) :: rest =>
    match lastOf n (ptr + len) rest with
    | some r => some r
    | none => if num = n then some (ptr, len) else none

end Sys2Proof.Machine
end

