-- ==== Sys2Proof/Certificates/Slice0/Obligations.lean ====
section
/-! DEFINITION. The statements about the BSU model, in the order of OBLIGATIONS.json. Each docstring names the rules of
spec/ it formalises. -/

section

open Sys2Proof Sys2Proof.Machine

/-! ### Encoding (30_encoding.md) -/

/-- Decoding and encoding agree in both directions (R100 to R103, R110): a word decodes to a command exactly when the
command is well formed and the word is its encoding. So no bit of an encoding is dropped. -/
def Obligations.DecodeIffEncode : Prop :=
  ∀ (w : Word) (i : Instr), decode w = .ok i ↔ i.wf = true ∧ encode i = w

/-- R106: the decoder is total. Every word is illegal and refused, or it is one of the eight commands, with the codec span
in 1..8 read from bits 23:20, and then it belongs to exactly one row of the opcode table, its command's own. -/
def Obligations.DecoderTotal : Prop :=
  ∀ w : Word,
    (Illegal w ∧ ∃ e, decode w = .error e) ∨
      (¬ Illegal w ∧ ∃ i, decode w = .ok i ∧
        (i = .nop ∨ (∃ n, (i = .uint n ∨ i = .smint n) ∧ n = w.extractLsb' 20 4 ∧ 1 ≤ n.toNat ∧ n.toNat ≤ 8) ∨
          i = .f32 ∨ i = .msginit ∨ i = .msgnext ∨ i = .sectsplit ∨ i = .unpack) ∧
        (opcodeTable.filter (fun r => rowMatches r w)).map OpcodeRow.mnemonic = [instrMnemonic i])

/-- Eight command words written out from the table of R110, one for each row. -/
def Obligations.SpecWordsDecode : Prop :=
  decode 0b00000000000000000000000000000000#32 = .ok .nop ∧
    decode 0b00000001001000000000000000000000#32 = .ok (.uint 2#4) ∧
    decode 0b00000010001000000000000000000000#32 = .ok (.smint 2#4) ∧
    decode 0b00000011010000000000000000000000#32 = .ok .f32 ∧
    decode 0b00010000000000000000000000000000#32 = .ok .msginit ∧
    decode 0b00010001000000000000000000000000#32 = .ok .msgnext ∧
    decode 0b00010010000000000000000000000000#32 = .ok .sectsplit ∧
    decode 0b00100000000000000000000000000000#32 = .ok .unpack

/-- R105: an accepted illegal word, which is one that meets any of the three conditions, raises E_ILLEGAL with the word as
its information, and has no other effect. -/
def Obligations.IllegalWordFaults : Prop :=
  ∀ (s : State) (w : Word), s.estate = .start w → Illegal w →
    engineStep s = .next (faulted (w.extractLsb' 24 8) 0x01#8 w s)

/-! ### Steps and events (R251, R297, R299) -/

/-- A step from START(w) runs the command that `w` decodes to, whether the engine step is listed or no event is left; and
the fetch word of a well-formed command makes the very next step run it. The list of events and the fetch word are
the model's choice (log entries 1 and 3). -/
def Obligations.StepRunsDecodedCommand : Prop :=
  (∀ (s : State) (w : Word) (i : Instr), s.estate = .start w → decode w = .ok i →
      (s.moves = [] → step s = exec i s) ∧
        ∀ rest, s.moves = .engine :: rest → step s = exec i { s with moves := rest }) ∧
    ∀ (s : State) (i : Instr), i.wf = true →
      step (s.withFetchWord 32 (encode i).toNat) = exec i (accept (encode i) s)

/-- The other steps: SECT and UNP continue their command, an idle engine does nothing (R294), a listed host access or RESET
is performed. The list of events and the idle step are the model's choice (log entries 1 and 22). -/
def Obligations.StepOtherEvents : Prop :=
  ∀ s : State,
    (s.moves = [] → s.estate = .idle → step s = .next s) ∧
      (s.moves = [] → ∀ ptr stop, s.estate = .sect ptr stop → step s = sectHeader ptr stop s) ∧
      (s.moves = [] → ∀ i c k, s.estate = .unp i c k → step s = unpPoint i c k s) ∧
      (∀ rest, s.moves = .engine :: rest → step s = engineStep { s with moves := rest }) ∧
      (∀ a rest, s.moves = .host a :: rest → step s = .next (hostAccess a { s with moves := rest })) ∧
      ∀ rest, s.moves = .reset :: rest → step s = .next (hardReset { s with moves := rest })

/-- R251: a host write to CMD is dropped with W_DROP while BUSY or ERR is 1, and is accepted otherwise; the first engine step
from START(w) decodes `w`, raises E_ILLEGAL for an illegal word, and else is the first step of the command. -/
def Obligations.CommandAcceptance : Prop :=
  ∀ (s : State) (w : Word),
    ((s.status.busy = true ∨ s.status.err = true) →
        hostAccess (.write .b32 0x010#32 w) s =
          { s with status := { s.status with wDrop := true }, resp := some .okay }) ∧
      (s.status.busy = false → s.status.err = false →
        hostAccess (.write .b32 0x010#32 w) s =
          { s with
            lastCmd := w, status := { s.status with done := false, busy := true }, estate := .start w
            resp := some .okay }) ∧
      (s.estate = .start w →
        (∀ e, decode w = .error e → engineStep s = .next (faulted (w.extractLsb' 24 8) 0x01#8 w s)) ∧
          ∀ i, decode w = .ok i → engineStep s = exec i s)

/-! ### Status, interrupt and the register window (10_state.md, 20_memory.md) -/

/-- R25: a host write `v` to STATUS clears each W1C bit (1, 16 to 20) whose bit in `v` is 1 and changes nothing else, in every
state; a read of STATUS has no side effect. -/
def Obligations.StatusWriteOneToClear : Prop :=
  ∀ (s : State) (v : Word),
    let t := hostAccess (.write .b32 0x004#32 v) s
    (∀ k, k < 32 →
      (readReg t .status).getLsbD k =
        if k ∈ [1, 16, 17, 18, 19, 20] then (readReg s .status).getLsbD k && !v.getLsbD k
        else (readReg s .status).getLsbD k) ∧
      t = { s with status := t.status, resp := some .okay } ∧
      hostAccess (.read .b32 0x004#32) s = { s with resp := some (.data (readReg s .status)) }

/-- The layout of STATUS (R24): the place of every field, and 0 in the reserved bits 7 and 31:21. -/
def Obligations.StatusLayout : Prop :=
  ∀ f : Status,
    let w := statusWord f
    w.getLsbD 0 = f.busy ∧ w.getLsbD 1 = f.done ∧ w.getLsbD 2 = f.err ∧ w.getLsbD 3 = f.msgEnd ∧
      w.getLsbD 4 = f.msgValid ∧ w.getLsbD 5 = f.sectValid ∧ w.getLsbD 6 = f.outValid ∧ w.getLsbD 7 = false ∧
      w.extractLsb' 8 8 = f.errcode ∧ w.getLsbD 16 = f.wTrunc ∧ w.getLsbD 17 = f.wSectnum ∧ w.getLsbD 18 = f.wDup ∧
      w.getLsbD 19 = f.wNonfinite ∧ w.getLsbD 20 = f.wDrop ∧ w.extractLsb' 21 11 = 0#11

/-- R265: the interrupt output, from the words a host reads in STATUS and IRQ_EN. -/
def Obligations.IrqOutput : Prop :=
  ∀ s : State,
    let st := readReg s .status
    let en := readReg s .irqEn
    irq s = true ↔
      (st.getLsbD 1 = true ∧ en.getLsbD 0 = true) ∨ (st.getLsbD 2 = true ∧ en.getLsbD 1 = true) ∨
        (st.extractLsb' 16 5 ≠ 0#5 ∧ en.getLsbD 2 = true)

/-- R80: while BUSY the block drops the writes to CMD, ADDR, BUF_LEN, NPTS to BMP_LEN and IBUF, which change nothing but
W_DROP; the writes to STATUS, CTRL and IRQ_EN are never dropped. -/
def Obligations.DroppedWhileBusy : Prop :=
  ∀ (s : State) (v : Word), s.par.wf →
    (s.status.busy = true →
      (∀ off ∈ [0x010#32, 0x014#32, 0x028#32, 0x0A0#32, 0x0A4#32, 0x0A8#32, 0x0AC#32, 0x0B0#32, 0x0B4#32, 0x0B8#32,
          0x0BC#32, 0x0C0#32, 0x0C4#32, 0x0C8#32],
        hostAccess (.write .b32 off v) s =
          { s with status := { s.status with wDrop := true }, resp := some .okay }) ∧
        ∀ (size : Size) (a : Nat), a % sizeBytes size = 0 → a + sizeBytes size ≤ s.par.ibufSize →
          hostAccess (.write size (BitVec.ofNat 32 (0x80000000 + a)) v) s =
            { s with status := { s.status with wDrop := true }, resp := some .okay }) ∧
      hostAccess (.write .b32 0x004#32 v) s = { writeStatus v s with resp := some .okay } ∧
      hostAccess (.write .b32 0x008#32 v) s = { writeCtrl v s with resp := some .okay } ∧
      hostAccess (.write .b32 0x00C#32 v) s = { writeIrqEn v s with resp := some .okay }

/-- The map of R22: a 32-bit host read at a register's offset answers that register's word and changes nothing else; the map
gives no other offset a register; and the word of each register is the one its rule names (R23 to R49). The word of
STATUS is laid out by StatusLayout. -/
def Obligations.RegisterReads : Prop :=
  (∀ (s : State) (r : Reg),
      hostAccess (.read .b32 (BitVec.ofNat 32 (regOffset r))) s = { s with resp := some (.data (readReg s r)) }) ∧
    (∀ (off : Nat) (r : Reg), regAt off = some r ↔ off = regOffset r) ∧
    ∀ s : State,
      (readReg s .id = 0x42535531#32 ∧ readReg s .status = statusWord s.status ∧ readReg s .ctrl = 0#32 ∧
        (readReg s .irqEn).getLsbD 0 = s.irqEn.doneIe ∧ (readReg s .irqEn).getLsbD 1 = s.irqEn.errIe ∧
        (readReg s .irqEn).getLsbD 2 = s.irqEn.warnIe ∧ readReg s .cmd = s.lastCmd ∧ readReg s .addr = s.addr) ∧
      (readReg s .resLo = s.resLo ∧ readReg s .resHi = s.resHi ∧ (readReg s .errInfo0).extractLsb' 0 8 = s.errInfo0 ∧
        readReg s .errInfo1 = s.errInfo1 ∧ readReg s .bufLen = s.bufLen) ∧
      (s.par.wf → ((readReg s .caps).extractLsb' 0 5).toNat = s.par.ibufLog ∧
        ((readReg s .caps).extractLsb' 8 5).toNat = s.par.outLog ∧ (readReg s .caps).extractLsb' 16 8 = 32#8 ∧
        (readReg s .caps).extractLsb' 24 4 = 8#4) ∧
      (readReg s .msgPtr = s.msg.ptr ∧ readReg s .msgBase = s.msg.base ∧ readReg s .msgLen = s.msg.len ∧
        readReg s .msgDeclLo = s.msg.declLo ∧ readReg s .msgDeclHi = s.msg.declHi) ∧
      ((readReg s .s0Info).extractLsb' 0 8 = s.table.disc ∧ (readReg s .s0Info).extractLsb' 8 8 = s.table.edition ∧
        readReg s .endAddr = s.table.endAddr ∧
        ∀ n : Fin 9, (readReg s .sectPresent).getLsbD n.val = s.table.slots[n].present ∧
          readReg s (.sectAddr n) = s.table.slots[n].addr ∧ readReg s (.sectLen n) = s.table.slots[n].len) ∧
      (readReg s .npts = s.prm.npts ∧ (readReg s .width).extractLsb' 0 8 = s.prm.width ∧ readReg s .ref = s.prm.ref ∧
        readReg s .bsf = s.prm.bsf ∧ readReg s .dsf = s.prm.dsf ∧ (readReg s .drt).extractLsb' 0 16 = s.prm.drt ∧
        readReg s .dataAddr = s.prm.dataAddr ∧ readReg s .dataLen = s.prm.dataLen ∧
        (readReg s .bmpCtrl).getLsbD 0 = s.prm.bmpEn ∧ readReg s .bmpAddr = s.prm.bmpAddr ∧
        readReg s .bmpLen = s.prm.bmpLen) ∧
      readReg s .outCount = s.prog.outCount ∧ readReg s .unpIdx = s.prog.idx ∧ readReg s .unpCursor = s.prog.cursor ∧
        readReg s .unpCw = s.prog.cw

/-- R50: every word offset of the window that the map does not name reads 0 and ignores writes, with no W_DROP; the reserved
bits of the named registers read 0, and writes to them are ignored. -/
def Obligations.ReservedReadsZero : Prop :=
  (∀ (s : State) (off : Nat) (v : Word), off < 0x1000 → off % 4 = 0 → (∀ r, regOffset r ≠ off) →
      hostAccess (.read .b32 (BitVec.ofNat 32 off)) s = { s with resp := some (.data 0#32) } ∧
        hostAccess (.write .b32 (BitVec.ofNat 32 off) v) s = { s with resp := some .okay }) ∧
    ∀ (s : State) (v : Word),
      (readReg s .status).extractLsb' 7 1 = 0#1 ∧ (readReg s .status).extractLsb' 21 11 = 0#11 ∧
        (readReg s .irqEn).extractLsb' 3 29 = 0#29 ∧ (readReg s .errInfo0).extractLsb' 8 24 = 0#24 ∧
        (readReg s .caps).extractLsb' 5 3 = 0#3 ∧ (readReg s .caps).extractLsb' 13 3 = 0#3 ∧
        (readReg s .caps).extractLsb' 28 4 = 0#4 ∧ (readReg s .s0Info).extractLsb' 16 16 = 0#16 ∧
        (readReg s .sectPresent).extractLsb' 9 23 = 0#23 ∧ (readReg s .width).extractLsb' 8 24 = 0#24 ∧
        (readReg s .drt).extractLsb' 16 16 = 0#16 ∧ (readReg s .bmpCtrl).extractLsb' 1 31 = 0#31 ∧
        writeIrqEn v s = writeIrqEn (v &&& 0x7#32) s ∧ writeStatus v s = writeStatus (v &&& 0x1F0002#32) s ∧
        writeCtrl v s = writeCtrl (v &&& 0x3#32) s ∧
        storeReg .width v s = storeReg .width (v &&& 0xFF#32) s ∧
        storeReg .drt v s = storeReg .drt (v &&& 0xFFFF#32) s ∧
        storeReg .bmpCtrl v s = storeReg .bmpCtrl (v &&& 0x1#32) s

/-- The read-write registers (R27, R29, R40 to R47): with BUSY 0, a host write changes that register alone, and the register
then reads as the bits it holds of the value. A write to a read-only register is ignored in every state, while BUSY too,
with no W_DROP (R22, R23, R80). -/
def Obligations.RegisterWrites : Prop :=
  (∀ (s : State) (v : Word) (r : Reg),
      r ∈ [Reg.id, .resLo, .resHi, .errInfo0, .errInfo1, .caps, .msgPtr, .msgBase, .msgLen, .msgDeclLo, .msgDeclHi, .s0Info,
          .sectPresent, .endAddr, .outCount, .unpIdx, .unpCursor, .unpCw] ∨ (∃ n, r = .sectAddr n ∨ r = .sectLen n) →
      hostAccess (.write .b32 (BitVec.ofNat 32 (regOffset r)) v) s = { s with resp := some .okay }) ∧
    ∀ (s : State) (v : Word), s.status.busy = false →
      ∀ p ∈ [(Reg.irqEn, 0x7#32), (.addr, 0xFFFFFFFF#32), (.npts, 0xFFFFFFFF#32), (.width, 0xFF#32),
          (.ref, 0xFFFFFFFF#32), (.bsf, 0xFFFFFFFF#32), (.dsf, 0xFFFFFFFF#32), (.drt, 0xFFFF#32),
          (.dataAddr, 0xFFFFFFFF#32), (.dataLen, 0xFFFFFFFF#32), (.bmpCtrl, 0x1#32), (.bmpAddr, 0xFFFFFFFF#32),
          (.bmpLen, 0xFFFFFFFF#32)],
        let t := hostAccess (.write .b32 (BitVec.ofNat 32 (regOffset p.1)) v) s
        readReg t p.1 = v &&& p.2 ∧ (∀ r, r ≠ p.1 → readReg t r = readReg s r) ∧
          t.estate = s.estate ∧ t.ibuf = s.ibuf ∧ t.obuf = s.obuf ∧ t.resp = some .okay

/-- R32: a host write of `v` to BUF_LEN stores `min(v, IBUF_SIZE)`; BUF_LEN is 0 at reset. -/
def Obligations.BufLenStoresMin : Prop :=
  State.reset.bufLen = 0#32 ∧
    ∀ (s : State) (v : Word), s.par.wf → s.status.busy = false →
      let t := hostAccess (.write .b32 0x028#32 v) s
      t.bufLen.toNat = min v.toNat s.par.ibufSize ∧ t = { s with bufLen := t.bufLen, resp := some .okay }

/-- R73: a legal host write to IBUF stores the bytes of the value in little-endian lanes and leaves every other byte alone, and a
legal read returns the little-endian value; a legal write while BUSY is dropped; an access that is misaligned or
passes IBUF_SIZE gets a bus error and changes nothing. That such a write gets the bus error and no W_DROP while BUSY too,
where R80 says every IBUF write is dropped, is the model's choice (log entry 10). -/
def Obligations.IbufAccess : Prop :=
  ∀ (s : State) (size : Size) (a : Nat) (v : Word), s.par.wf → a < s.par.ibufSize →
    let n := sizeBytes size
    let off := BitVec.ofNat 32 (0x80000000 + a)
    (a % n = 0 → a + n ≤ s.par.ibufSize →
      (s.status.busy = false →
        let t := hostAccess (.write size off v) s
        (∀ k, k < n → Cells.read t.ibuf (a + k) = some (v.extractLsb' (8 * k) 8)) ∧
          (∀ c, ¬ (a ≤ c ∧ c < a + n) → Cells.read t.ibuf c = Cells.read s.ibuf c) ∧
          t = { s with ibuf := t.ibuf, resp := some .okay }) ∧
        (s.status.busy = true →
          hostAccess (.write size off v) s =
            { s with status := { s.status with wDrop := true }, resp := some .okay }) ∧
        ∀ f : Nat → Byte, (∀ k, k < n → Cells.read s.ibuf (a + k) = some (f k)) →
          hostAccess (.read size off) s =
            { s with resp := some (.data (BitVec.ofNat 32 (∑ k ∈ Finset.range n, (f k).toNat * 256 ^ k))) }) ∧
      (¬ (a % n = 0 ∧ a + n ≤ s.par.ibufSize) →
        hostAccess (.write size off v) s = { s with resp := some .busError } ∧
          hostAccess (.read size off) s = { s with resp := some .busError })

/-- R76 to R78: a 32-bit host read of a written OBUF entry returns its four words, one of an unwritten entry returns some word and
changes nothing else, and an aligned 32-bit write to any entry is ignored with no W_DROP. -/
def Obligations.ObufAccess : Prop :=
  ∀ (s : State) (i : Nat) (v : Word), s.par.wf → i < s.par.outMax →
    (∀ w ∈ [0, 4, 8, 12],
      hostAccess (.write .b32 (BitVec.ofNat 32 (0x00100000 + 16 * i + w)) v) s = { s with resp := some .okay } ∧
        ∃ x, hostAccess (.read .b32 (BitVec.ofNat 32 (0x00100000 + 16 * i + w))) s = { s with resp := some (.data x) }) ∧
      ∀ o, Cells.read s.obuf i = some o →
        ∀ p ∈ [(0, o.value.extractLsb' 0 32), (4, o.value.extractLsb' 32 32), (8, BitVec.ofNat 32 o.present.toNat),
            (12, o.raw)],
          hostAccess (.read .b32 (BitVec.ofNat 32 (0x00100000 + 16 * i + p.1))) s = { s with resp := some (.data p.2) }

/-- Accesses that get a bus error and change nothing (R70, R78, R79, R85): any access to a reserved range, a register access that
is not an aligned 32-bit one, an OBUF read that is not an aligned 32-bit one. -/
def Obligations.BusErrors : Prop :=
  ∀ (s : State) (size : Size) (off v : Word), s.par.wf →
    (((0x1000 ≤ off.toNat ∧ off.toNat < 0x00100000) ∨
          (0x00100000 + 16 * s.par.outMax ≤ off.toNat ∧ off.toNat < 0x80000000) ∨
          0x80000000 + s.par.ibufSize ≤ off.toNat ∨
          (off.toNat < 0x1000 ∧ ¬ (size = .b32 ∧ off.toNat % 4 = 0))) →
        hostAccess (.write size off v) s = { s with resp := some .busError } ∧
          hostAccess (.read size off) s = { s with resp := some .busError }) ∧
      (0x00100000 ≤ off.toNat ∧ off.toNat < 0x00100000 + 16 * s.par.outMax ∧ ¬ (size = .b32 ∧ off.toNat % 4 = 0) →
        hostAccess (.read size off) s = { s with resp := some .busError })

/-! ### Reset and the register actions (43_system.md, 70_reset_and_hazards.md) -/

/-- R231: a host write of CTRL with bit 0 = 1, in any state and whatever bit 1 is, stops the engine and gives every register its
reset value; IBUF and OBUF keep their contents, and IRQ is 0. -/
def Obligations.SoftResetRule : Prop :=
  ∀ (s : State) (v : Word), v.getLsbD 0 = true →
    let t := hostAccess (.write .b32 0x008#32 v) s
    t.estate = .idle ∧ (∀ r, readReg t r = resetWord s.par r) ∧ t.ibuf = s.ibuf ∧ t.obuf = s.obuf ∧ irq t = false ∧
      t.par = s.par ∧ t.resets = s.resets ∧ t.moves = s.moves ∧ t.resp = some .okay

/-- R232: a host write of CTRL with bit 1 = 1 and bit 0 = 0, in any state, clears ERR, ERRCODE, ERR_INFO0 and ERR_INFO1 if ERR is
1, and changes nothing else. -/
def Obligations.ErrorClearRule : Prop :=
  ∀ (s : State) (v : Word), v.getLsbD 0 = false → v.getLsbD 1 = true →
    hostAccess (.write .b32 0x008#32 v) s =
      if s.status.err then
        { s with
          status := { s.status with err := false, errcode := 0#8 }, errInfo0 := 0#8, errInfo1 := 0#32
          resp := some .okay }
      else { s with resp := some .okay }

/-- R290: RESET stops the engine, gives every register its reset value, and leaves every byte of IBUF and every entry of OBUF
unwritten; IRQ is 0. -/
def Obligations.HardResetRule : Prop :=
  ∀ (s : State) (rest : List Move), s.moves = .reset :: rest →
    ∃ t, step s = .next t ∧ t.estate = .idle ∧ (∀ r, readReg t r = resetWord s.par r) ∧
      (∀ a, Cells.read t.ibuf a = none) ∧ (∀ i, Cells.read t.obuf i = none) ∧ irq t = false ∧
      t.par = s.par ∧ t.moves = rest

/-- The state after RESET (R292): every register at its listed value, CAPS that of the default parameters (log entry 20), the
engine idle, IRQ 0, both buffers unwritten. -/
def Obligations.ResetState : Prop :=
  (∀ r, readReg State.reset r = match r with
    | .id => 0x42535531#32
    | .caps => 0x08201418#32
    | _ => 0#32) ∧
    State.reset.estate = .idle ∧ irq State.reset = false ∧
    (∀ a, Cells.read State.reset.ibuf a = none) ∧ ∀ i, Cells.read State.reset.obuf i = none

/-! ### Whole-machine rules -/

/-- The invariant holds after RESET (R292). -/
def Obligations.InvAtReset : Prop := BlockInv State.reset

/-- Every step keeps the invariant: buffers in canonical form and inside the block, BUSY exactly while the engine runs (R55), the
fault registers (R254, R255), the framer's four states and its table (R140, R144, R147, R154), UNPACK's progress and
result (R184, R190). -/
def Obligations.InvKept : Prop := ∀ s t : State, BlockInv s → step s = .next t → BlockInv t

/-- R74: no engine read ever touches a byte at or past BUF_LEN. A step that does not go on has stopped on a byte below BUF_LEN
that nothing has written (the model's stop of log entry 4; the stop of log entry 14 never happens). -/
def Obligations.EngineReadsBelowBufLen : Prop :=
  ∀ s : State, BlockInv s →
    (∃ t, step s = .next t) ∨
      ∃ a, a < s.bufLen.toNat ∧ Cells.read s.ibuf a = none ∧ step s = .fault (.ibufUnwritten a)

/-- With the valid buffer written, as R295 asks of a correct host, no step of the model stops: every command runs, whatever the
bytes and the parameters are. (The stops are the model's, log entries 4 and 14.) -/
def Obligations.WrittenBufferRuns : Prop := ∀ s : State, BlockInv s → Written s → ∃ t, step s = .next t

/-- What no engine step changes (R29, R30, R75, R77, R262): the build's parameters, ADDR, BUF_LEN, IRQ_EN, LAST_CMD, every byte of IBUF
and the model's own fields; OBUF changes at the running UNPACK's point only; RES changes only by a codec command; the message
registers, MSG_END and MSG_VALID change only by MSGINIT and MSGNEXT (R34, R35); no warning bit is cleared; and W_DROP is
not written. -/
def Obligations.EngineStepFrame : Prop :=
  ∀ s t : State, engineStep s = .next t →
    (t.par = s.par ∧ t.addr = s.addr ∧ t.bufLen = s.bufLen ∧ t.irqEn = s.irqEn ∧ t.lastCmd = s.lastCmd ∧
      t.resets = s.resets ∧ t.moves = s.moves ∧ t.resp = s.resp) ∧
      (∀ a, Cells.read t.ibuf a = Cells.read s.ibuf a) ∧
      (∀ j, (∀ i c k, s.estate = .unp i c k → j ≠ i) → Cells.read t.obuf j = Cells.read s.obuf j) ∧
      ((∀ w, s.estate = .start w → ∀ n, decode w ≠ .ok (.uint n) ∧ decode w ≠ .ok (.smint n) ∧ decode w ≠ .ok .f32) →
        t.resLo = s.resLo ∧ t.resHi = s.resHi) ∧
      ((∀ w, s.estate = .start w → decode w ≠ .ok .msginit ∧ decode w ≠ .ok .msgnext) →
        t.msg = s.msg ∧ t.status.msgEnd = s.status.msgEnd ∧ t.status.msgValid = s.status.msgValid) ∧
      ((s.status.wTrunc = true → t.status.wTrunc = true) ∧ (s.status.wSectnum = true → t.status.wSectnum = true) ∧
        (s.status.wDup = true → t.status.wDup = true) ∧ (s.status.wNonfinite = true → t.status.wNonfinite = true) ∧
        t.status.wDrop = s.status.wDrop)

/-- R259: no step both sets a warning and raises a fault, so a step that raises ERR leaves the warnings of earlier steps set and
adds none. -/
def Obligations.NoWarningWithFault : Prop :=
  ∀ s t : State, engineStep s = .next t → s.status.err = false → t.status.err = true →
    t.status.wTrunc = s.status.wTrunc ∧ t.status.wSectnum = s.status.wSectnum ∧ t.status.wDup = s.status.wDup ∧
      t.status.wNonfinite = s.status.wNonfinite ∧ t.status.wDrop = s.status.wDrop

/-- R256: a fault is left only by an error clear, a soft reset or RESET. Any other step from a state with ERR = 1 keeps ERR, the
code and the information, and a command written meanwhile is dropped. -/
def Obligations.FaultIsSticky : Prop :=
  ∀ s t : State, BlockInv s → s.status.err = true → step s = .next t →
    (t.status.err = true ∧ t.status.errcode = s.status.errcode ∧ t.errInfo0 = s.errInfo0 ∧ t.errInfo1 = s.errInfo1 ∧
        t.lastCmd = s.lastCmd ∧ t.estate = .idle) ∨
      (∃ v rest, s.moves = .host (.write .b32 0x008#32 v) :: rest ∧
        (v.getLsbD 0 = true ∨ v.getLsbD 1 = true)) ∨
      ∃ rest, s.moves = .reset :: rest

/-! ### The scalar codec and NOP (40_codec.md, 43_system.md) -/

/-- R120: a codec command whose span passes BUF_LEN raises E_RANGE(ADDR), and writes neither RES_LO nor RES_HI nor anything else. -/
def Obligations.CodecSpanFault : Prop :=
  ∀ (s : State) (n : BitVec 4),
    ∀ p ∈ [(Instr.uint n, 0x01#8, n.toNat), (.smint n, 0x02#8, n.toNat), (.f32, 0x03#8, 4)],
      s.bufLen.toNat < s.addr.toNat + p.2.2 → exec p.1 s = .next (faulted p.2.1 0x02#8 s.addr s)

/-- The model's stop of log entry 4 (R72, R295): a codec command whose span lies below BUF_LEN and holds a byte that nothing has
written since RESET stops. That the fault names the lowest such byte is the model's choice of read order (log entry
19): R84 lets the engine read the bytes of a step in any order. -/
def Obligations.UnwrittenReadStops : Prop :=
  ∀ (s : State) (n : BitVec 4) (a : Nat),
    ∀ p ∈ [(Instr.uint n, n.toNat), (.smint n, n.toNat), (.f32, 4)],
      s.addr.toNat + p.2 ≤ s.bufLen.toNat → s.addr.toNat ≤ a → a < s.addr.toNat + p.2 →
      Cells.read s.ibuf a = none → (∀ c, s.addr.toNat ≤ c → c < a → (Cells.read s.ibuf c).isSome = true) →
      exec p.1 s = .fault (.ibufUnwritten a)

/-- R122: for a span of bytes b0 .. b(n-1), n from 1 to 8, UINT completes and RES is exactly the sum of bk * 256^(n-1-k), below
2^(8n); nothing but RES, DONE, BUSY and ESTATE changes. -/
def Obligations.UintResult : Prop :=
  ∀ (s : State) (n : BitVec 4) (b : Nat → Byte), (Instr.uint n).wf = true → Holds s s.addr.toNat n.toNat b →
    ∃ t, exec (.uint n) s = .next t ∧
      (t.resHi ++ t.resLo).toNat = ∑ k ∈ Finset.range n.toNat, (b k).toNat * 256 ^ (n.toNat - 1 - k) ∧
      (t.resHi ++ t.resLo).toNat < 2 ^ (8 * n.toNat) ∧
      t = { s with
        resHi := t.resHi, resLo := t.resLo, status := { s.status with busy := false, done := true }, estate := .idle }

/-- R124: for a span of bytes b0 .. b(n-1), SMINT completes and RES, read as two's complement, is the magnitude
(b0 mod 128) * 256^(n-1) + the sum of bk * 256^(n-1-k) over k from 1, negated exactly when b0 >= 128; its absolute
value is below 2^(8n-1); nothing but RES, DONE, BUSY and ESTATE changes. -/
def Obligations.SmintResult : Prop :=
  ∀ (s : State) (n : BitVec 4) (b : Nat → Byte), (Instr.smint n).wf = true → Holds s s.addr.toNat n.toNat b →
    let m : Nat := ((b 0).toNat % 128) * 256 ^ (n.toNat - 1) +
      ∑ k ∈ Finset.Ico 1 n.toNat, (b k).toNat * 256 ^ (n.toNat - 1 - k)
    ∃ t, exec (.smint n) s = .next t ∧
      (t.resHi ++ t.resLo).toInt = (if (b 0).toNat < 128 then (m : Int) else -(m : Int)) ∧
      m < 2 ^ (8 * n.toNat - 1) ∧
      t = { s with
        resHi := t.resHi, resLo := t.resLo, status := { s.status with busy := false, done := true }, estate := .idle }

/-- R125: F32 completes with the four bytes at ADDR unchanged in RES_LO, the first byte highest, and RES_HI 0. -/
def Obligations.F32Result : Prop :=
  ∀ (s : State) (b : Nat → Byte), Holds s s.addr.toNat 4 b →
    exec .f32 s = .next
      { s with
        resHi := 0#32, resLo := b 0 ++ b 1 ++ b 2 ++ b 3, status := { s.status with busy := false, done := true }
        estate := .idle }

/-- R230: NOP completes and does nothing else. -/
def Obligations.NopCompletes : Prop :=
  ∀ s : State,
    exec .nop s = .next { s with status := { s.status with busy := false, done := true }, estate := .idle }

/-! ### The message framer (41_framer.md) -/

/-- R146: the message-start reset clears the section table, the parameter file, OUT_COUNT, the progress registers, SECT_VALID and
OUT_VALID, and touches nothing else; MSGINIT and MSGNEXT perform it whenever they complete. -/
def Obligations.MessageStartReset : Prop :=
  (∀ s : State,
      let t := messageStartReset s
      (∀ n, readReg t (.sectAddr n) = 0#32 ∧ readReg t (.sectLen n) = 0#32) ∧
        (∀ r ∈ [Reg.sectPresent, .endAddr, .s0Info, .npts, .width, .ref, .bsf, .dsf, .drt, .dataAddr, .dataLen, .bmpCtrl,
          .bmpAddr, .bmpLen, .outCount, .unpIdx, .unpCursor, .unpCw], readReg t r = 0#32) ∧
        t.status = { s.status with sectValid := false, outValid := false } ∧
        t = { s with table := t.table, prm := t.prm, prog := t.prog, status := t.status }) ∧
    ∀ (s t : State) (i : Instr), i = .msginit ∨ i = .msgnext → s.status.err = false → exec i s = .next t →
      t.status.err = false →
      t.table = (messageStartReset s).table ∧ t.prm = (messageStartReset s).prm ∧ t.prog = (messageStartReset s).prog ∧
        t.status.sectValid = false ∧ t.status.outValid = false

/-- MSGINIT (R141): E_UNDERSIZED(BUF_LEN) below 10 bytes with no other effect, else the message registers, MSG_END and MSG_VALID
are cleared, the message-start reset is made and the command completes. -/
def Obligations.MsginitRule : Prop :=
  ∀ s : State,
    (s.bufLen.toNat < 10 → exec .msginit s = .next (faulted 0x10#8 0x03#8 s.bufLen s)) ∧
      (10 ≤ s.bufLen.toNat →
        exec .msginit s = .next
          { s with
            msg := { ptr := 0#32, base := 0#32, len := 0#32, declLo := 0#32, declHi := 0#32 }
            table := SectTable.empty
            prm := ParamFile.zero
            prog := ProgressRegs.zero
            status :=
              { s.status with
                msgEnd := false, msgValid := false, sectValid := false, outValid := false, busy := false, done := true }
            estate := .idle })

/-- MSGNEXT at the end of the buffer (R143): it completes with MSG_END 1 and MSG_VALID 0 and the message-start reset; MSG_PTR,
MSG_BASE, MSG_LEN and MSG_DECL are kept. -/
def Obligations.MsgnextEnd : Prop :=
  ∀ s : State, s.status.msgEnd = true ∨ s.bufLen.toNat ≤ s.msg.ptr.toNat →
    exec .msgnext s = .next
      { s with
        table := SectTable.empty
        prm := ParamFile.zero
        prog := ProgressRegs.zero
        status :=
          { s.status with
            msgEnd := true, msgValid := false, sectValid := false, outValid := false, busy := false, done := true }
        estate := .idle }

/-- MSGNEXT before the end of the buffer (R143): E_MSG_SHORT(MSG_PTR) with fewer than 16 bytes left, E_MSG_LEN(MSG_PTR) for a
declared length L below 16, each with no other effect; else the message of min(L, bytes left) bytes at MSG_PTR is
selected, W_TRUNC is set when L is greater than the bytes left, and the message-start reset is made. -/
def Obligations.MsgnextSelects : Prop :=
  ∀ s : State, s.par.wf → s.bufLen.toNat ≤ s.par.ibufSize → s.status.msgEnd = false →
    s.msg.ptr.toNat < s.bufLen.toNat →
    let avail := s.bufLen.toNat - s.msg.ptr.toNat
    (avail < 16 → exec .msgnext s = .next (faulted 0x11#8 0x04#8 s.msg.ptr s)) ∧
      (16 ≤ avail → ∀ b : Nat → Byte, Holds s (s.msg.ptr.toNat + s.par.s0TlenOff) s.par.s0TlenBytes b →
        let L := ∑ k ∈ Finset.range s.par.s0TlenBytes, (b k).toNat * 256 ^ (s.par.s0TlenBytes - 1 - k)
        (L < 16 → exec .msgnext s = .next (faulted 0x11#8 0x05#8 s.msg.ptr s)) ∧
          (16 ≤ L →
            ∃ t, exec .msgnext s = .next t ∧ t.msg.base = s.msg.ptr ∧ t.msg.len.toNat = min L avail ∧
              (t.msg.declHi ++ t.msg.declLo).toNat = L ∧ t.msg.ptr.toNat = s.msg.ptr.toNat + min L avail ∧
              t = { s with
                msg := t.msg
                table := SectTable.empty
                prm := ParamFile.zero
                prog := ProgressRegs.zero
                status :=
                  { s.status with
                    msgValid := true, sectValid := false, outValid := false, busy := false, done := true
                    wTrunc := s.status.wTrunc || decide (avail < L) }
                estate := .idle }))

/-- The message-sequence law (R144). MSGNEXT number `j` of a sequence that starts at offset 0 runs in state `x j` and leaves `y j`;
between two of them anything may happen that keeps MSG_PTR, BUF_LEN, MSG_END and the parameters, such as the acceptance
of words, codec commands, SECTSPLIT and UNPACK (EngineStepFrame). If each yields a message, the messages are adjacent
spans of at least 16 bytes inside the valid buffer, the first at 0, and there are at most BUF_LEN / 16 of them. -/
def Obligations.MessageSequence : Prop :=
  ∀ (n : Nat) (x y : Nat → State), (x 0).par.wf → (x 0).bufLen.toNat ≤ (x 0).par.ibufSize → (x 0).msg.ptr = 0#32 →
    (x 0).status.msgEnd = false →
    (∀ j, j < n → exec .msgnext (x j) = .next (y j) ∧ (y j).status.err = false ∧ (y j).status.msgEnd = false) →
    (∀ j, j + 1 < n → (x (j + 1)).msg.ptr = (y j).msg.ptr ∧ (x (j + 1)).bufLen = (y j).bufLen ∧
      (x (j + 1)).status.msgEnd = (y j).status.msgEnd ∧ (x (j + 1)).par = (y j).par) →
    n ≤ (x 0).bufLen.toNat / 16 ∧ (0 < n → (y 0).msg.base = 0#32) ∧
      ∀ j, j < n →
        (y j).status.msgValid = true ∧ 16 ≤ (y j).msg.len.toNat ∧
          (y j).msg.base.toNat + (y j).msg.len.toNat ≤ (x 0).bufLen.toNat ∧
          (j + 1 < n → (y (j + 1)).msg.base.toNat = (y j).msg.base.toNat + (y j).msg.len.toNat)

/-! ### The section framer (41_framer.md) -/

/-- R149: SECTSPLIT's start step. E_NOMSG(0) without a message, then E_SECT_RANGE(MSG_BASE) for a span past BUF_LEN, both with no
other effect; then the table is cleared, and E_MAGIC(MSG_BASE) keeps the clears; with the magic in place, section 0 is
recorded as the first 16 bytes, its discipline and edition are latched, and ESTATE is SECT(MSG_BASE + 16, end). -/
def Obligations.SectsplitStart : Prop :=
  ∀ s : State,
    let b := s.msg.base.toNat
    let e := b + s.msg.len.toNat
    (s.status.msgValid = false → exec .sectsplit s = .next (faulted 0x12#8 0x06#8 0#32 s)) ∧
      (s.status.msgValid = true → s.bufLen.toNat < e →
        exec .sectsplit s = .next (faulted 0x12#8 0x0A#8 s.msg.base s)) ∧
      (s.status.msgValid = true → e ≤ s.bufLen.toNat → ∀ m : Nat → Byte, Holds s b 4 m →
        ([m 0, m 1, m 2, m 3] ≠ [0x47#8, 0x52#8, 0x49#8, 0x42#8] →
          exec .sectsplit s = .next (faulted 0x12#8 0x07#8 s.msg.base
            { s with table := SectTable.empty, status := { s.status with sectValid := false } })) ∧
          ([m 0, m 1, m 2, m 3] = [0x47#8, 0x52#8, 0x49#8, 0x42#8] →
            ∀ d g : Nat → Byte, Holds s (b + s.par.s0DiscOff) 1 d → Holds s (b + s.par.s0EdOff) 1 g →
              ∃ t, exec .sectsplit s = .next t ∧ t.estate = .sect (b + 16) e ∧
                readReg t (.sectAddr 0) = s.msg.base ∧ readReg t (.sectLen 0) = 16#32 ∧
                readReg t .sectPresent = 0x001#32 ∧ (∀ n : Fin 9, n ≠ 0 → t.table.slots[n] = Slot.absent) ∧
                readReg t .s0Info = 0#16 ++ g 0 ++ d 0 ∧ readReg t .endAddr = 0#32 ∧
                t = { s with
                  table := t.table, status := { s.status with sectValid := false }, estate := .sect (b + 16) e }))

/-- R151: a header step that finds "7777" with at least 4 bytes left completes SECTSPLIT with END_ADDR at the marker and SECT_VALID
set, and records no section. -/
def Obligations.HeaderStepEnds : Prop :=
  ∀ (s : State) (ptr stop : Nat), s.estate = .sect ptr stop → 4 ≤ stop - ptr → Holds s ptr 4 (fun _ => 0x37#8) →
    engineStep s = .next
      { s with
        table := { s.table with endAddr := BitVec.ofNat 32 ptr }
        status := { s.status with sectValid := true, busy := false, done := true }
        estate := .idle }

/-- R152: a header step that finds no marker. E_NO_END with fewer than 5 bytes left, E_SECT_LEN for a length below 5,
E_SECT_RANGE for a length past the message end, each with no other effect; else a section of number 1 to 8 takes its
slot, with W_DUP when the slot held one, any other number sets W_SECTNUM and is skipped, and ESTATE moves on by the
length. -/
def Obligations.HeaderStepRecords : Prop :=
  ∀ (s : State) (ptr stop : Nat) (h : Nat → Byte), s.estate = .sect ptr stop →
    (4 ≤ stop - ptr → Holds s ptr 4 h ∧ [h 0, h 1, h 2, h 3] ≠ [0x37#8, 0x37#8, 0x37#8, 0x37#8]) →
    (stop - ptr < 5 → engineStep s = .next (faulted 0x12#8 0x08#8 (BitVec.ofNat 32 ptr) s)) ∧
      (5 ≤ stop - ptr → Holds s ptr 5 h →
        let len := ∑ k ∈ Finset.range 4, (h k).toNat * 256 ^ (3 - k)
        let num := (h 4).toNat
        (len < 5 → engineStep s = .next (faulted 0x12#8 0x09#8 (BitVec.ofNat 32 ptr) s)) ∧
          (5 ≤ len → stop - ptr < len → engineStep s = .next (faulted 0x12#8 0x0A#8 (BitVec.ofNat 32 ptr) s)) ∧
          (5 ≤ len → len ≤ stop - ptr →
            ∃ t, engineStep s = .next t ∧ t.estate = .sect (ptr + len) stop ∧
              (∀ n : Fin 9, t.table.slots[n] =
                if n.val = num ∧ n ≠ 0 then { present := true, addr := BitVec.ofNat 32 ptr, len := BitVec.ofNat 32 len }
                else s.table.slots[n]) ∧
              t.status =
                { s.status with
                  wSectnum := s.status.wSectnum || decide (num = 0 ∨ 9 ≤ num)
                  wDup := s.status.wDup || decide (∃ n : Fin 9, n ≠ 0 ∧ n.val = num ∧ s.table.slots[n].present = true) } ∧
              t = { s with
                table := { s.table with slots := t.table.slots }, status := t.status, estate := .sect (ptr + len) stop }))

/-- R154 and R298: an accepted SECTSPLIT is idle again, finished or faulted, within floor((MSG_LEN - 16) / 5) + 2 engine steps,
unless the model stops on an unwritten byte of IBUF (log entry 4). -/
def Obligations.SectsplitBounded : Prop :=
  ∀ s : State, BlockInv s → s.estate = .start (encode .sectsplit) →
    (∃ t, engineRun ((s.msg.len.toNat - 16) / 5 + 2) s = .next t ∧ t.estate = .idle) ∨
      ∃ a, engineRun ((s.msg.len.toNat - 16) / 5 + 2) s = .fault (.ibufUnwritten a)

/-- R154: a SECTSPLIT that has completed leaves a table whose slot 0 is the first 16 bytes of the message, whose other sections lie
between it and the marker and do not begin with "7777", and an END_ADDR where "7777" stands inside the message. -/
def Obligations.SectsplitTableSound : Prop :=
  ∀ (s t : State) (k : Nat), BlockInv s → s.estate = .start (encode .sectsplit) → engineRun k s = .next t →
    t.estate = .idle → t.status.err = false →
    t.status.sectValid = true ∧ t.status.done = true ∧
      readReg t (.sectLen 0) = 16#32 ∧ readReg t (.sectAddr 0) = s.msg.base ∧
      s.msg.base.toNat + 16 ≤ t.table.endAddr.toNat ∧
      t.table.endAddr.toNat + 4 ≤ s.msg.base.toNat + s.msg.len.toNat ∧
      memRead t t.table.endAddr.toNat 4 = .ok endMark ∧
      ∀ n : Fin 9, n ≠ 0 → t.table.slots[n].present = true →
        s.msg.base.toNat + 16 ≤ t.table.slots[n].addr.toNat ∧
          t.table.slots[n].addr.toNat + t.table.slots[n].len.toNat ≤ t.table.endAddr.toNat ∧
          ∃ m, memRead t t.table.slots[n].addr.toNat 4 = .ok m ∧ m ≠ endMark

/-- The whole of SECTSPLIT's header steps on a well-formed chain of sections (R150 to R152, R155): after one step per section and one
for the marker the command is complete, END_ADDR is the marker, and each slot 1 to 8 holds the chain's last section of
that number or what it held before. -/
def Obligations.SectsplitFramesChain : Prop :=
  ∀ (s : State) (ptr stop last : Nat) (secs : List (Nat × Nat)), Chain s stop ptr secs last →
    s.estate = .sect ptr stop →
    ∃ t, engineRun (secs.length + 1) s = .next t ∧ t.estate = .idle ∧
      t.status.done = true ∧ t.status.sectValid = true ∧ t.status.err = s.status.err ∧
      t.table.endAddr = BitVec.ofNat 32 last ∧ t.table.slots[(0 : Fin 9)] = s.table.slots[(0 : Fin 9)] ∧
      (∀ n : Fin 9, n ≠ 0 → t.table.slots[n] =
        match lastOf n.val ptr secs with
        | some r => { present := true, addr := BitVec.ofNat 32 r.1, len := BitVec.ofNat 32 r.2 }
        | none => s.table.slots[n]) ∧
      (t.status.wSectnum = true ↔ s.status.wSectnum = true ∨ ∃ p ∈ secs, p.2 = 0 ∨ 9 ≤ p.2)

/-! ### The unpacker (42_unpacker.md) -/

/-- R183: UNPACK's start step. OUT_VALID and OUT_COUNT are cleared first and stay so if a check faults; the checks are
E_TEMPLATE, E_WIDTH, E_NPTS, E_RANGE of the data and E_RANGE of an enabled bitmap, in that order; then the progress
registers are cleared, and the command completes for N = 0, or ESTATE is UNP(0, 0, 0). -/
def Obligations.UnpackStart : Prop :=
  ∀ s : State,
    let s1 := { s with
      status := { s.status with outValid := false }, prog := { s.prog with outCount := 0#32 } }
    let p := s.prm
    exec .unpack s =
      if p.drt ≠ 0#16 then .next (faulted 0x20#8 0x0B#8 (p.drt.setWidth 32) s1)
      else if 32 < p.width.toNat then .next (faulted 0x20#8 0x0C#8 (p.width.setWidth 32) s1)
      else if s.par.outMax < p.npts.toNat then .next (faulted 0x20#8 0x0D#8 p.npts s1)
      else if s.bufLen.toNat < p.dataAddr.toNat + p.dataLen.toNat then .next (faulted 0x20#8 0x02#8 p.dataAddr s1)
      else if p.bmpEn = true ∧ s.bufLen.toNat < p.bmpAddr.toNat + p.bmpLen.toNat then
        .next (faulted 0x20#8 0x02#8 p.bmpAddr s1)
      else if p.npts = 0#32 then
        .next { s with
          status := { s.status with outValid := true, busy := false, done := true }
          prog := { outCount := 0#32, idx := 0#32, cursor := 0#32, cw := 0#32 }
          estate := .idle }
      else
        .next { s with
          status := { s.status with outValid := false }
          prog := { outCount := 0#32, idx := 0#32, cursor := 0#32, cw := 0#32 }
          estate := .unp 0 0 0 }

/-- R187: a masked point, whose bitmap bit is bit 7 - (i mod 8) of byte i / 8 (R189), writes a null entry and does not move the
cursor or the codeword count; the point after the last completes UNPACK (R184). -/
def Obligations.MaskedPoint : Prop :=
  ∀ (s : State) (i c k : Nat) (x : Byte), s.estate = .unp i c k → s.prm.bmpEn = true →
    i < 8 * s.prm.bmpLen.toNat → Holds s (s.prm.bmpAddr.toNat + i / 8) 1 (fun _ => x) →
    x.getLsbD (7 - i % 8) = false →
    ∃ t, engineStep s = .next t ∧
      Cells.read t.obuf i = some { present := false, value := 0#64, raw := 0#32 } ∧
      (∀ j, j ≠ i → Cells.read t.obuf j = Cells.read s.obuf j) ∧
      t.prog.idx = BitVec.ofNat 32 (i + 1) ∧ t.prog.cursor = BitVec.ofNat 32 c ∧ t.prog.cw = BitVec.ofNat 32 k ∧
      (if i + 1 = s.prm.npts.toNat then
        t = { s with
          obuf := t.obuf, prog := { t.prog with outCount := s.prm.npts }
          status := { s.status with outValid := true, busy := false, done := true }, estate := .idle }
      else
        t = { s with
          obuf := t.obuf, prog := { t.prog with outCount := s.prog.outCount }, estate := .unp (i + 1) c k })

/-- R186 and R188 for a present point: it reads the W bits at the cursor, most significant first (R185), writes the codeword and
its scaled value, sets W_NONFINITE for an infinity or a NaN (R199), and moves the cursor by W and the count by 1. -/
def Obligations.PresentPoint : Prop :=
  ∀ (s : State) (i c k : Nat) (bit : Nat → Bool), s.estate = .unp i c k →
    (s.prm.bmpEn = true → i < 8 * s.prm.bmpLen.toNat ∧ bitAt s s.prm.bmpAddr.toNat i = .ok true) →
    c + s.prm.width.toNat ≤ 8 * s.prm.dataLen.toNat →
    (∀ j, j < s.prm.width.toNat → bitAt s s.prm.dataAddr.toNat (c + j) = .ok (bit j)) →
    let W := s.prm.width.toNat
    let raw := ∑ j ∈ Finset.range W, (bit j).toNat * 2 ^ (W - 1 - j)
    let v := scale s.par s.prm.ref s.prm.bsf.toInt s.prm.dsf.toInt raw
    ∃ t, engineStep s = .next t ∧
      Cells.read t.obuf i = some { present := true, value := v, raw := BitVec.ofNat 32 raw } ∧
      (∀ j, j ≠ i → Cells.read t.obuf j = Cells.read s.obuf j) ∧
      t.status.wNonfinite = (s.status.wNonfinite || decide (unpack64 v = .nan ∨ ∃ g, unpack64 v = .inf g)) ∧
      t.prog.idx = BitVec.ofNat 32 (i + 1) ∧ t.prog.cursor = BitVec.ofNat 32 (c + W) ∧
      t.prog.cw = BitVec.ofNat 32 (k + 1) ∧
      (if i + 1 = s.prm.npts.toNat then
        t = { s with
          obuf := t.obuf, prog := { t.prog with outCount := s.prm.npts }
          status :=
            { s.status with outValid := true, busy := false, done := true, wNonfinite := t.status.wNonfinite }
          estate := .idle }
      else
        t = { s with
          obuf := t.obuf, prog := { t.prog with outCount := s.prog.outCount }
          status := { s.status with wNonfinite := t.status.wNonfinite }, estate := .unp (i + 1) (c + W) (k + 1) })

/-- The faults of a point step (R186, R206): E_BMP_RANGE(i) past an enabled bitmap, then E_DATA_RANGE(i) for a present point whose
codeword passes the data span. OBUF, the progress registers and OUT_COUNT are left as they were. -/
def Obligations.PointFaults : Prop :=
  ∀ (s : State) (i c k : Nat), s.estate = .unp i c k →
    (s.prm.bmpEn = true → 8 * s.prm.bmpLen.toNat ≤ i →
        engineStep s = .next (faulted 0x20#8 0x0E#8 (BitVec.ofNat 32 i) s)) ∧
      ((s.prm.bmpEn = true → i < 8 * s.prm.bmpLen.toNat ∧ bitAt s s.prm.bmpAddr.toNat i = .ok true) →
        8 * s.prm.dataLen.toNat < c + s.prm.width.toNat →
        engineStep s = .next (faulted 0x20#8 0x0F#8 (BitVec.ofNat 32 i) s))

/-- R298: an accepted UNPACK is idle again within N + 1 engine steps, unless the model stops on an unwritten byte of IBUF (log
entry 4). -/
def Obligations.UnpackBounded : Prop :=
  ∀ s : State, BlockInv s → s.estate = .start (encode .unpack) →
    (∃ t, engineRun (s.prm.npts.toNat + 1) s = .next t ∧ t.estate = .idle) ∨
      ∃ a, engineRun (s.prm.npts.toNat + 1) s = .fault (.ibufUnwritten a)

/-- The counting law (R184, R191, R202): UNPACK completes when its start checks pass, the bitmap has a bit for every point and the
data span holds W bits for every present point; then OUT_COUNT is N, an entry is PRESENT exactly when its point is, the
j-th present entry holds the codeword at bit W * j and its scaled value, UNP_CW counts the present points, and
UNP_CURSOR is W * UNP_CW. -/
def Obligations.UnpackCounting : Prop :=
  ∀ s : State, BlockInv s → Written s → s.estate = .start (encode .unpack) →
    s.prm.drt = 0#16 → s.prm.width.toNat ≤ 32 → s.prm.npts.toNat ≤ s.par.outMax →
    s.prm.dataAddr.toNat + s.prm.dataLen.toNat ≤ s.bufLen.toNat →
    (s.prm.bmpEn = true → s.prm.bmpAddr.toNat + s.prm.bmpLen.toNat ≤ s.bufLen.toNat ∧
      s.prm.npts.toNat ≤ 8 * s.prm.bmpLen.toNat) →
    s.prm.width.toNat * presentBefore s s.prm.npts.toNat ≤ 8 * s.prm.dataLen.toNat →
    ∃ t, engineRun (s.prm.npts.toNat + 1) s = .next t ∧ t.estate = .idle ∧ t.status.err = false ∧
      t.status.done = true ∧ t.status.outValid = true ∧ t.prog.outCount = s.prm.npts ∧ t.prog.idx = s.prm.npts ∧
      t.prog.cw.toNat = presentBefore s s.prm.npts.toNat ∧
      t.prog.cursor.toNat = s.prm.width.toNat * presentBefore s s.prm.npts.toNat ∧
      (∀ i, i < s.prm.npts.toNat → isPresent s i = false →
        Cells.read t.obuf i = some { present := false, value := 0#64, raw := 0#32 }) ∧
      (∀ i, i < s.prm.npts.toNat → isPresent s i = true →
        ∃ raw, readBits s s.prm.dataAddr.toNat (s.prm.width.toNat * presentBefore s i) s.prm.width.toNat = .ok raw ∧
          Cells.read t.obuf i = some
            { present := true, value := scale s.par s.prm.ref s.prm.bsf.toInt s.prm.dsf.toInt raw
              raw := BitVec.ofNat 32 raw }) ∧
      ∀ j, s.prm.npts.toNat ≤ j → Cells.read t.obuf j = Cells.read s.obuf j

/-- R206: an UNPACK that ends in a fault leaves no valid output: OUT_VALID and OUT_COUNT are 0, and no entry from UNP_IDX up was
written by it once its point steps had begun. -/
def Obligations.UnpackFaultNoOutput : Prop :=
  ∀ (s t : State) (k : Nat), BlockInv s → s.estate = .start (encode .unpack) → engineRun k s = .next t →
    t.estate = .idle → t.status.err = true →
    t.status.outValid = false ∧ t.prog.outCount = 0#32 ∧
      (∀ j, t.prog.idx.toNat ≤ j → Cells.read t.obuf j = Cells.read s.obuf j)

/-- A point step depends on no byte of IBUF outside the data span and, where it is enabled, the bitmap (R185, R189): two states that
differ only in IBUF and agree on those bytes do the same. -/
def Obligations.PointReadsOnlySpans : Prop :=
  ∀ (s : State) (m : Memory) (i c k : Nat),
    (∀ j, j < s.prm.dataLen.toNat →
      Cells.read m (s.prm.dataAddr.toNat + j) = Cells.read s.ibuf (s.prm.dataAddr.toNat + j)) →
    (s.prm.bmpEn = true → ∀ j, j < s.prm.bmpLen.toNat →
      Cells.read m (s.prm.bmpAddr.toNat + j) = Cells.read s.ibuf (s.prm.bmpAddr.toNat + j)) →
    (∀ t, unpPoint i c k s = .next t → unpPoint i c k { s with ibuf := m } = .next { t with ibuf := m }) ∧
      ∀ f, unpPoint i c k s = .fault f → unpPoint i c k { s with ibuf := m } = .fault f

/-! ### The arithmetic of SCALE (00_scope.md R11; 42_unpacker.md R191 to R200)

The details of the IEEE-754 operations are PRESUMED, log entry 18. -/

/-- R11: `fl64` rounds to nearest. Where it gives a finite value no finite binary64 value is nearer to the exact rational, and on a
tie the fraction it gives is even; it gives the infinity exactly from (2 - 2^-53) * 2^1023 up, where round-to-nearest
overflows; and the sign is the one asked for. (IEEE-754 rounding as PRESUMED in log entry 18.) -/
def Obligations.Fl64Nearest : Prop :=
  ∀ (neg : Bool) (num den : Nat), 0 < den →
    let x : ℚ := (if neg then -1 else 1) * ((num : ℚ) / (den : ℚ))
    let r := fl64 neg num den
    r.msb = neg ∧
      ((unpack64 r = .inf neg ∧ (2 ^ 1024 - 2 ^ 970 : ℚ) ≤ (num : ℚ) / (den : ℚ)) ∨
        ((num : ℚ) / (den : ℚ) < (2 ^ 1024 - 2 ^ 970 : ℚ) ∧
          ∃ y, ratValue r = some y ∧
            ∀ (b : B64) (z : ℚ), ratValue b = some z →
              |x - y| ≤ |x - z| ∧ (|x - y| = |x - z| → z = y ∨ r.getLsbD 0 = false)))

/-- R193: `2^E` is exact from -1074 to 1023, +infinity from 1024 up, and +0 from -1075 down. -/
def Obligations.PowerOfTwo : Prop :=
  ∀ e : Int,
    (-1074 ≤ e → e ≤ 1023 → ratValue (pow2of e) = some ((2 : ℚ) ^ e)) ∧
      (1024 ≤ e → pow2of e = 0x7FF0000000000000#64) ∧ (e ≤ -1075 → pow2of e = 0#64)

/-- R195: the default `10^D` is exact from 0 to 22, +infinity from 309 up and +0 from -324 down. -/
def Obligations.PowerOfTen : Prop :=
  ∀ d : Int,
    (0 ≤ d → d ≤ 22 → ratValue (pow10Default d) = some ((10 : ℚ) ^ d)) ∧
      (309 ≤ d → pow10Default d = 0x7FF0000000000000#64) ∧ (d ≤ -324 → pow10Default d = 0#64)

/-- R192: `widen` is exact for every binary32 pattern that is no NaN, and keeps the sign of a zero and of an infinity. -/
def Obligations.WidenExact : Prop :=
  ∀ p : Word,
    match unpack32 p with
    | .nan => unpack64 (widen p) = .nan
    | .inf neg => unpack64 (widen p) = .inf neg
    | .fin neg m e =>
      ratValue (widen p) = some ((if neg then -1 else 1) * (m : ℚ) * (2 : ℚ) ^ e) ∧ (widen p).msb = neg

/-- R197: `canon` gives every NaN the one pattern 0x7FF8000000000000 and every other value itself, and every NaN that SCALE gives
has that pattern, whatever the parameters are. -/
def Obligations.CanonicalNaN : Prop :=
  (∀ o : B64, (unpack64 o = .nan → canon o = 0x7FF8000000000000#64) ∧ (unpack64 o ≠ .nan → canon o = o)) ∧
    ∀ (p : Params) (ref : Word) (e d : Int) (raw : Nat),
      unpack64 (scale p ref e d raw) = .nan → scale p ref e d raw = 0x7FF8000000000000#64

/-- Corner values of SCALE with the default POW10 and ROUND4 (R200): a NaN reference, an infinite scale with raw 0 or not, an
infinite reference, a 10^D that underflows or overflows, the rounding near 1 and the rounded-away negative. Where the
overflow and infinite-reference rows meet D >= 309, whose 10^D is infinite, the value is NaN: the model's choice (log
entry 23). SCALE(0) of the reference -0 is +0, where R201's short formula has -0: the model's choice (log entry 24). -/
def Obligations.ScaleCorners : Prop :=
  ∀ (p : Params) (ref : Word) (e d : Int) (raw : Nat), p.pow10Diff = [] → p.round4Diff = [] → raw < 2 ^ 32 →
    (unpack32 ref = .nan → scale p ref e d raw = 0x7FF8000000000000#64) ∧
      (raw = 0 → 1024 ≤ e → scale p ref e d raw = 0x7FF8000000000000#64) ∧
      (1 ≤ raw → 1024 ≤ e → (∃ neg m x, unpack32 ref = .fin neg m x) → d ≤ 308 →
        scale p ref e d raw = 0x7FF0000000000000#64) ∧
      (1 ≤ raw → 1024 ≤ e → (∃ neg m x, unpack32 ref = .fin neg m x) → 309 ≤ d →
        scale p ref e d raw = 0x7FF8000000000000#64) ∧
      (ref = 0x7F800000#32 → e ≤ 991 → d ≤ 308 → scale p ref e d raw = 0x7FF0000000000000#64) ∧
      (ref = 0x7F800000#32 → e ≤ 991 → 309 ≤ d → scale p ref e d raw = 0x7FF8000000000000#64) ∧
      (raw = 0 → ref = 0#32 → e ≤ 1023 → -323 ≤ d → d ≤ 308 → scale p ref e d raw = 0#64) ∧
      (raw = 0 → ref = 0x80000000#32 → e ≤ 1023 → -323 ≤ d → d ≤ 308 → scale p ref e d raw = 0#64) ∧
      (ref = 0#32 → e = 0 → d ≤ -324 → 1 ≤ raw → scale p ref e d raw = 0x7FF0000000000000#64) ∧
      (ref = 0xBF800000#32 → e = 0 → 309 ≤ d → raw = 0 → scale p ref e d raw = 0x8000000000000000#64) ∧
      (ref = 0xBF000000#32 → e = 0 → d = 4 → raw = 0 → scale p ref e d raw = 0x8000000000000000#64) ∧
      (ref = 0#32 → e = -32 → d = 0 → raw = 0xFFFFFFFF → scale p ref e d raw = 0x3FF0000000000000#64)

end
end

