-- ==== Sys2Proof/Laws/Memory.lean ====
section
/-! SUPPORT. The laws of the two buffers: read after write, other places left alone, the canonical form kept, and places
that stay inside the buffer. -/
namespace Sys2Proof.Machine

variable {α : Type}

theorem Cells.read_nil (a : Nat) : Cells.read ([] : Cells α) a = none := rfl

theorem Cells.read_cons (b a : Nat) (u : α) (m : Cells α) :
    Cells.read ((b, u) :: m) a = if a = b then some u else Cells.read m a := rfl

/-- The place just written holds what was written. -/
theorem Cells.read_write_same (m : Cells α) (a : Nat) (v : α) : Cells.read (Cells.write m a v) a = some v := by
  induction m with
  | nil => simp [Cells.write, Cells.read]
  | cons h t ih =>
    obtain ⟨b, u⟩ := h
    simp only [Cells.write]
    split
    · simp [Cells.read]
    · split
      · simp [Cells.read]
      · simp [Cells.read, *]

/-- A write leaves every other place alone. -/
theorem Cells.read_write_other (m : Cells α) {a c : Nat} (v : α) (h : c ≠ a) :
    Cells.read (Cells.write m a v) c = Cells.read m c := by
  induction m with
  | nil => simp [Cells.write, Cells.read, h]
  | cons hd t ih =>
    obtain ⟨b, u⟩ := hd
    simp only [Cells.write]
    split
    · simp [Cells.read, h]
    · split
      · subst b; simp [Cells.read, h]
      · simp [Cells.read, ih]

theorem Cells.read_write (m : Cells α) (a c : Nat) (v : α) :
    Cells.read (Cells.write m a v) c = if c = a then some v else Cells.read m c := by
  split
  · subst c; exact Cells.read_write_same m a v
  · rename_i h; exact Cells.read_write_other m v h

/-- The entries of a buffer after a write: the written one, and old ones. -/
theorem Cells.mem_write {m : Cells α} {a : Nat} {v : α} {c : Nat × α} (h : c ∈ Cells.write m a v) :
    c = (a, v) ∨ c ∈ m := by
  induction m with
  | nil => simpa [Cells.write] using h
  | cons hd t ih =>
    obtain ⟨b, u⟩ := hd
    simp only [Cells.write] at h
    split at h
    · simpa using h
    · split at h
      · rcases List.mem_cons.1 h with h | h
        · exact .inl h
        · exact .inr (List.mem_cons_of_mem _ h)
      · rcases List.mem_cons.1 h with h | h
        · exact .inr (by simp [h])
        · rcases ih h with h | h
          · exact .inl h
          · exact .inr (List.mem_cons_of_mem _ h)

/-- A write keeps the canonical form. -/
theorem Cells.write_wf {m : Cells α} (h : Cells.wf m) (a : Nat) (v : α) : Cells.wf (Cells.write m a v) := by
  induction m with
  | nil => simp [Cells.write]
  | cons hd t ih =>
    obtain ⟨b, u⟩ := hd
    have hb : ∀ y ∈ t, b < y.1 := (List.pairwise_cons.1 h).1
    have ht : Cells.wf t := (List.pairwise_cons.1 h).2
    simp only [Cells.write]
    split
    · rename_i hab
      refine List.pairwise_cons.2 ⟨?_, h⟩
      intro y hy
      rcases List.mem_cons.1 hy with rfl | hy
      · exact hab
      · exact Nat.lt_trans hab (hb y hy)
    · split
      · rename_i hab
        exact List.pairwise_cons.2 ⟨fun y hy => by simpa [hab] using hb y hy, ht⟩
      · rename_i h1 h2
        refine List.pairwise_cons.2 ⟨?_, ih ht⟩
        intro y hy
        rcases Cells.mem_write hy with rfl | hy
        · show b < a
          omega
        · exact hb y hy

/-- In canonical form, a place reads as its entry. -/
theorem Cells.read_of_mem {m : Cells α} (h : Cells.wf m) {a : Nat} {v : α} (hm : (a, v) ∈ m) :
    Cells.read m a = some v := by
  induction m with
  | nil => simp at hm
  | cons hd t ih =>
    obtain ⟨b, u⟩ := hd
    have hb := (List.pairwise_cons.1 h).1
    rcases List.mem_cons.1 hm with he | hm
    · cases he; simp [Cells.read]
    · have : b < a := hb _ hm
      rw [Cells.read_cons, if_neg (by omega)]
      exact ih (List.pairwise_cons.1 h).2 hm

/-- A place that reads as something has an entry. -/
theorem Cells.mem_of_read {m : Cells α} {a : Nat} {v : α} (h : Cells.read m a = some v) : (a, v) ∈ m := by
  induction m with
  | nil => simp [Cells.read] at h
  | cons hd t ih =>
    obtain ⟨b, u⟩ := hd
    rw [Cells.read_cons] at h
    split at h
    · cases h; simp [*]
    · exact List.mem_cons_of_mem _ (ih h)

/-- Buffers in canonical form that read alike are equal. -/
theorem Cells.ext_of_read {m n : Cells α} (hm : Cells.wf m) (hn : Cells.wf n)
    (h : ∀ a, Cells.read m a = Cells.read n a) : m = n := by
  induction m generalizing n with
  | nil =>
    cases n with
    | nil => rfl
    | cons hd t => obtain ⟨b, u⟩ := hd; simpa [Cells.read] using h b
  | cons hd t ih =>
    obtain ⟨b, u⟩ := hd
    cases n with
    | nil => simpa [Cells.read] using h b
    | cons hd' t' =>
      obtain ⟨b', u'⟩ := hd'
      have hb := (List.pairwise_cons.1 hm).1
      have hb' := (List.pairwise_cons.1 hn).1
      have e : b = b' := by
        rcases Nat.lt_trichotomy b b' with hlt | he | hlt
        · have := h b
          rw [Cells.read_cons, if_pos rfl, Cells.read_cons, if_neg (by omega)] at this
          have := hb' _ (Cells.mem_of_read this.symm)
          simp at this; omega
        · exact he
        · have := h b'
          rw [Cells.read_cons, if_neg (by omega), Cells.read_cons, if_pos rfl] at this
          have := hb _ (Cells.mem_of_read this)
          simp at this; omega
      subst e
      have eu : u = u' := by simpa [Cells.read] using h b
      subst eu
      have tail : ∀ (x : Cells α), (∀ y ∈ x, b < y.1) → Cells.read x b = none := fun x hx => by
        cases hr : Cells.read x b with
        | none => rfl
        | some v => have := hx _ (Cells.mem_of_read hr); simp at this
      congr 1
      refine ih (List.pairwise_cons.1 hm).2 (List.pairwise_cons.1 hn).2 fun a => ?_
      by_cases ha : a = b
      · subst ha; rw [tail t hb, tail t' hb']
      · simpa [Cells.read, ha] using h a

/-! ### The lanes of a host write (R73) -/

theorem storeLanes_wf {m : Memory} (h : Memory.wf m) (a v n : Nat) : Memory.wf (storeLanes m a v n) := by
  induction n generalizing m a v with
  | zero => exact h
  | succ n ih => exact ih (Cells.write_wf h _ _) _ _

theorem mem_storeLanes {m : Memory} {a v n : Nat} {c : Nat × Byte} (h : c ∈ storeLanes m a v n) :
    (a ≤ c.1 ∧ c.1 < a + n) ∨ c ∈ m := by
  induction n generalizing m a v with
  | zero => exact .inr h
  | succ n ih =>
    rcases ih h with h | h
    · exact .inl (by omega)
    · rcases Cells.mem_write h with rfl | h
      · exact .inl (by simp)
      · exact .inr h

/-- The `k`-th lane holds bits `8k+7 : 8k` of the value, and every other place is left alone. -/
theorem read_storeLanes (m : Memory) (a v n c : Nat) :
    Cells.read (storeLanes m a v n) c =
      if a ≤ c ∧ c < a + n then some (BitVec.ofNat 8 (v / 256 ^ (c - a))) else Cells.read m c := by
  induction n generalizing m a v with
  | zero => simp only [storeLanes]; rw [if_neg (by omega)]
  | succ n ih =>
    simp only [storeLanes]
    rw [ih, Cells.read_write]
    by_cases hc : c = a
    · subst hc
      rw [if_neg (by omega), if_pos rfl, if_pos (by omega)]
      simp
    · by_cases hr : a ≤ c ∧ c < a + (n + 1)
      · rw [if_pos (by omega), if_pos hr]
        have : c - a = (c - (a + 1)) + 1 := by omega
        rw [this, Nat.pow_succ', Nat.div_div_eq_div_mul]
      · rw [if_neg (by omega), if_neg hc, if_neg hr]

end Sys2Proof.Machine
end

