-- ==== Sys2Proof/Laws/State.lean ====
section
/-! SUPPORT. The fields of State after each named update: one lemma per field and update, true by definition. -/
namespace Sys2Proof.Machine

variable (s : State)

/-! ### raise -/

@[simp] theorem raise_par (opc : Byte) (e : ErrCode) (info : Word) : (raise opc e info s).par = s.par := rfl
@[simp] theorem raise_status (opc : Byte) (e : ErrCode) (info : Word) :
    (raise opc e info s).status = { s.status with err := true, errcode := errByte e, busy := false } := rfl
@[simp] theorem raise_irqEn (opc : Byte) (e : ErrCode) (info : Word) : (raise opc e info s).irqEn = s.irqEn := rfl
@[simp] theorem raise_lastCmd (opc : Byte) (e : ErrCode) (info : Word) : (raise opc e info s).lastCmd = s.lastCmd := rfl
@[simp] theorem raise_addr (opc : Byte) (e : ErrCode) (info : Word) : (raise opc e info s).addr = s.addr := rfl
@[simp] theorem raise_resLo (opc : Byte) (e : ErrCode) (info : Word) : (raise opc e info s).resLo = s.resLo := rfl
@[simp] theorem raise_resHi (opc : Byte) (e : ErrCode) (info : Word) : (raise opc e info s).resHi = s.resHi := rfl
@[simp] theorem raise_errInfo0 (opc : Byte) (e : ErrCode) (info : Word) :
    (raise opc e info s).errInfo0 = opc := rfl
@[simp] theorem raise_errInfo1 (opc : Byte) (e : ErrCode) (info : Word) :
    (raise opc e info s).errInfo1 = info := rfl
@[simp] theorem raise_bufLen (opc : Byte) (e : ErrCode) (info : Word) : (raise opc e info s).bufLen = s.bufLen := rfl
@[simp] theorem raise_msg (opc : Byte) (e : ErrCode) (info : Word) : (raise opc e info s).msg = s.msg := rfl
@[simp] theorem raise_table (opc : Byte) (e : ErrCode) (info : Word) : (raise opc e info s).table = s.table := rfl
@[simp] theorem raise_prm (opc : Byte) (e : ErrCode) (info : Word) : (raise opc e info s).prm = s.prm := rfl
@[simp] theorem raise_prog (opc : Byte) (e : ErrCode) (info : Word) : (raise opc e info s).prog = s.prog := rfl
@[simp] theorem raise_estate (opc : Byte) (e : ErrCode) (info : Word) :
    (raise opc e info s).estate = .idle := rfl
@[simp] theorem raise_ibuf (opc : Byte) (e : ErrCode) (info : Word) : (raise opc e info s).ibuf = s.ibuf := rfl
@[simp] theorem raise_obuf (opc : Byte) (e : ErrCode) (info : Word) : (raise opc e info s).obuf = s.obuf := rfl
@[simp] theorem raise_resets (opc : Byte) (e : ErrCode) (info : Word) : (raise opc e info s).resets = s.resets := rfl
@[simp] theorem raise_moves (opc : Byte) (e : ErrCode) (info : Word) : (raise opc e info s).moves = s.moves := rfl
@[simp] theorem raise_resp (opc : Byte) (e : ErrCode) (info : Word) : (raise opc e info s).resp = s.resp := rfl

/-! ### accept -/

@[simp] theorem accept_par (w : Word) : (accept w s).par = s.par := rfl
@[simp] theorem accept_status (w : Word) :
    (accept w s).status = { s.status with done := false, busy := true } := rfl
@[simp] theorem accept_irqEn (w : Word) : (accept w s).irqEn = s.irqEn := rfl
@[simp] theorem accept_lastCmd (w : Word) :
    (accept w s).lastCmd = w := rfl
@[simp] theorem accept_addr (w : Word) : (accept w s).addr = s.addr := rfl
@[simp] theorem accept_resLo (w : Word) : (accept w s).resLo = s.resLo := rfl
@[simp] theorem accept_resHi (w : Word) : (accept w s).resHi = s.resHi := rfl
@[simp] theorem accept_errInfo0 (w : Word) : (accept w s).errInfo0 = s.errInfo0 := rfl
@[simp] theorem accept_errInfo1 (w : Word) : (accept w s).errInfo1 = s.errInfo1 := rfl
@[simp] theorem accept_bufLen (w : Word) : (accept w s).bufLen = s.bufLen := rfl
@[simp] theorem accept_msg (w : Word) : (accept w s).msg = s.msg := rfl
@[simp] theorem accept_table (w : Word) : (accept w s).table = s.table := rfl
@[simp] theorem accept_prm (w : Word) : (accept w s).prm = s.prm := rfl
@[simp] theorem accept_prog (w : Word) : (accept w s).prog = s.prog := rfl
@[simp] theorem accept_estate (w : Word) :
    (accept w s).estate = .start w := rfl
@[simp] theorem accept_ibuf (w : Word) : (accept w s).ibuf = s.ibuf := rfl
@[simp] theorem accept_obuf (w : Word) : (accept w s).obuf = s.obuf := rfl
@[simp] theorem accept_resets (w : Word) : (accept w s).resets = s.resets := rfl
@[simp] theorem accept_moves (w : Word) : (accept w s).moves = s.moves := rfl
@[simp] theorem accept_resp (w : Word) : (accept w s).resp = s.resp := rfl

/-! ### dropWrite -/

@[simp] theorem dropWrite_par : (dropWrite s).par = s.par := rfl
@[simp] theorem dropWrite_status :
    (dropWrite s).status = { s.status with wDrop := true } := rfl
@[simp] theorem dropWrite_irqEn : (dropWrite s).irqEn = s.irqEn := rfl
@[simp] theorem dropWrite_lastCmd : (dropWrite s).lastCmd = s.lastCmd := rfl
@[simp] theorem dropWrite_addr : (dropWrite s).addr = s.addr := rfl
@[simp] theorem dropWrite_resLo : (dropWrite s).resLo = s.resLo := rfl
@[simp] theorem dropWrite_resHi : (dropWrite s).resHi = s.resHi := rfl
@[simp] theorem dropWrite_errInfo0 : (dropWrite s).errInfo0 = s.errInfo0 := rfl
@[simp] theorem dropWrite_errInfo1 : (dropWrite s).errInfo1 = s.errInfo1 := rfl
@[simp] theorem dropWrite_bufLen : (dropWrite s).bufLen = s.bufLen := rfl
@[simp] theorem dropWrite_msg : (dropWrite s).msg = s.msg := rfl
@[simp] theorem dropWrite_table : (dropWrite s).table = s.table := rfl
@[simp] theorem dropWrite_prm : (dropWrite s).prm = s.prm := rfl
@[simp] theorem dropWrite_prog : (dropWrite s).prog = s.prog := rfl
@[simp] theorem dropWrite_estate : (dropWrite s).estate = s.estate := rfl
@[simp] theorem dropWrite_ibuf : (dropWrite s).ibuf = s.ibuf := rfl
@[simp] theorem dropWrite_obuf : (dropWrite s).obuf = s.obuf := rfl
@[simp] theorem dropWrite_resets : (dropWrite s).resets = s.resets := rfl
@[simp] theorem dropWrite_moves : (dropWrite s).moves = s.moves := rfl
@[simp] theorem dropWrite_resp : (dropWrite s).resp = s.resp := rfl

/-! ### finish -/

@[simp] theorem finish_par : (finish s).par = s.par := rfl
@[simp] theorem finish_status :
    (finish s).status = { s.status with busy := false, done := true } := rfl
@[simp] theorem finish_irqEn : (finish s).irqEn = s.irqEn := rfl
@[simp] theorem finish_lastCmd : (finish s).lastCmd = s.lastCmd := rfl
@[simp] theorem finish_addr : (finish s).addr = s.addr := rfl
@[simp] theorem finish_resLo : (finish s).resLo = s.resLo := rfl
@[simp] theorem finish_resHi : (finish s).resHi = s.resHi := rfl
@[simp] theorem finish_errInfo0 : (finish s).errInfo0 = s.errInfo0 := rfl
@[simp] theorem finish_errInfo1 : (finish s).errInfo1 = s.errInfo1 := rfl
@[simp] theorem finish_bufLen : (finish s).bufLen = s.bufLen := rfl
@[simp] theorem finish_msg : (finish s).msg = s.msg := rfl
@[simp] theorem finish_table : (finish s).table = s.table := rfl
@[simp] theorem finish_prm : (finish s).prm = s.prm := rfl
@[simp] theorem finish_prog : (finish s).prog = s.prog := rfl
@[simp] theorem finish_estate :
    (finish s).estate = .idle := rfl
@[simp] theorem finish_ibuf : (finish s).ibuf = s.ibuf := rfl
@[simp] theorem finish_obuf : (finish s).obuf = s.obuf := rfl
@[simp] theorem finish_resets : (finish s).resets = s.resets := rfl
@[simp] theorem finish_moves : (finish s).moves = s.moves := rfl
@[simp] theorem finish_resp : (finish s).resp = s.resp := rfl

/-! ### clearTable -/

@[simp] theorem clearTable_par : (clearTable s).par = s.par := rfl
@[simp] theorem clearTable_status :
    (clearTable s).status = { s.status with sectValid := false } := rfl
@[simp] theorem clearTable_irqEn : (clearTable s).irqEn = s.irqEn := rfl
@[simp] theorem clearTable_lastCmd : (clearTable s).lastCmd = s.lastCmd := rfl
@[simp] theorem clearTable_addr : (clearTable s).addr = s.addr := rfl
@[simp] theorem clearTable_resLo : (clearTable s).resLo = s.resLo := rfl
@[simp] theorem clearTable_resHi : (clearTable s).resHi = s.resHi := rfl
@[simp] theorem clearTable_errInfo0 : (clearTable s).errInfo0 = s.errInfo0 := rfl
@[simp] theorem clearTable_errInfo1 : (clearTable s).errInfo1 = s.errInfo1 := rfl
@[simp] theorem clearTable_bufLen : (clearTable s).bufLen = s.bufLen := rfl
@[simp] theorem clearTable_msg : (clearTable s).msg = s.msg := rfl
@[simp] theorem clearTable_table :
    (clearTable s).table = SectTable.empty := rfl
@[simp] theorem clearTable_prm : (clearTable s).prm = s.prm := rfl
@[simp] theorem clearTable_prog : (clearTable s).prog = s.prog := rfl
@[simp] theorem clearTable_estate : (clearTable s).estate = s.estate := rfl
@[simp] theorem clearTable_ibuf : (clearTable s).ibuf = s.ibuf := rfl
@[simp] theorem clearTable_obuf : (clearTable s).obuf = s.obuf := rfl
@[simp] theorem clearTable_resets : (clearTable s).resets = s.resets := rfl
@[simp] theorem clearTable_moves : (clearTable s).moves = s.moves := rfl
@[simp] theorem clearTable_resp : (clearTable s).resp = s.resp := rfl

/-! ### messageStartReset -/

@[simp] theorem messageStartReset_par : (messageStartReset s).par = s.par := rfl
@[simp] theorem messageStartReset_status :
    (messageStartReset s).status = { s.status with sectValid := false, outValid := false } := rfl
@[simp] theorem messageStartReset_irqEn : (messageStartReset s).irqEn = s.irqEn := rfl
@[simp] theorem messageStartReset_lastCmd : (messageStartReset s).lastCmd = s.lastCmd := rfl
@[simp] theorem messageStartReset_addr : (messageStartReset s).addr = s.addr := rfl
@[simp] theorem messageStartReset_resLo : (messageStartReset s).resLo = s.resLo := rfl
@[simp] theorem messageStartReset_resHi : (messageStartReset s).resHi = s.resHi := rfl
@[simp] theorem messageStartReset_errInfo0 : (messageStartReset s).errInfo0 = s.errInfo0 := rfl
@[simp] theorem messageStartReset_errInfo1 : (messageStartReset s).errInfo1 = s.errInfo1 := rfl
@[simp] theorem messageStartReset_bufLen : (messageStartReset s).bufLen = s.bufLen := rfl
@[simp] theorem messageStartReset_msg : (messageStartReset s).msg = s.msg := rfl
@[simp] theorem messageStartReset_table :
    (messageStartReset s).table = SectTable.empty := rfl
@[simp] theorem messageStartReset_prm :
    (messageStartReset s).prm = ParamFile.zero := rfl
@[simp] theorem messageStartReset_prog :
    (messageStartReset s).prog = ProgressRegs.zero := rfl
@[simp] theorem messageStartReset_estate : (messageStartReset s).estate = s.estate := rfl
@[simp] theorem messageStartReset_ibuf : (messageStartReset s).ibuf = s.ibuf := rfl
@[simp] theorem messageStartReset_obuf : (messageStartReset s).obuf = s.obuf := rfl
@[simp] theorem messageStartReset_resets : (messageStartReset s).resets = s.resets := rfl
@[simp] theorem messageStartReset_moves : (messageStartReset s).moves = s.moves := rfl
@[simp] theorem messageStartReset_resp : (messageStartReset s).resp = s.resp := rfl

/-! ### setRes -/

@[simp] theorem setRes_par (v : DWord) : (setRes v s).par = s.par := rfl
@[simp] theorem setRes_status (v : DWord) : (setRes v s).status = s.status := rfl
@[simp] theorem setRes_irqEn (v : DWord) : (setRes v s).irqEn = s.irqEn := rfl
@[simp] theorem setRes_lastCmd (v : DWord) : (setRes v s).lastCmd = s.lastCmd := rfl
@[simp] theorem setRes_addr (v : DWord) : (setRes v s).addr = s.addr := rfl
@[simp] theorem setRes_resLo (v : DWord) :
    (setRes v s).resLo = v.extractLsb' 0 32 := rfl
@[simp] theorem setRes_resHi (v : DWord) :
    (setRes v s).resHi = v.extractLsb' 32 32 := rfl
@[simp] theorem setRes_errInfo0 (v : DWord) : (setRes v s).errInfo0 = s.errInfo0 := rfl
@[simp] theorem setRes_errInfo1 (v : DWord) : (setRes v s).errInfo1 = s.errInfo1 := rfl
@[simp] theorem setRes_bufLen (v : DWord) : (setRes v s).bufLen = s.bufLen := rfl
@[simp] theorem setRes_msg (v : DWord) : (setRes v s).msg = s.msg := rfl
@[simp] theorem setRes_table (v : DWord) : (setRes v s).table = s.table := rfl
@[simp] theorem setRes_prm (v : DWord) : (setRes v s).prm = s.prm := rfl
@[simp] theorem setRes_prog (v : DWord) : (setRes v s).prog = s.prog := rfl
@[simp] theorem setRes_estate (v : DWord) : (setRes v s).estate = s.estate := rfl
@[simp] theorem setRes_ibuf (v : DWord) : (setRes v s).ibuf = s.ibuf := rfl
@[simp] theorem setRes_obuf (v : DWord) : (setRes v s).obuf = s.obuf := rfl
@[simp] theorem setRes_resets (v : DWord) : (setRes v s).resets = s.resets := rfl
@[simp] theorem setRes_moves (v : DWord) : (setRes v s).moves = s.moves := rfl
@[simp] theorem setRes_resp (v : DWord) : (setRes v s).resp = s.resp := rfl

/-! ### writeOut -/

@[simp] theorem writeOut_par (i : Nat) (o : OutEntry) : (writeOut i o s).par = s.par := rfl
@[simp] theorem writeOut_status (i : Nat) (o : OutEntry) : (writeOut i o s).status = s.status := rfl
@[simp] theorem writeOut_irqEn (i : Nat) (o : OutEntry) : (writeOut i o s).irqEn = s.irqEn := rfl
@[simp] theorem writeOut_lastCmd (i : Nat) (o : OutEntry) : (writeOut i o s).lastCmd = s.lastCmd := rfl
@[simp] theorem writeOut_addr (i : Nat) (o : OutEntry) : (writeOut i o s).addr = s.addr := rfl
@[simp] theorem writeOut_resLo (i : Nat) (o : OutEntry) : (writeOut i o s).resLo = s.resLo := rfl
@[simp] theorem writeOut_resHi (i : Nat) (o : OutEntry) : (writeOut i o s).resHi = s.resHi := rfl
@[simp] theorem writeOut_errInfo0 (i : Nat) (o : OutEntry) : (writeOut i o s).errInfo0 = s.errInfo0 := rfl
@[simp] theorem writeOut_errInfo1 (i : Nat) (o : OutEntry) : (writeOut i o s).errInfo1 = s.errInfo1 := rfl
@[simp] theorem writeOut_bufLen (i : Nat) (o : OutEntry) : (writeOut i o s).bufLen = s.bufLen := rfl
@[simp] theorem writeOut_msg (i : Nat) (o : OutEntry) : (writeOut i o s).msg = s.msg := rfl
@[simp] theorem writeOut_table (i : Nat) (o : OutEntry) : (writeOut i o s).table = s.table := rfl
@[simp] theorem writeOut_prm (i : Nat) (o : OutEntry) : (writeOut i o s).prm = s.prm := rfl
@[simp] theorem writeOut_prog (i : Nat) (o : OutEntry) : (writeOut i o s).prog = s.prog := rfl
@[simp] theorem writeOut_estate (i : Nat) (o : OutEntry) : (writeOut i o s).estate = s.estate := rfl
@[simp] theorem writeOut_ibuf (i : Nat) (o : OutEntry) : (writeOut i o s).ibuf = s.ibuf := rfl
@[simp] theorem writeOut_obuf (i : Nat) (o : OutEntry) :
    (writeOut i o s).obuf = Cells.write s.obuf i o := rfl
@[simp] theorem writeOut_resets (i : Nat) (o : OutEntry) : (writeOut i o s).resets = s.resets := rfl
@[simp] theorem writeOut_moves (i : Nat) (o : OutEntry) : (writeOut i o s).moves = s.moves := rfl
@[simp] theorem writeOut_resp (i : Nat) (o : OutEntry) : (writeOut i o s).resp = s.resp := rfl

/-! ### writeIrqEn -/

@[simp] theorem writeIrqEn_par (v : Word) : (writeIrqEn v s).par = s.par := rfl
@[simp] theorem writeIrqEn_status (v : Word) : (writeIrqEn v s).status = s.status := rfl
@[simp] theorem writeIrqEn_irqEn (v : Word) :
    (writeIrqEn v s).irqEn = { doneIe := v.getLsbD 0, errIe := v.getLsbD 1, warnIe := v.getLsbD 2 } := rfl
@[simp] theorem writeIrqEn_lastCmd (v : Word) : (writeIrqEn v s).lastCmd = s.lastCmd := rfl
@[simp] theorem writeIrqEn_addr (v : Word) : (writeIrqEn v s).addr = s.addr := rfl
@[simp] theorem writeIrqEn_resLo (v : Word) : (writeIrqEn v s).resLo = s.resLo := rfl
@[simp] theorem writeIrqEn_resHi (v : Word) : (writeIrqEn v s).resHi = s.resHi := rfl
@[simp] theorem writeIrqEn_errInfo0 (v : Word) : (writeIrqEn v s).errInfo0 = s.errInfo0 := rfl
@[simp] theorem writeIrqEn_errInfo1 (v : Word) : (writeIrqEn v s).errInfo1 = s.errInfo1 := rfl
@[simp] theorem writeIrqEn_bufLen (v : Word) : (writeIrqEn v s).bufLen = s.bufLen := rfl
@[simp] theorem writeIrqEn_msg (v : Word) : (writeIrqEn v s).msg = s.msg := rfl
@[simp] theorem writeIrqEn_table (v : Word) : (writeIrqEn v s).table = s.table := rfl
@[simp] theorem writeIrqEn_prm (v : Word) : (writeIrqEn v s).prm = s.prm := rfl
@[simp] theorem writeIrqEn_prog (v : Word) : (writeIrqEn v s).prog = s.prog := rfl
@[simp] theorem writeIrqEn_estate (v : Word) : (writeIrqEn v s).estate = s.estate := rfl
@[simp] theorem writeIrqEn_ibuf (v : Word) : (writeIrqEn v s).ibuf = s.ibuf := rfl
@[simp] theorem writeIrqEn_obuf (v : Word) : (writeIrqEn v s).obuf = s.obuf := rfl
@[simp] theorem writeIrqEn_resets (v : Word) : (writeIrqEn v s).resets = s.resets := rfl
@[simp] theorem writeIrqEn_moves (v : Word) : (writeIrqEn v s).moves = s.moves := rfl
@[simp] theorem writeIrqEn_resp (v : Word) : (writeIrqEn v s).resp = s.resp := rfl

/-! ### writeStatus -/

@[simp] theorem writeStatus_par (v : Word) : (writeStatus v s).par = s.par := rfl
@[simp] theorem writeStatus_irqEn (v : Word) : (writeStatus v s).irqEn = s.irqEn := rfl
@[simp] theorem writeStatus_lastCmd (v : Word) : (writeStatus v s).lastCmd = s.lastCmd := rfl
@[simp] theorem writeStatus_addr (v : Word) : (writeStatus v s).addr = s.addr := rfl
@[simp] theorem writeStatus_resLo (v : Word) : (writeStatus v s).resLo = s.resLo := rfl
@[simp] theorem writeStatus_resHi (v : Word) : (writeStatus v s).resHi = s.resHi := rfl
@[simp] theorem writeStatus_errInfo0 (v : Word) : (writeStatus v s).errInfo0 = s.errInfo0 := rfl
@[simp] theorem writeStatus_errInfo1 (v : Word) : (writeStatus v s).errInfo1 = s.errInfo1 := rfl
@[simp] theorem writeStatus_bufLen (v : Word) : (writeStatus v s).bufLen = s.bufLen := rfl
@[simp] theorem writeStatus_msg (v : Word) : (writeStatus v s).msg = s.msg := rfl
@[simp] theorem writeStatus_table (v : Word) : (writeStatus v s).table = s.table := rfl
@[simp] theorem writeStatus_prm (v : Word) : (writeStatus v s).prm = s.prm := rfl
@[simp] theorem writeStatus_prog (v : Word) : (writeStatus v s).prog = s.prog := rfl
@[simp] theorem writeStatus_estate (v : Word) : (writeStatus v s).estate = s.estate := rfl
@[simp] theorem writeStatus_ibuf (v : Word) : (writeStatus v s).ibuf = s.ibuf := rfl
@[simp] theorem writeStatus_obuf (v : Word) : (writeStatus v s).obuf = s.obuf := rfl
@[simp] theorem writeStatus_resets (v : Word) : (writeStatus v s).resets = s.resets := rfl
@[simp] theorem writeStatus_moves (v : Word) : (writeStatus v s).moves = s.moves := rfl
@[simp] theorem writeStatus_resp (v : Word) : (writeStatus v s).resp = s.resp := rfl

/-! ### writeBufLen -/

@[simp] theorem writeBufLen_par (v : Word) : (writeBufLen v s).par = s.par := rfl
@[simp] theorem writeBufLen_status (v : Word) : (writeBufLen v s).status = s.status := rfl
@[simp] theorem writeBufLen_irqEn (v : Word) : (writeBufLen v s).irqEn = s.irqEn := rfl
@[simp] theorem writeBufLen_lastCmd (v : Word) : (writeBufLen v s).lastCmd = s.lastCmd := rfl
@[simp] theorem writeBufLen_addr (v : Word) : (writeBufLen v s).addr = s.addr := rfl
@[simp] theorem writeBufLen_resLo (v : Word) : (writeBufLen v s).resLo = s.resLo := rfl
@[simp] theorem writeBufLen_resHi (v : Word) : (writeBufLen v s).resHi = s.resHi := rfl
@[simp] theorem writeBufLen_errInfo0 (v : Word) : (writeBufLen v s).errInfo0 = s.errInfo0 := rfl
@[simp] theorem writeBufLen_errInfo1 (v : Word) : (writeBufLen v s).errInfo1 = s.errInfo1 := rfl
@[simp] theorem writeBufLen_bufLen (v : Word) :
    (writeBufLen v s).bufLen = BitVec.ofNat 32 (min v.toNat s.par.ibufSize) := rfl
@[simp] theorem writeBufLen_msg (v : Word) : (writeBufLen v s).msg = s.msg := rfl
@[simp] theorem writeBufLen_table (v : Word) : (writeBufLen v s).table = s.table := rfl
@[simp] theorem writeBufLen_prm (v : Word) : (writeBufLen v s).prm = s.prm := rfl
@[simp] theorem writeBufLen_prog (v : Word) : (writeBufLen v s).prog = s.prog := rfl
@[simp] theorem writeBufLen_estate (v : Word) : (writeBufLen v s).estate = s.estate := rfl
@[simp] theorem writeBufLen_ibuf (v : Word) : (writeBufLen v s).ibuf = s.ibuf := rfl
@[simp] theorem writeBufLen_obuf (v : Word) : (writeBufLen v s).obuf = s.obuf := rfl
@[simp] theorem writeBufLen_resets (v : Word) : (writeBufLen v s).resets = s.resets := rfl
@[simp] theorem writeBufLen_moves (v : Word) : (writeBufLen v s).moves = s.moves := rfl
@[simp] theorem writeBufLen_resp (v : Word) : (writeBufLen v s).resp = s.resp := rfl

/-! ### warnTrunc -/

@[simp] theorem warnTrunc_par (c : Bool) : (warnTrunc c s).par = s.par := rfl
@[simp] theorem warnTrunc_status (c : Bool) :
    (warnTrunc c s).status = { s.status with wTrunc := s.status.wTrunc || c } := rfl
@[simp] theorem warnTrunc_irqEn (c : Bool) : (warnTrunc c s).irqEn = s.irqEn := rfl
@[simp] theorem warnTrunc_lastCmd (c : Bool) : (warnTrunc c s).lastCmd = s.lastCmd := rfl
@[simp] theorem warnTrunc_addr (c : Bool) : (warnTrunc c s).addr = s.addr := rfl
@[simp] theorem warnTrunc_resLo (c : Bool) : (warnTrunc c s).resLo = s.resLo := rfl
@[simp] theorem warnTrunc_resHi (c : Bool) : (warnTrunc c s).resHi = s.resHi := rfl
@[simp] theorem warnTrunc_errInfo0 (c : Bool) : (warnTrunc c s).errInfo0 = s.errInfo0 := rfl
@[simp] theorem warnTrunc_errInfo1 (c : Bool) : (warnTrunc c s).errInfo1 = s.errInfo1 := rfl
@[simp] theorem warnTrunc_bufLen (c : Bool) : (warnTrunc c s).bufLen = s.bufLen := rfl
@[simp] theorem warnTrunc_msg (c : Bool) : (warnTrunc c s).msg = s.msg := rfl
@[simp] theorem warnTrunc_table (c : Bool) : (warnTrunc c s).table = s.table := rfl
@[simp] theorem warnTrunc_prm (c : Bool) : (warnTrunc c s).prm = s.prm := rfl
@[simp] theorem warnTrunc_prog (c : Bool) : (warnTrunc c s).prog = s.prog := rfl
@[simp] theorem warnTrunc_estate (c : Bool) : (warnTrunc c s).estate = s.estate := rfl
@[simp] theorem warnTrunc_ibuf (c : Bool) : (warnTrunc c s).ibuf = s.ibuf := rfl
@[simp] theorem warnTrunc_obuf (c : Bool) : (warnTrunc c s).obuf = s.obuf := rfl
@[simp] theorem warnTrunc_resets (c : Bool) : (warnTrunc c s).resets = s.resets := rfl
@[simp] theorem warnTrunc_moves (c : Bool) : (warnTrunc c s).moves = s.moves := rfl
@[simp] theorem warnTrunc_resp (c : Bool) : (warnTrunc c s).resp = s.resp := rfl

/-! ### warnSectnum -/

@[simp] theorem warnSectnum_par : (warnSectnum s).par = s.par := rfl
@[simp] theorem warnSectnum_status :
    (warnSectnum s).status = { s.status with wSectnum := true } := rfl
@[simp] theorem warnSectnum_irqEn : (warnSectnum s).irqEn = s.irqEn := rfl
@[simp] theorem warnSectnum_lastCmd : (warnSectnum s).lastCmd = s.lastCmd := rfl
@[simp] theorem warnSectnum_addr : (warnSectnum s).addr = s.addr := rfl
@[simp] theorem warnSectnum_resLo : (warnSectnum s).resLo = s.resLo := rfl
@[simp] theorem warnSectnum_resHi : (warnSectnum s).resHi = s.resHi := rfl
@[simp] theorem warnSectnum_errInfo0 : (warnSectnum s).errInfo0 = s.errInfo0 := rfl
@[simp] theorem warnSectnum_errInfo1 : (warnSectnum s).errInfo1 = s.errInfo1 := rfl
@[simp] theorem warnSectnum_bufLen : (warnSectnum s).bufLen = s.bufLen := rfl
@[simp] theorem warnSectnum_msg : (warnSectnum s).msg = s.msg := rfl
@[simp] theorem warnSectnum_table : (warnSectnum s).table = s.table := rfl
@[simp] theorem warnSectnum_prm : (warnSectnum s).prm = s.prm := rfl
@[simp] theorem warnSectnum_prog : (warnSectnum s).prog = s.prog := rfl
@[simp] theorem warnSectnum_estate : (warnSectnum s).estate = s.estate := rfl
@[simp] theorem warnSectnum_ibuf : (warnSectnum s).ibuf = s.ibuf := rfl
@[simp] theorem warnSectnum_obuf : (warnSectnum s).obuf = s.obuf := rfl
@[simp] theorem warnSectnum_resets : (warnSectnum s).resets = s.resets := rfl
@[simp] theorem warnSectnum_moves : (warnSectnum s).moves = s.moves := rfl
@[simp] theorem warnSectnum_resp : (warnSectnum s).resp = s.resp := rfl

/-! ### warnDup -/

@[simp] theorem warnDup_par (c : Bool) : (warnDup c s).par = s.par := rfl
@[simp] theorem warnDup_status (c : Bool) :
    (warnDup c s).status = { s.status with wDup := s.status.wDup || c } := rfl
@[simp] theorem warnDup_irqEn (c : Bool) : (warnDup c s).irqEn = s.irqEn := rfl
@[simp] theorem warnDup_lastCmd (c : Bool) : (warnDup c s).lastCmd = s.lastCmd := rfl
@[simp] theorem warnDup_addr (c : Bool) : (warnDup c s).addr = s.addr := rfl
@[simp] theorem warnDup_resLo (c : Bool) : (warnDup c s).resLo = s.resLo := rfl
@[simp] theorem warnDup_resHi (c : Bool) : (warnDup c s).resHi = s.resHi := rfl
@[simp] theorem warnDup_errInfo0 (c : Bool) : (warnDup c s).errInfo0 = s.errInfo0 := rfl
@[simp] theorem warnDup_errInfo1 (c : Bool) : (warnDup c s).errInfo1 = s.errInfo1 := rfl
@[simp] theorem warnDup_bufLen (c : Bool) : (warnDup c s).bufLen = s.bufLen := rfl
@[simp] theorem warnDup_msg (c : Bool) : (warnDup c s).msg = s.msg := rfl
@[simp] theorem warnDup_table (c : Bool) : (warnDup c s).table = s.table := rfl
@[simp] theorem warnDup_prm (c : Bool) : (warnDup c s).prm = s.prm := rfl
@[simp] theorem warnDup_prog (c : Bool) : (warnDup c s).prog = s.prog := rfl
@[simp] theorem warnDup_estate (c : Bool) : (warnDup c s).estate = s.estate := rfl
@[simp] theorem warnDup_ibuf (c : Bool) : (warnDup c s).ibuf = s.ibuf := rfl
@[simp] theorem warnDup_obuf (c : Bool) : (warnDup c s).obuf = s.obuf := rfl
@[simp] theorem warnDup_resets (c : Bool) : (warnDup c s).resets = s.resets := rfl
@[simp] theorem warnDup_moves (c : Bool) : (warnDup c s).moves = s.moves := rfl
@[simp] theorem warnDup_resp (c : Bool) : (warnDup c s).resp = s.resp := rfl

/-! ### warnNonfinite -/

@[simp] theorem warnNonfinite_par (c : Bool) : (warnNonfinite c s).par = s.par := rfl
@[simp] theorem warnNonfinite_status (c : Bool) :
    (warnNonfinite c s).status = { s.status with wNonfinite := s.status.wNonfinite || c } := rfl
@[simp] theorem warnNonfinite_irqEn (c : Bool) : (warnNonfinite c s).irqEn = s.irqEn := rfl
@[simp] theorem warnNonfinite_lastCmd (c : Bool) : (warnNonfinite c s).lastCmd = s.lastCmd := rfl
@[simp] theorem warnNonfinite_addr (c : Bool) : (warnNonfinite c s).addr = s.addr := rfl
@[simp] theorem warnNonfinite_resLo (c : Bool) : (warnNonfinite c s).resLo = s.resLo := rfl
@[simp] theorem warnNonfinite_resHi (c : Bool) : (warnNonfinite c s).resHi = s.resHi := rfl
@[simp] theorem warnNonfinite_errInfo0 (c : Bool) : (warnNonfinite c s).errInfo0 = s.errInfo0 := rfl
@[simp] theorem warnNonfinite_errInfo1 (c : Bool) : (warnNonfinite c s).errInfo1 = s.errInfo1 := rfl
@[simp] theorem warnNonfinite_bufLen (c : Bool) : (warnNonfinite c s).bufLen = s.bufLen := rfl
@[simp] theorem warnNonfinite_msg (c : Bool) : (warnNonfinite c s).msg = s.msg := rfl
@[simp] theorem warnNonfinite_table (c : Bool) : (warnNonfinite c s).table = s.table := rfl
@[simp] theorem warnNonfinite_prm (c : Bool) : (warnNonfinite c s).prm = s.prm := rfl
@[simp] theorem warnNonfinite_prog (c : Bool) : (warnNonfinite c s).prog = s.prog := rfl
@[simp] theorem warnNonfinite_estate (c : Bool) : (warnNonfinite c s).estate = s.estate := rfl
@[simp] theorem warnNonfinite_ibuf (c : Bool) : (warnNonfinite c s).ibuf = s.ibuf := rfl
@[simp] theorem warnNonfinite_obuf (c : Bool) : (warnNonfinite c s).obuf = s.obuf := rfl
@[simp] theorem warnNonfinite_resets (c : Bool) : (warnNonfinite c s).resets = s.resets := rfl
@[simp] theorem warnNonfinite_moves (c : Bool) : (warnNonfinite c s).moves = s.moves := rfl
@[simp] theorem warnNonfinite_resp (c : Bool) : (warnNonfinite c s).resp = s.resp := rfl

/-! ### recordSection -/

@[simp] theorem recordSection_par (n a l : Nat) : (recordSection n a l s).par = s.par := rfl
@[simp] theorem recordSection_status (n a l : Nat) : (recordSection n a l s).status = s.status := rfl
@[simp] theorem recordSection_irqEn (n a l : Nat) : (recordSection n a l s).irqEn = s.irqEn := rfl
@[simp] theorem recordSection_lastCmd (n a l : Nat) : (recordSection n a l s).lastCmd = s.lastCmd := rfl
@[simp] theorem recordSection_addr (n a l : Nat) : (recordSection n a l s).addr = s.addr := rfl
@[simp] theorem recordSection_resLo (n a l : Nat) : (recordSection n a l s).resLo = s.resLo := rfl
@[simp] theorem recordSection_resHi (n a l : Nat) : (recordSection n a l s).resHi = s.resHi := rfl
@[simp] theorem recordSection_errInfo0 (n a l : Nat) : (recordSection n a l s).errInfo0 = s.errInfo0 := rfl
@[simp] theorem recordSection_errInfo1 (n a l : Nat) : (recordSection n a l s).errInfo1 = s.errInfo1 := rfl
@[simp] theorem recordSection_bufLen (n a l : Nat) : (recordSection n a l s).bufLen = s.bufLen := rfl
@[simp] theorem recordSection_msg (n a l : Nat) : (recordSection n a l s).msg = s.msg := rfl
@[simp] theorem recordSection_prm (n a l : Nat) : (recordSection n a l s).prm = s.prm := rfl
@[simp] theorem recordSection_prog (n a l : Nat) : (recordSection n a l s).prog = s.prog := rfl
@[simp] theorem recordSection_estate (n a l : Nat) : (recordSection n a l s).estate = s.estate := rfl
@[simp] theorem recordSection_ibuf (n a l : Nat) : (recordSection n a l s).ibuf = s.ibuf := rfl
@[simp] theorem recordSection_obuf (n a l : Nat) : (recordSection n a l s).obuf = s.obuf := rfl
@[simp] theorem recordSection_resets (n a l : Nat) : (recordSection n a l s).resets = s.resets := rfl
@[simp] theorem recordSection_moves (n a l : Nat) : (recordSection n a l s).moves = s.moves := rfl
@[simp] theorem recordSection_resp (n a l : Nat) : (recordSection n a l s).resp = s.resp := rfl

/-! ### setProgress -/

@[simp] theorem setProgress_par (i c k : Nat) : (setProgress i c k s).par = s.par := rfl
@[simp] theorem setProgress_status (i c k : Nat) : (setProgress i c k s).status = s.status := rfl
@[simp] theorem setProgress_irqEn (i c k : Nat) : (setProgress i c k s).irqEn = s.irqEn := rfl
@[simp] theorem setProgress_lastCmd (i c k : Nat) : (setProgress i c k s).lastCmd = s.lastCmd := rfl
@[simp] theorem setProgress_addr (i c k : Nat) : (setProgress i c k s).addr = s.addr := rfl
@[simp] theorem setProgress_resLo (i c k : Nat) : (setProgress i c k s).resLo = s.resLo := rfl
@[simp] theorem setProgress_resHi (i c k : Nat) : (setProgress i c k s).resHi = s.resHi := rfl
@[simp] theorem setProgress_errInfo0 (i c k : Nat) : (setProgress i c k s).errInfo0 = s.errInfo0 := rfl
@[simp] theorem setProgress_errInfo1 (i c k : Nat) : (setProgress i c k s).errInfo1 = s.errInfo1 := rfl
@[simp] theorem setProgress_bufLen (i c k : Nat) : (setProgress i c k s).bufLen = s.bufLen := rfl
@[simp] theorem setProgress_msg (i c k : Nat) : (setProgress i c k s).msg = s.msg := rfl
@[simp] theorem setProgress_table (i c k : Nat) : (setProgress i c k s).table = s.table := rfl
@[simp] theorem setProgress_prm (i c k : Nat) : (setProgress i c k s).prm = s.prm := rfl
@[simp] theorem setProgress_prog (i c k : Nat) :
    (setProgress i c k s).prog = { s.prog with idx := BitVec.ofNat 32 i, cursor := BitVec.ofNat 32 c, cw := BitVec.ofNat 32 k } := rfl
@[simp] theorem setProgress_estate (i c k : Nat) : (setProgress i c k s).estate = s.estate := rfl
@[simp] theorem setProgress_ibuf (i c k : Nat) : (setProgress i c k s).ibuf = s.ibuf := rfl
@[simp] theorem setProgress_obuf (i c k : Nat) : (setProgress i c k s).obuf = s.obuf := rfl
@[simp] theorem setProgress_resets (i c k : Nat) : (setProgress i c k s).resets = s.resets := rfl
@[simp] theorem setProgress_moves (i c k : Nat) : (setProgress i c k s).moves = s.moves := rfl
@[simp] theorem setProgress_resp (i c k : Nat) : (setProgress i c k s).resp = s.resp := rfl

/-! ### dropOutput -/

@[simp] theorem dropOutput_par : (dropOutput s).par = s.par := rfl
@[simp] theorem dropOutput_status :
    (dropOutput s).status = { s.status with outValid := false } := rfl
@[simp] theorem dropOutput_irqEn : (dropOutput s).irqEn = s.irqEn := rfl
@[simp] theorem dropOutput_lastCmd : (dropOutput s).lastCmd = s.lastCmd := rfl
@[simp] theorem dropOutput_addr : (dropOutput s).addr = s.addr := rfl
@[simp] theorem dropOutput_resLo : (dropOutput s).resLo = s.resLo := rfl
@[simp] theorem dropOutput_resHi : (dropOutput s).resHi = s.resHi := rfl
@[simp] theorem dropOutput_errInfo0 : (dropOutput s).errInfo0 = s.errInfo0 := rfl
@[simp] theorem dropOutput_errInfo1 : (dropOutput s).errInfo1 = s.errInfo1 := rfl
@[simp] theorem dropOutput_bufLen : (dropOutput s).bufLen = s.bufLen := rfl
@[simp] theorem dropOutput_msg : (dropOutput s).msg = s.msg := rfl
@[simp] theorem dropOutput_table : (dropOutput s).table = s.table := rfl
@[simp] theorem dropOutput_prm : (dropOutput s).prm = s.prm := rfl
@[simp] theorem dropOutput_prog :
    (dropOutput s).prog = { s.prog with outCount := 0#32 } := rfl
@[simp] theorem dropOutput_estate : (dropOutput s).estate = s.estate := rfl
@[simp] theorem dropOutput_ibuf : (dropOutput s).ibuf = s.ibuf := rfl
@[simp] theorem dropOutput_obuf : (dropOutput s).obuf = s.obuf := rfl
@[simp] theorem dropOutput_resets : (dropOutput s).resets = s.resets := rfl
@[simp] theorem dropOutput_moves : (dropOutput s).moves = s.moves := rfl
@[simp] theorem dropOutput_resp : (dropOutput s).resp = s.resp := rfl

/-! ### publishOutput -/

@[simp] theorem publishOutput_par : (publishOutput s).par = s.par := rfl
@[simp] theorem publishOutput_status :
    (publishOutput s).status = { s.status with outValid := true, busy := false, done := true } := rfl
@[simp] theorem publishOutput_irqEn : (publishOutput s).irqEn = s.irqEn := rfl
@[simp] theorem publishOutput_lastCmd : (publishOutput s).lastCmd = s.lastCmd := rfl
@[simp] theorem publishOutput_addr : (publishOutput s).addr = s.addr := rfl
@[simp] theorem publishOutput_resLo : (publishOutput s).resLo = s.resLo := rfl
@[simp] theorem publishOutput_resHi : (publishOutput s).resHi = s.resHi := rfl
@[simp] theorem publishOutput_errInfo0 : (publishOutput s).errInfo0 = s.errInfo0 := rfl
@[simp] theorem publishOutput_errInfo1 : (publishOutput s).errInfo1 = s.errInfo1 := rfl
@[simp] theorem publishOutput_bufLen : (publishOutput s).bufLen = s.bufLen := rfl
@[simp] theorem publishOutput_msg : (publishOutput s).msg = s.msg := rfl
@[simp] theorem publishOutput_table : (publishOutput s).table = s.table := rfl
@[simp] theorem publishOutput_prm : (publishOutput s).prm = s.prm := rfl
@[simp] theorem publishOutput_prog :
    (publishOutput s).prog = { s.prog with outCount := s.prm.npts } := rfl
@[simp] theorem publishOutput_estate :
    (publishOutput s).estate = .idle := rfl
@[simp] theorem publishOutput_ibuf : (publishOutput s).ibuf = s.ibuf := rfl
@[simp] theorem publishOutput_obuf : (publishOutput s).obuf = s.obuf := rfl
@[simp] theorem publishOutput_resets : (publishOutput s).resets = s.resets := rfl
@[simp] theorem publishOutput_moves : (publishOutput s).moves = s.moves := rfl
@[simp] theorem publishOutput_resp : (publishOutput s).resp = s.resp := rfl

/-! ### closeSections -/

@[simp] theorem closeSections_par (ptr : Nat) : (closeSections ptr s).par = s.par := rfl
@[simp] theorem closeSections_status (ptr : Nat) :
    (closeSections ptr s).status = { s.status with sectValid := true, busy := false, done := true } := rfl
@[simp] theorem closeSections_irqEn (ptr : Nat) : (closeSections ptr s).irqEn = s.irqEn := rfl
@[simp] theorem closeSections_lastCmd (ptr : Nat) : (closeSections ptr s).lastCmd = s.lastCmd := rfl
@[simp] theorem closeSections_addr (ptr : Nat) : (closeSections ptr s).addr = s.addr := rfl
@[simp] theorem closeSections_resLo (ptr : Nat) : (closeSections ptr s).resLo = s.resLo := rfl
@[simp] theorem closeSections_resHi (ptr : Nat) : (closeSections ptr s).resHi = s.resHi := rfl
@[simp] theorem closeSections_errInfo0 (ptr : Nat) : (closeSections ptr s).errInfo0 = s.errInfo0 := rfl
@[simp] theorem closeSections_errInfo1 (ptr : Nat) : (closeSections ptr s).errInfo1 = s.errInfo1 := rfl
@[simp] theorem closeSections_bufLen (ptr : Nat) : (closeSections ptr s).bufLen = s.bufLen := rfl
@[simp] theorem closeSections_msg (ptr : Nat) : (closeSections ptr s).msg = s.msg := rfl
@[simp] theorem closeSections_table (ptr : Nat) :
    (closeSections ptr s).table = { s.table with endAddr := BitVec.ofNat 32 ptr } := rfl
@[simp] theorem closeSections_prm (ptr : Nat) : (closeSections ptr s).prm = s.prm := rfl
@[simp] theorem closeSections_prog (ptr : Nat) : (closeSections ptr s).prog = s.prog := rfl
@[simp] theorem closeSections_estate (ptr : Nat) :
    (closeSections ptr s).estate = .idle := rfl
@[simp] theorem closeSections_ibuf (ptr : Nat) : (closeSections ptr s).ibuf = s.ibuf := rfl
@[simp] theorem closeSections_obuf (ptr : Nat) : (closeSections ptr s).obuf = s.obuf := rfl
@[simp] theorem closeSections_resets (ptr : Nat) : (closeSections ptr s).resets = s.resets := rfl
@[simp] theorem closeSections_moves (ptr : Nat) : (closeSections ptr s).moves = s.moves := rfl
@[simp] theorem closeSections_resp (ptr : Nat) : (closeSections ptr s).resp = s.resp := rfl

end Sys2Proof.Machine
end

