-- ==== Sys2Proof/Laws/Ops.lean ====
section
/-! SUPPORT. What the shared operations can do: the engine's reads, fault entry and return, completion, acceptance and
the steps that continue UNPACK. -/
namespace Sys2Proof.Machine

/-! ### Engine reads (R10, R74) -/

theorem readByte_ok {s : State} {a : Nat} {b : Byte} :
    readByte s a = .ok b ↔ a < s.bufLen.toNat ∧ Cells.read s.ibuf a = some b := by
  unfold readByte
  split
  · split <;> simp_all
  · constructor
    · intro h; cases h
    · intro h; omega

/-- An engine read fails only past BUF_LEN, or on an unwritten byte below it. -/
theorem readByte_error {s : State} {a : Nat} {f : Fault} (h : readByte s a = .error f) :
    (f = .ibufPastBufLen a ∧ s.bufLen.toNat ≤ a) ∨
      (f = .ibufUnwritten a ∧ a < s.bufLen.toNat ∧ Cells.read s.ibuf a = none) := by
  unfold readByte at h
  split at h
  · split at h
    · cases h
    · cases h; exact .inr ⟨rfl, by assumption, by assumption⟩
  · cases h; exact .inl ⟨rfl, by omega⟩

/-- Engine reads see only IBUF and BUF_LEN. -/
theorem readByte_congr {s t : State} (hi : t.ibuf = s.ibuf) (hb : t.bufLen = s.bufLen) (a : Nat) :
    readByte t a = readByte s a := by unfold readByte; rw [hi, hb]

theorem memRead_congr {s t : State} (hi : t.ibuf = s.ibuf) (hb : t.bufLen = s.bufLen) (a n : Nat) :
    memRead t a n = memRead s a n := by
  induction n generalizing a with
  | zero => rfl
  | succ n ih => simp only [memRead]; rw [readByte_congr hi hb, ih]

/-- A read of `n` bytes succeeds exactly when every one of them can be read. -/
theorem memRead_ok {s : State} {a n : Nat} {bs : List Byte} :
    memRead s a n = .ok bs ↔ bs.length = n ∧ ∀ k (h : k < bs.length), readByte s (a + k) = .ok bs[k] := by
  induction n generalizing a bs with
  | zero =>
    constructor
    · intro h; cases h; simp
    · rintro ⟨h, -⟩; rw [List.length_eq_zero_iff.1 h]; rfl
  | succ n ih =>
    constructor
    · intro h
      simp only [memRead] at h
      split at h
      · cases h
      · rename_i b hb
        split at h
        · cases h
        · rename_i rest hr
          cases h
          obtain ⟨hl, hk⟩ := ih.1 hr
          refine ⟨by simp [hl], fun k hk' => ?_⟩
          cases k with
          | zero => simpa using hb
          | succ k =>
            have := hk k (by simpa using hk')
            simpa [Nat.add_assoc, Nat.add_comm 1 k] using this
    · rintro ⟨hl, hk⟩
      cases bs with
      | nil => simp at hl
      | cons b rest =>
        have h0 := hk 0 (by simp)
        have hr : memRead s (a + 1) n = .ok rest := ih.2 ⟨by simpa using hl, fun k hk' => by
          have := hk (k + 1) (by simpa using hk')
          simpa [Nat.add_assoc, Nat.add_comm 1 k] using this⟩
        simp only [memRead]
        rw [show readByte s a = .ok b from by simpa using h0, hr]

/-- A read of `n` bytes fails only at one of them. -/
theorem memRead_error {s : State} {a n : Nat} {f : Fault} (h : memRead s a n = .error f) :
    ∃ k, k < n ∧ readByte s (a + k) = .error f := by
  induction n generalizing a with
  | zero => cases h
  | succ n ih =>
    simp only [memRead] at h
    split at h
    · rename_i g hg
      cases h; exact ⟨0, by omega, by simpa using hg⟩
    · split at h
      · rename_i g hg
        cases h
        obtain ⟨k, hk, hr⟩ := ih hg
        exact ⟨k + 1, by omega, by simpa [Nat.add_assoc, Nat.add_comm 1 k] using hr⟩
      · cases h

theorem readBE_ok {s : State} {a n v : Nat} (h : readBE s a n = .ok v) :
    ∃ bs, memRead s a n = .ok bs ∧ v = beNat bs := by
  unfold readBE at h
  split at h
  · cases h
  · rename_i bs hbs; cases h; exact ⟨bs, hbs, rfl⟩

theorem readBE_error {s : State} {a n : Nat} {f : Fault} (h : readBE s a n = .error f) :
    ∃ k, k < n ∧ readByte s (a + k) = .error f := by
  unfold readBE at h
  split at h
  · rename_i g hg; cases h; exact memRead_error hg
  · cases h

/-! ### Big-endian integers (R10, R122) -/

theorem beFrom_cons (acc : Nat) (b : Byte) (bs : List Byte) :
    beFrom acc (b :: bs) = beFrom (acc * 256 + b.toNat) bs := rfl

theorem beFrom_eq (acc : Nat) (bs : List Byte) : beFrom acc bs = acc * 256 ^ bs.length + beFrom 0 bs := by
  induction bs generalizing acc with
  | nil => simp [beFrom]
  | cons b bs ih =>
    rw [beFrom_cons, ih, beFrom_cons 0, ih (0 * 256 + b.toNat)]
    simp only [List.length_cons, Nat.pow_succ', Nat.add_mul, Nat.zero_mul, Nat.zero_add, Nat.mul_assoc]
    omega

theorem beNat_lt (bs : List Byte) : beNat bs < 256 ^ bs.length := by
  unfold beNat
  induction bs with
  | nil => simp [beFrom]
  | cons b bs ih =>
    rw [beFrom_cons, beFrom_eq, List.length_cons, Nat.pow_succ']
    have hb : b.toNat < 256 := b.isLt
    have h1 : (0 * 256 + b.toNat + 1) * 256 ^ bs.length ≤ 256 * 256 ^ bs.length := Nat.mul_le_mul_right _ (by omega)
    rw [Nat.add_mul, Nat.one_mul] at h1
    omega

/-! ### The bitstream (R9, R10) -/

theorem bitAt_congr {s t : State} (hi : t.ibuf = s.ibuf) (hb : t.bufLen = s.bufLen) (b k : Nat) :
    bitAt t b k = bitAt s b k := by unfold bitAt; rw [readByte_congr hi hb]

theorem bitAt_ok {s : State} {b k : Nat} {v : Bool} (h : bitAt s b k = .ok v) :
    ∃ x, readByte s (b + k / 8) = .ok x ∧ v = x.getLsbD (7 - k % 8) := by
  unfold bitAt at h
  split at h
  · cases h
  · rename_i x hx; cases h; exact ⟨x, hx, rfl⟩

theorem bitAt_error {s : State} {b k : Nat} {f : Fault} (h : bitAt s b k = .error f) :
    readByte s (b + k / 8) = .error f := by
  unfold bitAt at h
  split at h
  · rename_i g hg; cases h; exact hg
  · cases h

/-- A field of bits fails only at one of its bits. -/
theorem bitsFrom_error {s : State} {b acc c w : Nat} {f : Fault} (h : bitsFrom s b acc c w = .error f) :
    ∃ j, j < w ∧ readByte s (b + (c + j) / 8) = .error f := by
  induction w generalizing acc c with
  | zero => cases h
  | succ w ih =>
    simp only [bitsFrom] at h
    split at h
    · rename_i g hg
      cases h; exact ⟨0, by omega, by simpa using bitAt_error hg⟩
    · obtain ⟨j, hj, hr⟩ := ih h
      exact ⟨j + 1, by omega, by simpa [Nat.add_assoc, Nat.add_comm 1 j] using hr⟩

/-- A field of `w` bits is below `2^w`, after what has been read before. -/
theorem bitsFrom_bound {s : State} {b acc c w v : Nat} (h : bitsFrom s b acc c w = .ok v) :
    acc * 2 ^ w ≤ v ∧ v < (acc + 1) * 2 ^ w := by
  induction w generalizing acc c with
  | zero => cases h; omega
  | succ w ih =>
    simp only [bitsFrom] at h
    split at h
    · cases h
    · rename_i x hx
      have := ih h
      have hx1 : x.toNat ≤ 1 := Bool.toNat_le x
      have h1 : (2 * acc) * 2 ^ w ≤ (2 * acc + x.toNat) * 2 ^ w := Nat.mul_le_mul_right _ (by omega)
      have h2 : (2 * acc + x.toNat + 1) * 2 ^ w ≤ (2 * (acc + 1)) * 2 ^ w := Nat.mul_le_mul_right _ (by omega)
      have e1 : acc * 2 ^ (w + 1) = 2 * acc * 2 ^ w := by rw [Nat.pow_succ', Nat.mul_left_comm, Nat.mul_assoc]
      have e2 : (acc + 1) * 2 ^ (w + 1) = 2 * (acc + 1) * 2 ^ w := by
        rw [Nat.pow_succ', Nat.mul_left_comm, Nat.mul_assoc]
      omega

theorem readBits_lt {s : State} {b c w v : Nat} (h : readBits s b c w = .ok v) : v < 2 ^ w := by
  have := (bitsFrom_bound h).2; simpa using this

/-- Where every byte below BUF_LEN is written, an engine read below BUF_LEN succeeds. -/
theorem readByte_of_written {s : State} (hw : ∀ a, a < s.bufLen.toNat → (Cells.read s.ibuf a).isSome = true) {a : Nat}
    (h : a < s.bufLen.toNat) : ∃ b, readByte s a = .ok b := by
  obtain ⟨b, hb⟩ := Option.isSome_iff_exists.1 (hw a h)
  exact ⟨b, readByte_ok.2 ⟨h, hb⟩⟩

/-! ### Continuing UNPACK (R183, R184, R186) -/

/-- UNPACK either completes at point NPTS or goes on to point `i`. -/
theorem nextPoint_cases (i c k : Nat) (s : State) :
    (i = s.prm.npts.toNat ∧ nextPoint i c k s = publishOutput (setProgress i c k s)) ∨
      (i ≠ s.prm.npts.toNat ∧ nextPoint i c k s = { setProgress i c k s with estate := .unp i c k }) := by
  unfold nextPoint
  by_cases h : i = s.prm.npts.toNat
  · exact .inl ⟨h, by rw [if_pos h]⟩
  · exact .inr ⟨h, by rw [if_neg h]⟩

end Sys2Proof.Machine
end

