-- ==== Sys2Proof/Laws/Bus.lean ====
section
/-! SUPPORT. What a host access can do to the block: one lemma that lists the outcomes of a write, and the register map
read both ways. -/
namespace Sys2Proof.Machine

/-- The map of R22 and its inverse agree. -/
theorem regAt_regOffset (r : Reg) : regAt (regOffset r) = some r := by
  cases r with
  | sectAddr n => revert n; decide
  | sectLen n => revert n; decide
  | _ => decide

/-- The outcomes of a host write to a register (R25 to R50, R80). -/
theorem writeReg_cases (r : Reg) (v : Word) (s : State) :
    writeReg r v s = s ∨ writeReg r v s = dropWrite s ∨ writeReg r v s = writeStatus v s ∨
      writeReg r v s = writeCtrl v s ∨ writeReg r v s = writeIrqEn v s ∨
      (s.status.busy = false ∧
        ((s.status.err = false ∧ writeReg r v s = accept v s) ∨ writeReg r v s = { s with addr := v } ∨
          writeReg r v s = writeBufLen v s ∨ ∃ p, writeReg r v s = { s with prm := p })) := by
  unfold writeReg
  cases hb : s.status.busy with
  | true => cases r <;> simp [droppedWhileBusy, storeReg]
  | false =>
    cases r <;> simp [droppedWhileBusy, storeReg]
    case cmd =>
      unfold issueCmd
      cases he : s.status.err with
      | true => simp [hb]
      | false => simp [hb]

/-- The outcomes of a host write at any block offset (R70, R73, R78 to R80, R85). -/
theorem writeBus_cases (s : State) (size : Size) (off : Nat) (v : Word) :
    (writeBus s size off v).1 = s ∨ (writeBus s size off v).1 = dropWrite s ∨
      (writeBus s size off v).1 = writeStatus v s ∨ (writeBus s size off v).1 = writeCtrl v s ∨
      (writeBus s size off v).1 = writeIrqEn v s ∨
      (s.status.busy = false ∧
        ((s.status.err = false ∧ (writeBus s size off v).1 = accept v s) ∨
          (writeBus s size off v).1 = { s with addr := v } ∨ (writeBus s size off v).1 = writeBufLen v s ∨
          (∃ p, (writeBus s size off v).1 = { s with prm := p }) ∨
          ∃ a n, a + n ≤ s.par.ibufSize ∧
            (writeBus s size off v).1 = { s with ibuf := storeLanes s.ibuf a v.toNat n })) := by
  unfold writeBus
  split
  · split
    · split
      · rename_i r hr
        rcases writeReg_cases r v s with h | h | h | h | h | ⟨hb, h | h | h | h⟩
        · exact .inl h
        · exact .inr (.inl h)
        · exact .inr (.inr (.inl h))
        · exact .inr (.inr (.inr (.inl h)))
        · exact .inr (.inr (.inr (.inr (.inl h))))
        · exact .inr (.inr (.inr (.inr (.inr ⟨hb, .inl h⟩))))
        · exact .inr (.inr (.inr (.inr (.inr ⟨hb, .inr (.inl h)⟩))))
        · exact .inr (.inr (.inr (.inr (.inr ⟨hb, .inr (.inr (.inl h))⟩))))
        · exact .inr (.inr (.inr (.inr (.inr ⟨hb, .inr (.inr (.inr (.inl h)))⟩))))
      · exact .inl rfl
    · exact .inl rfl
  · split <;> exact .inl rfl
  · rename_i a _
    split
    · rename_i hl
      unfold writeIbuf
      cases hb : s.status.busy with
      | true => exact .inr (.inl rfl)
      | false =>
        refine .inr (.inr (.inr (.inr (.inr ⟨rfl, .inr (.inr (.inr (.inr ⟨a, sizeBytes size, ?_, rfl⟩)))⟩))))
        simp only [ibufLegal, Bool.and_eq_true, decide_eq_true_eq] at hl
        exact hl.2
    · exact .inl rfl
  · exact .inl rfl

/-- A host access is a write's outcome, or nothing, with the answer put in `resp`. -/
theorem hostAccess_cases (a : Access) (s : State) :
    ∃ r, (∃ size off, a = .read size off ∧ hostAccess a s = { s with resp := r }) ∨
      ∃ size off v, a = .write size off v ∧
        hostAccess a s = { (writeBus s size off.toNat v).1 with resp := r } := by
  cases a with
  | read size off => exact ⟨_, .inl ⟨size, off, rfl, rfl⟩⟩
  | write size off v => exact ⟨_, .inr ⟨size, off, v, rfl, rfl⟩⟩

/-! ### Windows and register offsets (R22, R70) -/

/-- The ranges R6 allows for IBUF_SIZE. -/
theorem ibufSize_bounds {p : Params} (h : p.wf) : 2 ^ 4 ≤ p.ibufSize ∧ p.ibufSize ≤ 2 ^ 31 :=
  ⟨Nat.pow_le_pow_right (by decide) h.1.1, Nat.pow_le_pow_right (by decide) h.1.2⟩

/-- The ranges R6 allows for OUT_MAX. -/
theorem outMax_bounds {p : Params} (h : p.wf) : 1 ≤ p.outMax ∧ p.outMax ≤ 2 ^ 26 :=
  ⟨Nat.one_le_two_pow, Nat.pow_le_pow_right (by decide) h.2.1⟩

theorem windowOf_regs (p : Params) {off : Nat} (h : off < 0x1000) : windowOf p off = .regs off := by
  simp [windowOf, h]

theorem windowOf_ibuf {p : Params} (hp : p.wf) {a : Nat} (h : a < p.ibufSize) :
    windowOf p (0x80000000 + a) = .ibuf a := by
  have := outMax_bounds hp
  unfold windowOf
  rw [if_neg (by omega), if_neg (by omega), if_pos (by omega), Nat.add_sub_cancel_left]

theorem windowOf_obuf {p : Params} {i w : Nat} (hi : i < p.outMax) (hw : w < 16) :
    windowOf p (0x00100000 + 16 * i + w) = .obuf i w := by
  unfold windowOf
  rw [if_neg (by omega), if_pos (by omega), show (0x00100000 + 16 * i + w - 0x00100000) / 16 = i by omega,
    show (0x00100000 + 16 * i + w - 0x00100000) % 16 = w by omega]

/-- Only a register's own offset gives that register. -/
theorem regOffset_of_regAt {off : Nat} {r : Reg} (h : regAt off = some r) : off = regOffset r := by
  rcases Nat.lt_or_ge off 0xE0 with hl | hl
  · have key : ∀ k < 0xE0, ((regAt k).map regOffset).getD k = k := by decide +kernel
    have := key off hl
    rw [h] at this
    exact this.symm
  · exfalso
    unfold regAt at h
    repeat rw [if_neg (by omega)] at h
    cases h

theorem regOffset_lt (r : Reg) : regOffset r < 0x1000 := by cases r <;> simp only [regOffset] <;> omega

theorem regOffset_aligned (r : Reg) : regOffset r % 4 = 0 := by cases r <;> simp only [regOffset] <;> omega

theorem regOffset_toNat (r : Reg) : (BitVec.ofNat 32 (regOffset r)).toNat = regOffset r := by
  have := regOffset_lt r
  simp only [BitVec.toNat_ofNat]
  omega

/-- A 32-bit host write at a register's offset is a write to that register. -/
theorem hostAccess_write_reg (r : Reg) (v : Word) (s : State) :
    hostAccess (.write .b32 (BitVec.ofNat 32 (regOffset r)) v) s = { writeReg r v s with resp := some .okay } := by
  unfold hostAccess writeBus
  simp only [regOffset_toNat, windowOf_regs _ (regOffset_lt r)]
  simp [wordLegal, regOffset_aligned, regAt_regOffset]

/-- A host read of a written OBUF entry finds the entry's word (R76). -/
theorem hostEntryWord_written {s : State} {i : Nat} {o : OutEntry} (h : Cells.read s.obuf i = some o) (w : Nat) :
    hostEntryWord s i w = entryWord o w := by
  unfold hostEntryWord
  rw [h]

end Sys2Proof.Machine
end

