-- ==== Sys2Proof/Laws/Decode.lean ====
section
/-! SUPPORT. The fields of a command word and the opcode map read both ways. -/
namespace Sys2Proof

/-- A word is its three fields (R100). -/
theorem word_fields (w : Word) : w = opcOf w ++ spanOf w ++ rsvOf w := by
  unfold opcOf spanOf rsvOf
  apply BitVec.eq_of_getLsbD_eq
  intro i hi
  simp only [BitVec.getLsbD_append, BitVec.getLsbD_extractLsb']
  rcases Nat.lt_or_ge i 20 with h | h
  · simp [h]
  · rcases Nat.lt_or_ge i 24 with h' | h'
    · simp [show ¬ i < 20 by omega, show i - 20 < 4 by omega, show 20 + (i - 20) = i by omega]
    · simp [show ¬ i < 20 by omega, show ¬ i - 20 < 4 by omega, show i - 20 - 4 < 8 by omega,
        show 24 + (i - 20 - 4) = i by omega]

/-- The fields of a word put together with RSV 0 (R100, R103). -/
theorem fields_of_append (a : Byte) (b : BitVec 4) :
    opcOf (a ++ b ++ 0#20) = a ∧ spanOf (a ++ b ++ 0#20) = b ∧ rsvOf (a ++ b ++ 0#20) = 0#20 := by
  unfold opcOf spanOf rsvOf
  refine ⟨?_, ?_, ?_⟩ <;> apply BitVec.eq_of_getLsbD_eq <;> intro i hi <;>
    rw [BitVec.getLsbD_extractLsb', BitVec.getLsbD_append, BitVec.getLsbD_append]
  · simp [show ¬ (24 + i < 20) by omega, show ¬ (24 + i - 20 < 4) by omega, show 24 + i - 20 - 4 = i by omega, hi]
  · simp [show 20 + i - 20 = i by omega, hi]
  · simp [hi]

/-- The opcode map and the opcode bytes agree (R101). -/
theorem opcodeOfByte_iff (b : Byte) (o : Opcode) : opcodeOfByte b = some o ↔ b = opcodeByte o := by
  unfold opcodeOfByte
  constructor
  · intro h
    repeat' (split at h)
    all_goals first | (cases h; assumption) | cases h
  · rintro rfl; cases o <;> decide

theorem opcOf_encode (i : Instr) : opcOf (encode i) = opcodeByte (instrOpcode i) := (fields_of_append _ _).1

theorem spanOf_encode (i : Instr) : spanOf (encode i) = instrSpan i := (fields_of_append _ _).2.1

/-- The command of an opcode and span has that opcode. -/
theorem instrOpcode_instrOf (o : Opcode) (n : BitVec 4) : instrOpcode (instrOf o n) = o := by cases o <;> rfl

/-- A word that decodes has its command's opcode (R101). -/
theorem opcOf_of_decode {w : Word} {i : Instr} (h : decode w = .ok i) : opcOf w = opcodeByte (instrOpcode i) := by
  unfold decode at h
  split at h
  · cases h
  · rename_i o ho
    split at h
    · cases h
    · split at h
      · cases h; rw [instrOpcode_instrOf]; exact (opcodeOfByte_iff _ _).1 ho
      · cases h

end Sys2Proof
end

