-- ==== Sys2Proof/Laws/Step.lean ====
section
/-! SUPPORT. What one engine step can do: one lemma per step function that lists its outcomes with their conditions. -/
namespace Sys2Proof.Machine

theorem spanFits_iff {s : State} {a n : Nat} : spanFits s a n = true ↔ a + n ≤ s.bufLen.toNat := by
  simp [spanFits]

theorem spanFits_false {s : State} {a n : Nat} : spanFits s a n = false ↔ s.bufLen.toNat < a + n := by
  simp [spanFits]

/-- The codec step: a range fault, a read that stops the model, or RES from the span (R120 to R125). -/
theorem codecStep_cases (opc : Byte) (span : Nat) (value : List Byte → DWord) (s : State) :
    (s.bufLen.toNat < s.addr.toNat + span ∧
        codecStep opc span value s = .next (raise opc .range s.addr s)) ∨
      (s.addr.toNat + span ≤ s.bufLen.toNat ∧ ∃ f, memRead s s.addr.toNat span = .error f ∧
        codecStep opc span value s = .fault f) ∨
      (s.addr.toNat + span ≤ s.bufLen.toNat ∧ ∃ bs, memRead s s.addr.toNat span = .ok bs ∧
        codecStep opc span value s = .next (finish (setRes (value bs) s))) := by
  unfold codecStep
  cases hf : spanFits s s.addr.toNat span with
  | false => exact .inl ⟨spanFits_false.1 hf, by simp⟩
  | true =>
    have hle := spanFits_iff.1 hf
    cases hm : memRead s s.addr.toNat span with
    | error f => exact .inr (.inl ⟨hle, f, rfl, by simp⟩)
    | ok bs => exact .inr (.inr ⟨hle, bs, rfl, by simp⟩)

/-- The state MSGINIT hands to the message-start reset (R141). -/
theorem execMsginit_cases (s : State) :
    (s.bufLen.toNat < 10 ∧ execMsginit s = .next (raise (opcodeByte .msginit) .undersized s.bufLen s)) ∨
      (10 ≤ s.bufLen.toNat ∧
        execMsginit s = .next (finish (messageStartReset
          { s with msg := MsgRegs.zero, status := { s.status with msgEnd := false, msgValid := false } }))) := by
  unfold execMsginit minBuf
  by_cases h : s.bufLen.toNat < 10
  · exact .inl ⟨h, by rw [if_pos h]⟩
  · exact .inr ⟨by omega, by rw [if_neg h]⟩

/-- MSGNEXT: the end of the buffer, its two faults, a read that stops the model, or a message (R143). -/
theorem execMsgnext_cases (s : State) :
    ((s.status.msgEnd = true ∨ s.bufLen.toNat ≤ s.msg.ptr.toNat) ∧ execMsgnext s = .next (endOfMessages s)) ∨
      (s.status.msgEnd = false ∧ s.msg.ptr.toNat < s.bufLen.toNat ∧
        ((s.bufLen.toNat - s.msg.ptr.toNat < 16 ∧
            execMsgnext s = .next (raise (opcodeByte .msgnext) .msgShort s.msg.ptr s)) ∨
          (s.msg.ptr.toNat + 16 ≤ s.bufLen.toNat ∧
            ((∃ f, readBE s (s.msg.ptr.toNat + s.par.s0TlenOff) s.par.s0TlenBytes = .error f ∧
                execMsgnext s = .fault f) ∨
              (∃ decl, readBE s (s.msg.ptr.toNat + s.par.s0TlenOff) s.par.s0TlenBytes = .ok decl ∧
                ((decl < 16 ∧ execMsgnext s = .next (raise (opcodeByte .msgnext) .msgLen s.msg.ptr s)) ∨
                  (16 ≤ decl ∧
                    execMsgnext s = .next (selectMessage decl (s.bufLen.toNat - s.msg.ptr.toNat) s)))))))) := by
  unfold execMsgnext s0Len
  by_cases he : s.status.msgEnd = true ∨ s.bufLen.toNat ≤ s.msg.ptr.toNat
  · refine .inl ⟨he, ?_⟩
    have : (s.status.msgEnd || decide (s.bufLen.toNat ≤ s.msg.ptr.toNat)) = true := by simpa using he
    simp [this]
  · have h1 : s.status.msgEnd = false := by
      cases h : s.status.msgEnd with
      | false => rfl
      | true => exact absurd (.inl h) he
    have h2 : s.msg.ptr.toNat < s.bufLen.toNat := by
      rcases Nat.lt_or_ge s.msg.ptr.toNat s.bufLen.toNat with h | h
      · exact h
      · exact absurd (.inr h) he
    refine .inr ⟨h1, h2, ?_⟩
    have hc : (s.status.msgEnd || decide (s.bufLen.toNat ≤ s.msg.ptr.toNat)) = false := by
      simp [h1]; omega
    simp only [hc, Bool.false_eq_true, if_false]
    by_cases hs : s.bufLen.toNat - s.msg.ptr.toNat < 16
    · exact .inl ⟨hs, by rw [if_pos hs]⟩
    · refine .inr ⟨by omega, ?_⟩
      rw [if_neg hs]
      cases hr : readBE s (s.msg.ptr.toNat + s.par.s0TlenOff) s.par.s0TlenBytes with
      | error f => exact .inl ⟨f, rfl, rfl⟩
      | ok decl =>
        refine .inr ⟨decl, rfl, ?_⟩
        by_cases hd : decl < 16
        · exact .inl ⟨hd, by simp [hd]⟩
        · exact .inr ⟨by omega, by simp [hd]⟩

/-- SECTSPLIT's start step (R149, R258): its three faults in order, a read that stops the model, or the first section. -/
theorem execSectsplit_cases (s : State) :
    (s.status.msgValid = false ∧ execSectsplit s = .next (raise (opcodeByte .sectsplit) .nomsg 0#32 s)) ∨
      (s.status.msgValid = true ∧
        ((s.bufLen.toNat < s.msg.base.toNat + s.msg.len.toNat ∧
            execSectsplit s = .next (raise (opcodeByte .sectsplit) .sectRange s.msg.base s)) ∨
          (s.msg.base.toNat + s.msg.len.toNat ≤ s.bufLen.toNat ∧
            ((∃ f, memRead s s.msg.base.toNat 4 = .error f ∧ execSectsplit s = .fault f) ∨
              (∃ m, memRead s s.msg.base.toNat 4 = .ok m ∧ m ≠ magic ∧
                execSectsplit s = .next (raise (opcodeByte .sectsplit) .magic s.msg.base (clearTable s))) ∨
              (memRead s s.msg.base.toNat 4 = .ok magic ∧
                ((∃ f k, (k = s.par.s0DiscOff ∨ k = s.par.s0EdOff) ∧ readByte s (s.msg.base.toNat + k) = .error f ∧
                    execSectsplit s = .fault f) ∨
                  (∃ disc edition, readByte s (s.msg.base.toNat + s.par.s0DiscOff) = .ok disc ∧
                    readByte s (s.msg.base.toNat + s.par.s0EdOff) = .ok edition ∧
                    execSectsplit s = .next (openSections s.msg.base.toNat (s.msg.base.toNat + s.msg.len.toNat) disc
                      edition (clearTable s))))))))) := by
  unfold execSectsplit
  have hm : memRead (clearTable s) s.msg.base.toNat 4 = memRead s s.msg.base.toNat 4 := memRead_congr rfl rfl _ _
  have hr : ∀ a, readByte (clearTable s) a = readByte s a := readByte_congr rfl rfl
  cases hv : s.status.msgValid with
  | false => exact .inl ⟨rfl, by simp⟩
  | true =>
    refine .inr ⟨rfl, ?_⟩
    by_cases he : s.bufLen.toNat < s.msg.base.toNat + s.msg.len.toNat
    · exact .inl ⟨he, by simp [he]⟩
    · refine .inr ⟨by omega, ?_⟩
      simp only [he, if_false, hm, hr, Bool.true_eq_false]
      cases hq : memRead s s.msg.base.toNat 4 with
      | error f => exact .inl ⟨f, rfl, rfl⟩
      | ok m =>
        refine .inr ?_
        by_cases hmag : m = magic
        · subst hmag
          refine .inr ⟨rfl, ?_⟩
          simp only [if_true]
          cases hd : readByte s (s.msg.base.toNat + s.par.s0DiscOff) with
          | error f => exact .inl ⟨f, _, .inl rfl, hd, rfl⟩
          | ok disc =>
            cases hed : readByte s (s.msg.base.toNat + s.par.s0EdOff) with
            | error f => exact .inl ⟨f, _, .inr rfl, hed, by simp⟩
            | ok edition => exact .inr ⟨disc, edition, rfl, rfl, by simp⟩
        · exact .inl ⟨m, rfl, hmag, by simp [hmag]⟩

/-- A header step of SECTSPLIT (R151, R152, R258): a read that stops the model, the marker, its three faults in order,
or one section taken. -/
theorem sectHeader_cases (ptr stop : Nat) (s : State) :
    (∃ f k, 4 ≤ stop - ptr ∧ k < 5 ∧ ptr + k < stop ∧ readByte s (ptr + k) = .error f ∧ sectHeader ptr stop s = .fault f) ∨
      (4 ≤ stop - ptr ∧ memRead s ptr 4 = .ok endMark ∧ sectHeader ptr stop s = .next (closeSections ptr s)) ∨
      ((4 ≤ stop - ptr → ∃ m, memRead s ptr 4 = .ok m ∧ m ≠ endMark) ∧
        ((stop - ptr < 5 ∧
            sectHeader ptr stop s = .next (raise (opcodeByte .sectsplit) .noEnd (BitVec.ofNat 32 ptr) s)) ∨
          (5 ≤ stop - ptr ∧ ∃ len num, readBE s ptr 4 = .ok len ∧ readByte s (ptr + 4) = .ok num ∧
            ((len < 5 ∧
                sectHeader ptr stop s = .next (raise (opcodeByte .sectsplit) .sectLen (BitVec.ofNat 32 ptr) s)) ∨
              (5 ≤ len ∧ stop - ptr < len ∧
                sectHeader ptr stop s = .next (raise (opcodeByte .sectsplit) .sectRange (BitVec.ofNat 32 ptr) s)) ∨
              (5 ≤ len ∧ len ≤ stop - ptr ∧
                sectHeader ptr stop s = .next (takeSection ptr stop len num.toNat s)))))) := by
  have record : sectHeader ptr stop s = headerRecord ptr stop s →
      (∃ f k, 4 ≤ stop - ptr ∧ k < 5 ∧ ptr + k < stop ∧ readByte s (ptr + k) = .error f ∧ sectHeader ptr stop s = .fault f) ∨
      ((stop - ptr < 5 ∧
            sectHeader ptr stop s = .next (raise (opcodeByte .sectsplit) .noEnd (BitVec.ofNat 32 ptr) s)) ∨
          (5 ≤ stop - ptr ∧ ∃ len num, readBE s ptr 4 = .ok len ∧ readByte s (ptr + 4) = .ok num ∧
            ((len < 5 ∧
                sectHeader ptr stop s = .next (raise (opcodeByte .sectsplit) .sectLen (BitVec.ofNat 32 ptr) s)) ∨
              (5 ≤ len ∧ stop - ptr < len ∧
                sectHeader ptr stop s = .next (raise (opcodeByte .sectsplit) .sectRange (BitVec.ofNat 32 ptr) s)) ∨
              (5 ≤ len ∧ len ≤ stop - ptr ∧
                sectHeader ptr stop s = .next (takeSection ptr stop len num.toNat s))))) := by
    intro e
    rw [e]
    unfold headerRecord
    by_cases h5 : stop - ptr < 5
    · exact .inr (.inl ⟨h5, by rw [if_pos h5]⟩)
    · rw [if_neg h5]
      cases hl : readBE s ptr 4 with
      | error f =>
        obtain ⟨k, hk, hr⟩ := readBE_error hl
        exact .inl ⟨f, k, by omega, by omega, by omega, hr, rfl⟩
      | ok len =>
        cases hn : readByte s (ptr + 4) with
        | error f => exact .inl ⟨f, 4, by omega, by omega, by omega, hn, rfl⟩
        | ok num =>
          refine .inr (.inr ⟨by omega, len, num, rfl, rfl, ?_⟩)
          by_cases hl5 : len < 5
          · exact .inl ⟨hl5, by simp [hl5]⟩
          · by_cases hr : stop - ptr < len
            · exact .inr (.inl ⟨by omega, hr, by simp [hl5, hr]⟩)
            · exact .inr (.inr ⟨by omega, by omega, by simp [hl5, hr]⟩)
  unfold sectHeader atEndMark at *
  by_cases h4 : 4 ≤ stop - ptr
  · have hlt : ∀ k, k < 4 → ptr + k < stop := fun k _ => by omega
    simp only [h4, if_true, true_implies] at *
    cases hm : memRead s ptr 4 with
    | error f =>
      obtain ⟨k, hk, hr⟩ := memRead_error hm
      exact .inl ⟨f, k, h4, by omega, hlt k hk, hr, by simp⟩
    | ok m =>
      by_cases he : m = endMark
      · subst he
        exact .inr (.inl ⟨trivial, rfl, by simp⟩)
      · rcases record (by simp [hm, he]) with h | h
        · exact .inl (by simpa [hm, he] using h)
        · exact .inr (.inr ⟨⟨m, rfl, he⟩, by simpa [hm, he] using h⟩)
  · simp only [h4, if_false, false_implies, true_and] at *
    rcases record trivial with h | h
    · exact .inl h
    · exact .inr (.inr h)

/-- UNPACK's start step (R183): its five checks in order, then completion or the first point. -/
theorem execUnpack_cases (s : State) :
    (s.prm.drt ≠ 0#16 ∧
        execUnpack s = .next (raise (opcodeByte .unpack) .template (s.prm.drt.setWidth 32) (dropOutput s))) ∨
      (s.prm.drt = 0#16 ∧ 32 < s.prm.width.toNat ∧
        execUnpack s = .next (raise (opcodeByte .unpack) .width (s.prm.width.setWidth 32) (dropOutput s))) ∨
      (s.prm.drt = 0#16 ∧ s.prm.width.toNat ≤ 32 ∧ s.par.outMax < s.prm.npts.toNat ∧
        execUnpack s = .next (raise (opcodeByte .unpack) .npts s.prm.npts (dropOutput s))) ∨
      (s.prm.drt = 0#16 ∧ s.prm.width.toNat ≤ 32 ∧ s.prm.npts.toNat ≤ s.par.outMax ∧
        s.bufLen.toNat < s.prm.dataAddr.toNat + s.prm.dataLen.toNat ∧
        execUnpack s = .next (raise (opcodeByte .unpack) .range s.prm.dataAddr (dropOutput s))) ∨
      (s.prm.drt = 0#16 ∧ s.prm.width.toNat ≤ 32 ∧ s.prm.npts.toNat ≤ s.par.outMax ∧
        s.prm.dataAddr.toNat + s.prm.dataLen.toNat ≤ s.bufLen.toNat ∧
        s.prm.bmpEn = true ∧ s.bufLen.toNat < s.prm.bmpAddr.toNat + s.prm.bmpLen.toNat ∧
        execUnpack s = .next (raise (opcodeByte .unpack) .range s.prm.bmpAddr (dropOutput s))) ∨
      (s.prm.drt = 0#16 ∧ s.prm.width.toNat ≤ 32 ∧ s.prm.npts.toNat ≤ s.par.outMax ∧
        s.prm.dataAddr.toNat + s.prm.dataLen.toNat ≤ s.bufLen.toNat ∧
        (s.prm.bmpEn = true → s.prm.bmpAddr.toNat + s.prm.bmpLen.toNat ≤ s.bufLen.toNat) ∧
        execUnpack s = .next (nextPoint 0 0 0 (dropOutput s))) := by
  unfold execUnpack wMax
  by_cases h1 : s.prm.drt = 0#16
  · by_cases h2 : 32 < s.prm.width.toNat
    · exact .inr (.inl ⟨h1, h2, by simp [h1, h2]⟩)
    · by_cases h3 : s.par.outMax < s.prm.npts.toNat
      · exact .inr (.inr (.inl ⟨h1, by omega, h3, by simp [h1, h2, h3]⟩))
      · cases h4 : spanFits s s.prm.dataAddr.toNat s.prm.dataLen.toNat with
        | false =>
          exact .inr (.inr (.inr (.inl ⟨h1, by omega, by omega, spanFits_false.1 h4, by simp [h1, h2, h3]⟩)))
        | true =>
          have h4' := spanFits_iff.1 h4
          by_cases h5 : s.prm.bmpEn = true ∧ spanFits s s.prm.bmpAddr.toNat s.prm.bmpLen.toNat = false
          · exact .inr (.inr (.inr (.inr (.inl
              ⟨h1, by omega, by omega, h4', h5.1, spanFits_false.1 h5.2, by simp [h1, h2, h3, h5]⟩))))
          · refine .inr (.inr (.inr (.inr (.inr ⟨h1, by omega, by omega, h4', fun hb => ?_, ?_⟩))))
            · cases h6 : spanFits s s.prm.bmpAddr.toNat s.prm.bmpLen.toNat with
              | false => exact absurd ⟨hb, h6⟩ h5
              | true => exact spanFits_iff.1 h6
            · simp only [h1, h2, h3, h5, ne_eq, not_true_eq_false, if_false, Bool.true_eq_false]
  · exact .inl ⟨h1, by simp [h1]⟩

/-- A point step of UNPACK (R186, R258): the bitmap fault, a read that stops the model, a masked point, the data fault, or a
present point. -/
theorem unpPoint_cases (i c k : Nat) (s : State) :
    (s.prm.bmpEn = true ∧ 8 * s.prm.bmpLen.toNat ≤ i ∧
        unpPoint i c k s = .next (raise (opcodeByte .unpack) .bmpRange (BitVec.ofNat 32 i) s)) ∨
      ((s.prm.bmpEn = true → i < 8 * s.prm.bmpLen.toNat) ∧
        ((∃ f, s.prm.bmpEn = true ∧ readByte s (s.prm.bmpAddr.toNat + i / 8) = .error f ∧
            unpPoint i c k s = .fault f) ∨
          (pointPresent s i = .ok false ∧ unpPoint i c k s = .next (maskedPoint i c k s)) ∨
          (pointPresent s i = .ok true ∧
            ((8 * s.prm.dataLen.toNat < c + s.prm.width.toNat ∧
                unpPoint i c k s = .next (raise (opcodeByte .unpack) .dataRange (BitVec.ofNat 32 i) s)) ∨
              (c + s.prm.width.toNat ≤ 8 * s.prm.dataLen.toNat ∧
                ((∃ f j, j < s.prm.width.toNat ∧ readByte s (s.prm.dataAddr.toNat + (c + j) / 8) = .error f ∧
                    unpPoint i c k s = .fault f) ∨
                  (∃ raw, readBits s s.prm.dataAddr.toNat c s.prm.width.toNat = .ok raw ∧
                    unpPoint i c k s = .next (presentPoint i c k raw s)))))))) := by
  unfold unpPoint
  by_cases hb : s.prm.bmpEn = true ∧ 8 * s.prm.bmpLen.toNat ≤ i
  · exact .inl ⟨hb.1, hb.2, by simp [hb]⟩
  · refine .inr ⟨fun h => ?_, ?_⟩
    · rcases Nat.lt_or_ge i (8 * s.prm.bmpLen.toNat) with h' | h'
      · exact h'
      · exact absurd ⟨h, h'⟩ hb
    · simp only [hb, if_false]
      cases hp : pointPresent s i with
      | error f =>
        refine .inl ⟨f, ?_⟩
        unfold pointPresent at hp
        split at hp
        · rename_i he; exact ⟨he, bitAt_error hp, rfl⟩
        · cases hp
      | ok present =>
        cases present with
        | false => exact .inr (.inl ⟨rfl, rfl⟩)
        | true =>
          refine .inr (.inr ⟨rfl, ?_⟩)
          by_cases hd : 8 * s.prm.dataLen.toNat < c + s.prm.width.toNat
          · exact .inl ⟨hd, by simp [hd]⟩
          · refine .inr ⟨by omega, ?_⟩
            simp only [hd, if_false]
            cases hr : readBits s s.prm.dataAddr.toNat c s.prm.width.toNat with
            | error f =>
              obtain ⟨j, hj, hq⟩ := bitsFrom_error hr
              exact .inl ⟨f, j, hj, hq, rfl⟩
            | ok raw => exact .inr ⟨raw, rfl, rfl⟩

/-! ### One step (R297, R299) -/

@[simp] theorem engineStep_idle {s : State} (h : s.estate = .idle) : engineStep s = .next s := by
  unfold engineStep; rw [h]

theorem engineStep_start {s : State} {w : Word} {i : Instr} (h : s.estate = .start w) (hd : decode w = .ok i) :
    engineStep s = exec i s := by unfold engineStep; rw [h]; simp [hd]

theorem engineStep_illegal {s : State} {w : Word} {e : DecodeError} (h : s.estate = .start w)
    (hd : decode w = .error e) : engineStep s = .next (illegalWord w s) := by
  unfold engineStep; rw [h]; simp [hd]

theorem engineStep_sect {s : State} {ptr stop : Nat} (h : s.estate = .sect ptr stop) :
    engineStep s = sectHeader ptr stop s := by unfold engineStep; rw [h]

theorem engineStep_unp {s : State} {i c k : Nat} (h : s.estate = .unp i c k) :
    engineStep s = unpPoint i c k s := by unfold engineStep; rw [h]

theorem step_engine {s : State} (h : s.moves = []) : step s = engineStep s := by unfold step; rw [h]

end Sys2Proof.Machine
end

