-- ==== Sys2Proof/Laws/Engine.lean ====
section
/-! SUPPORT. Every next state one engine step can give, each with the conditions it comes with; what continuing UNPACK and
recording a section change; runs of an idle engine. -/
namespace Sys2Proof.Machine

/-- The next states of an engine step from `s`, one constructor for each way a command goes on, completes or faults. -/
inductive EngineForm (s : State) : State → Prop where
  | idle : s.estate = .idle → EngineForm s s
  | illegal {w : Word} {e : DecodeError} : s.estate = .start w → decode w = .error e → EngineForm s (illegalWord w s)
  | nop {w : Word} : s.estate = .start w → decode w = .ok .nop → EngineForm s (finish s)
  | codecFault {w : Word} {i : Instr} : s.estate = .start w → decode w = .ok i →
      (∃ n, i = .uint n ∨ i = .smint n) ∨ i = .f32 →
      EngineForm s (raise (opcodeByte (instrOpcode i)) .range s.addr s)
  | codec {w : Word} {i : Instr} {v : DWord} : s.estate = .start w → decode w = .ok i →
      (∃ n, i = .uint n ∨ i = .smint n) ∨ i = .f32 → EngineForm s (finish (setRes v s))
  | initFault {w : Word} : s.estate = .start w → decode w = .ok .msginit →
      EngineForm s (raise (opcodeByte .msginit) .undersized s.bufLen s)
  | init {w : Word} : s.estate = .start w → decode w = .ok .msginit →
      EngineForm s (finish (messageStartReset
        { s with msg := MsgRegs.zero, status := { s.status with msgEnd := false, msgValid := false } }))
  | nextEnd {w : Word} : s.estate = .start w → decode w = .ok .msgnext → EngineForm s (endOfMessages s)
  | nextFault {w : Word} {e : ErrCode} : s.estate = .start w → decode w = .ok .msgnext → e = .msgShort ∨ e = .msgLen →
      EngineForm s (raise (opcodeByte .msgnext) e s.msg.ptr s)
  | nextMsg {w : Word} {decl : Nat} : s.estate = .start w → decode w = .ok .msgnext → s.status.msgEnd = false →
      s.msg.ptr.toNat + 16 ≤ s.bufLen.toNat → 16 ≤ decl →
      EngineForm s (selectMessage decl (s.bufLen.toNat - s.msg.ptr.toNat) s)
  | splitFault {w : Word} {e : ErrCode} {info : Word} : s.estate = .start w → decode w = .ok .sectsplit →
      e = .nomsg ∨ e = .sectRange → EngineForm s (raise (opcodeByte .sectsplit) e info s)
  | splitMagic {w : Word} {info : Word} : s.estate = .start w → decode w = .ok .sectsplit → s.status.msgValid = true →
      EngineForm s (raise (opcodeByte .sectsplit) .magic info (clearTable s))
  | split {w : Word} {disc edition : Byte} : s.estate = .start w → decode w = .ok .sectsplit →
      s.status.msgValid = true → s.msg.base.toNat + s.msg.len.toNat ≤ s.bufLen.toNat →
      EngineForm s (openSections s.msg.base.toNat (s.msg.base.toNat + s.msg.len.toNat) disc edition (clearTable s))
  | unpFault {w : Word} {e : ErrCode} {info : Word} : s.estate = .start w → decode w = .ok .unpack →
      e = .template ∨ e = .width ∨ e = .npts ∨ e = .range →
      EngineForm s (raise (opcodeByte .unpack) e info (dropOutput s))
  | unp {w : Word} : s.estate = .start w → decode w = .ok .unpack → s.prm.drt = 0#16 → s.prm.width.toNat ≤ 32 →
      s.prm.npts.toNat ≤ s.par.outMax → s.prm.dataAddr.toNat + s.prm.dataLen.toNat ≤ s.bufLen.toNat →
      (s.prm.bmpEn = true → s.prm.bmpAddr.toNat + s.prm.bmpLen.toNat ≤ s.bufLen.toNat) →
      EngineForm s (nextPoint 0 0 0 (dropOutput s))
  | close {ptr stop : Nat} : s.estate = .sect ptr stop → 4 ≤ stop - ptr → memRead s ptr 4 = .ok endMark →
      EngineForm s (closeSections ptr s)
  | headFault {ptr stop : Nat} {e : ErrCode} : s.estate = .sect ptr stop →
      e = .noEnd ∨ e = .sectLen ∨ e = .sectRange →
      EngineForm s (raise (opcodeByte .sectsplit) e (BitVec.ofNat 32 ptr) s)
  | take {ptr stop len : Nat} {num : Byte} {m : List Byte} : s.estate = .sect ptr stop → 5 ≤ len → len ≤ stop - ptr →
      memRead s ptr 4 = .ok m → m ≠ endMark → readBE s ptr 4 = .ok len → readByte s (ptr + 4) = .ok num →
      EngineForm s (takeSection ptr stop len num.toNat s)
  | pointFault {i c k : Nat} {e : ErrCode} : s.estate = .unp i c k → e = .bmpRange ∨ e = .dataRange →
      EngineForm s (raise (opcodeByte .unpack) e (BitVec.ofNat 32 i) s)
  | masked {i c k : Nat} : s.estate = .unp i c k → EngineForm s (maskedPoint i c k s)
  | present {i c k raw : Nat} : s.estate = .unp i c k → c + s.prm.width.toNat ≤ 8 * s.prm.dataLen.toNat →
      EngineForm s (presentPoint i c k raw s)

theorem next_inj {a b : State} (h : (Host.Outcome.next a : Result) = .next b) : b = a := by cases h; rfl

/-- A codec step's next states. -/
theorem codecStep_next {opc : Byte} {span : Nat} {value : List Byte → DWord} {s t : State}
    (h : codecStep opc span value s = .next t) :
    t = raise opc .range s.addr s ∨ ∃ v, t = finish (setRes v s) := by
  rcases codecStep_cases opc span value s with ⟨_, h'⟩ | ⟨_, f, _, h'⟩ | ⟨_, bs, _, h'⟩ <;> rw [h'] at h
  · exact .inl (next_inj h)
  · cases h
  · exact .inr ⟨_, next_inj h⟩

/-- Every next state of an engine step is one of the listed forms. -/
theorem engineForm_of_next {s t : State} (h : engineStep s = .next t) : EngineForm s t := by
  cases he : s.estate with
  | idle => rw [engineStep_idle he] at h; rw [next_inj h]; exact .idle he
  | start w =>
    cases hd : decode w with
    | error e => rw [engineStep_illegal he hd] at h; rw [next_inj h]; exact .illegal he hd
    | ok i =>
      rw [engineStep_start he hd] at h
      cases i with
      | nop => rw [next_inj h]; exact .nop he hd
      | uint n =>
        rcases codecStep_next h with rfl | ⟨v, rfl⟩
        · exact .codecFault he hd (.inl ⟨n, .inl rfl⟩)
        · exact .codec he hd (.inl ⟨n, .inl rfl⟩)
      | smint n =>
        rcases codecStep_next h with rfl | ⟨v, rfl⟩
        · exact .codecFault he hd (.inl ⟨n, .inr rfl⟩)
        · exact .codec he hd (.inl ⟨n, .inr rfl⟩)
      | f32 =>
        rcases codecStep_next h with rfl | ⟨v, rfl⟩
        · exact .codecFault he hd (.inr rfl)
        · exact .codec he hd (.inr rfl)
      | msginit =>
        rcases execMsginit_cases s with ⟨_, h'⟩ | ⟨_, h'⟩ <;>
          (rw [show exec .msginit s = _ from h'] at h; rw [next_inj h])
        · exact .initFault he hd
        · exact .init he hd
      | msgnext =>
        rcases execMsgnext_cases s with
          ⟨_, h'⟩ | ⟨h1, h2, ⟨_, h'⟩ | ⟨h3, ⟨f, _, h'⟩ | ⟨decl, _, ⟨_, h'⟩ | ⟨h4, h'⟩⟩⟩⟩ <;>
          rw [show exec .msgnext s = _ from h'] at h
        · rw [next_inj h]; exact .nextEnd he hd
        · rw [next_inj h]; exact .nextFault he hd (.inl rfl)
        · cases h
        · rw [next_inj h]; exact .nextFault he hd (.inr rfl)
        · rw [next_inj h]; exact .nextMsg he hd h1 h3 h4
      | sectsplit =>
        rcases execSectsplit_cases s with
          ⟨_, h'⟩ | ⟨h1, ⟨_, h'⟩ | ⟨h2, ⟨f, _, h'⟩ | ⟨m, _, _, h'⟩ | ⟨_, ⟨f, k, _, _, h'⟩ | ⟨d, ed, _, _, h'⟩⟩⟩⟩ <;>
          rw [show exec .sectsplit s = _ from h'] at h
        · rw [next_inj h]; exact .splitFault he hd (.inl rfl)
        · rw [next_inj h]; exact .splitFault he hd (.inr rfl)
        · cases h
        · rw [next_inj h]; exact .splitMagic he hd h1
        · cases h
        · rw [next_inj h]; exact .split he hd h1 h2
      | unpack =>
        rcases execUnpack_cases s with
          ⟨_, h'⟩ | ⟨_, _, h'⟩ | ⟨_, _, _, h'⟩ | ⟨_, _, _, _, h'⟩ | ⟨_, _, _, _, _, _, h'⟩ | ⟨h1, h2, h3, h4, h5, h'⟩ <;>
          (rw [show exec .unpack s = _ from h'] at h; rw [next_inj h])
        · exact .unpFault he hd (.inl rfl)
        · exact .unpFault he hd (.inr (.inl rfl))
        · exact .unpFault he hd (.inr (.inr (.inl rfl)))
        · exact .unpFault he hd (.inr (.inr (.inr rfl)))
        · exact .unpFault he hd (.inr (.inr (.inr rfl)))
        · exact .unp he hd h1 h2 h3 h4 h5
  | sect ptr stop =>
    rw [engineStep_sect he] at h
    rcases sectHeader_cases ptr stop s with
      ⟨f, k, _, _, _, _, h'⟩ | ⟨h1, h2, h'⟩ |
      ⟨hm, ⟨_, h'⟩ | ⟨h5, len, num, h6, h7, ⟨_, h'⟩ | ⟨_, _, h'⟩ | ⟨h8, h9, h'⟩⟩⟩ <;> rw [h'] at h
    · cases h
    · rw [next_inj h]; exact .close he h1 h2
    · rw [next_inj h]; exact .headFault he (.inl rfl)
    · rw [next_inj h]; exact .headFault he (.inr (.inl rfl))
    · rw [next_inj h]; exact .headFault he (.inr (.inr rfl))
    · rw [next_inj h]
      obtain ⟨m, hm1, hm2⟩ := hm (by omega)
      exact .take he h8 h9 hm1 hm2 h6 h7
  | unp i c k =>
    rw [engineStep_unp he] at h
    rcases unpPoint_cases i c k s with
      ⟨_, _, h'⟩ | ⟨_, ⟨f, _, _, h'⟩ | ⟨_, h'⟩ | ⟨_, ⟨_, h'⟩ | ⟨h1, ⟨f, j, _, _, h'⟩ | ⟨raw, _, h'⟩⟩⟩⟩ <;> rw [h'] at h
    · rw [next_inj h]; exact .pointFault he (.inl rfl)
    · cases h
    · rw [next_inj h]; exact .masked he
    · rw [next_inj h]; exact .pointFault he (.inr rfl)
    · cases h
    · rw [next_inj h]; exact .present he h1

/-! ### Continuing UNPACK -/

/-- Continuing UNPACK changes the progress registers, STATUS and ESTATE only. -/
theorem nextPoint_eq (i c k : Nat) (s : State) :
    nextPoint i c k s =
      { s with
        prog := (nextPoint i c k s).prog, status := (nextPoint i c k s).status
        estate := (nextPoint i c k s).estate } := by
  rcases nextPoint_cases i c k s with ⟨_, h⟩ | ⟨_, h⟩ <;> rw [h] <;> rfl

/-- Of STATUS, continuing UNPACK changes OUT_VALID, BUSY and DONE only. -/
theorem nextPoint_status (i c k : Nat) (s : State) :
    (nextPoint i c k s).status =
      { s.status with
        outValid := (nextPoint i c k s).status.outValid, busy := (nextPoint i c k s).status.busy
        done := (nextPoint i c k s).status.done } := by
  rcases nextPoint_cases i c k s with ⟨_, h⟩ | ⟨_, h⟩ <;> rw [h] <;> rfl

/-! ### The section table -/

theorem slot_empty (n : Fin 9) : SectTable.empty.slots[n] = Slot.absent := by revert n; decide

theorem slotPresent_eq (s : State) (n : Fin 9) : slotPresent s n.val = s.table.slots[n].present := by
  unfold slotPresent
  rw [Vector.getElem?_eq_getElem n.isLt]
  rfl

theorem recordSection_slots (s : State) (n addr len : Nat) (m : Fin 9) :
    (recordSection n addr len s).table.slots[m] =
      if m.val = n then { present := true, addr := BitVec.ofNat 32 addr, len := BitVec.ofNat 32 len }
      else s.table.slots[m] := by
  simp only [recordSection]
  show (s.table.slots.setIfInBounds n _)[m.val] = _
  rw [Vector.getElem_setIfInBounds]
  by_cases h : n = m.val
  · subst h; simp
  · rw [if_neg h, if_neg (Ne.symm h)]; rfl

/-- The table after SECTSPLIT's start step: section 0 alone (R149). -/
theorem openSections_slots (base stop : Nat) (disc edition : Byte) (s : State) (m : Fin 9) :
    (openSections base stop disc edition (clearTable s)).table.slots[m] =
      if m.val = 0 then { present := true, addr := BitVec.ofNat 32 base, len := 16#32 } else Slot.absent := by
  have := recordSection_slots (clearTable s) 0 base 16 m
  rw [show (clearTable s).table.slots[m] = Slot.absent from slot_empty m] at this
  simpa [openSections, s0Len] using this

/-- The table after a section is taken: numbers 1 to 8 take their slot, any other number none (R152). -/
theorem takeSection_slots (ptr stop len : Nat) (num : Byte) (s : State) (n : Fin 9) :
    (takeSection ptr stop len num.toNat s).table.slots[n] =
      if n.val = num.toNat ∧ n ≠ 0 then { present := true, addr := BitVec.ofNat 32 ptr, len := BitVec.ofNat 32 len }
      else s.table.slots[n] := by
  unfold takeSection
  split
  · rename_i h
    have := recordSection_slots (warnDup (slotPresent s num.toNat) s) num.toNat ptr len n
    simp only
    rw [this]
    have e : (n.val = num.toNat ∧ n ≠ 0) ↔ n.val = num.toNat :=
      ⟨And.left, fun e => ⟨e, fun z => by rw [z] at e; simp at e; omega⟩⟩
    simp only [e]
    rfl
  · rename_i h
    have hh : ¬ (n.val = num.toNat ∧ n ≠ 0) := by
      rintro ⟨e, z⟩
      apply h
      have : n.val ≠ 0 := fun h => z (Fin.ext h)
      omega
    rw [if_neg hh]
    rfl

/-- Taking a section changes the slots, STATUS and ESTATE only. -/
theorem takeSection_eq (ptr stop len num : Nat) (s : State) :
    takeSection ptr stop len num s =
      { s with
        table := { s.table with slots := (takeSection ptr stop len num s).table.slots }
        status := (takeSection ptr stop len num s).status, estate := .sect (ptr + len) stop } := by
  unfold takeSection
  split <;> rfl

/-- Of STATUS, taking a section changes W_SECTNUM and W_DUP only, and clears neither. -/
theorem takeSection_status (ptr stop len num : Nat) (s : State) :
    ∃ a b, (takeSection ptr stop len num s).status =
      { s.status with wSectnum := s.status.wSectnum || a, wDup := s.status.wDup || b } := by
  unfold takeSection
  split
  · exact ⟨false, slotPresent s num, by simp [recordSection, warnDup]⟩
  · exact ⟨true, false, by simp [warnSectnum]⟩

/-! ### Runs -/

/-- An idle engine stays as it is (R294). -/
theorem engineRun_idle {s : State} (h : s.estate = .idle) (k : Nat) : engineRun k s = .next s := by
  induction k with
  | zero => rfl
  | succ k ih => simp only [engineRun, engineStep_idle h]; exact ih

end Sys2Proof.Machine
end

