-- ==== Sys2Proof/Laws/Flags.lean ====
section
/-! SUPPORT. The bits of a word that is put together from its fields. -/
namespace Sys2Proof.Machine

@[simp] theorem getLsbD_place {n : Nat} (lo : Nat) (v : BitVec n) (i : Nat) :
    (place lo v).getLsbD i = (decide (i < 32) && decide (lo ≤ i) && v.getLsbD (i - lo)) := by
  simp only [place, BitVec.getLsbD_shiftLeft, BitVec.getLsbD_setWidth]
  by_cases h1 : i < 32
  · by_cases h2 : lo ≤ i
    · simp [h1, h2, show i - lo < 32 by omega]
    · simp [h2, Nat.lt_of_not_le h2]
  · simp [h1]

@[simp] theorem getLsbD_placeBit (k : Nat) (b : Bool) (i : Nat) :
    (placeBit k b).getLsbD i = (decide (i < 32) && decide (i = k) && b) := by
  simp only [placeBit, getLsbD_place, BitVec.getLsbD_ofBool]
  rcases Nat.lt_trichotomy i k with h | rfl | h
  · simp [show ¬ k ≤ i by omega, show i ≠ k by omega]
  · simp
  · simp [show ¬ i - k = 0 by omega, show i ≠ k by omega]

end Sys2Proof.Machine
end

