-- ==== Sys2Proof/Laws/Float.lean ====
section
/-! SUPPORT. The pieces of `fl64`: the fields of a pattern put together from its sign and magnitude bits, the value of a
pattern, and what `floorLog2` and `roundEven` compute, over the rationals. A proof cites these and does not unfold
`ratValue` at a concrete exponent, where the kernel would work out a power like 2^-1074. -/
namespace Sys2Proof.Machine

/-! ### Patterns -/

theorem signed64_toNat (neg : Bool) {mag : Nat} (h : mag < 2 ^ 63) :
    (signed64 neg mag).toNat = neg.toNat * 2 ^ 63 + mag := by
  unfold signed64
  rw [BitVec.toNat_ofNat, Nat.mod_eq_of_lt]
  cases neg <;> simp <;> omega

theorem signed64_msb (neg : Bool) {mag : Nat} (h : mag < 2 ^ 63) : (signed64 neg mag).msb = neg := by
  rw [BitVec.msb_eq_decide, signed64_toNat neg h]
  cases neg <;> simp
  omega

theorem signed64_exp (neg : Bool) {mag : Nat} (h : mag < 2 ^ 63) :
    ((signed64 neg mag).extractLsb' 52 11).toNat = mag / 2 ^ 52 := by
  rw [BitVec.extractLsb'_toNat, signed64_toNat neg h, Nat.shiftRight_eq_div_pow]
  cases neg <;> simp <;> omega

theorem signed64_frac (neg : Bool) {mag : Nat} (h : mag < 2 ^ 63) :
    ((signed64 neg mag).extractLsb' 0 52).toNat = mag % 2 ^ 52 := by
  rw [BitVec.extractLsb'_toNat, signed64_toNat neg h, Nat.shiftRight_eq_div_pow]
  cases neg <;> simp
  omega

theorem signed64_lsb (neg : Bool) {mag : Nat} (h : mag < 2 ^ 63) :
    (signed64 neg mag).getLsbD 0 = decide (mag % 2 = 1) := by
  have : (signed64 neg mag).toNat % 2 = mag % 2 := by
    rw [signed64_toNat neg h]
    cases neg <;> simp
    omega
  simp only [BitVec.getLsbD, Nat.testBit_zero]
  rw [this]

theorem unpack_signed64 (neg : Bool) {mag : Nat} (h : mag < 2 ^ 63) :
    unpack64 (signed64 neg mag) =
      if mag / 2 ^ 52 = 2047 then (if mag % 2 ^ 52 = 0 then .inf neg else .nan)
      else if mag / 2 ^ 52 = 0 then .fin neg (mag % 2 ^ 52) (-1074)
      else .fin neg (2 ^ 52 + mag % 2 ^ 52) ((mag / 2 ^ 52 : Nat) - 1075) := by
  unfold unpack64
  simp only [signed64_exp neg h, signed64_frac neg h, signed64_msb neg h]

theorem unpack_subnormal (neg : Bool) {mag : Nat} (h : mag < 2 ^ 63) (h0 : mag / 2 ^ 52 = 0) :
    unpack64 (signed64 neg mag) = .fin neg (mag % 2 ^ 52) (-1074) := by
  rw [unpack_signed64 neg h, if_neg (by omega), if_pos h0]

theorem unpack_normal (neg : Bool) {mag : Nat} (h : mag < 2 ^ 63) (h1 : mag / 2 ^ 52 ≠ 2047)
    (h0 : mag / 2 ^ 52 ≠ 0) :
    unpack64 (signed64 neg mag) = .fin neg (2 ^ 52 + mag % 2 ^ 52) ((mag / 2 ^ 52 : Nat) - 1075) := by
  rw [unpack_signed64 neg h, if_neg h1, if_neg h0]

theorem unpack_inf64 (neg : Bool) : unpack64 (inf64 neg) = .inf neg := by cases neg <;> decide

/-- Every pattern is a sign and magnitude bits. -/
theorem exists_signed64 (b : B64) : ∃ neg mag, mag < 2 ^ 63 ∧ b = signed64 neg mag := by
  refine ⟨b.msb, b.toNat % 2 ^ 63, Nat.mod_lt _ (by norm_num), ?_⟩
  apply BitVec.eq_of_toNat_eq
  rw [signed64_toNat _ (Nat.mod_lt _ (by norm_num)), BitVec.msb_eq_decide]
  have := b.isLt
  by_cases h : 2 ^ 63 ≤ b.toNat
  · rw [show decide (2 ^ (64 - 1) ≤ b.toNat) = true from decide_eq_true h]
    simp only [Bool.toNat_true]
    omega
  · rw [show decide (2 ^ (64 - 1) ≤ b.toNat) = false from decide_eq_false h]
    simp only [Bool.toNat_false]
    omega

/-- The sign a finite or infinite value has is the pattern's sign bit. -/
theorem unpack64_sign {b : B64} {g : Bool} {m : Nat} {e : Int} (h : unpack64 b = .fin g m e) : g = b.msb := by
  unfold unpack64 at h
  simp only at h
  split at h
  · split at h <;> simp at h
  · split at h <;> simp only [FVal.fin.injEq] at h <;> exact h.1.symm

/-! ### Values -/

theorem ratValue_fin {b : B64} {neg : Bool} {m : Nat} {e : Int} (h : unpack64 b = .fin neg m e) :
    ratValue b = some ((if neg then -1 else 1) * (m : ℚ) * (2 : ℚ) ^ e) := by unfold ratValue; rw [h]

theorem ratValue_nan {b : B64} (h : unpack64 b = .nan) : ratValue b = none := by unfold ratValue; rw [h]

theorem ratValue_inf {b : B64} {g : Bool} (h : unpack64 b = .inf g) : ratValue b = none := by unfold ratValue; rw [h]

theorem eq_of_ratValue {b : B64} {neg : Bool} {m : Nat} {e : Int} {z : ℚ} (h : unpack64 b = .fin neg m e)
    (hz : ratValue b = some z) : z = (if neg then -1 else 1) * ((m : ℚ) * (2 : ℚ) ^ e) := by
  rw [ratValue_fin h] at hz
  rw [← Option.some.inj hz, mul_assoc]

/-- A finite value is a significand below 2^53 times a power of two from -1074 to 971. -/
theorem ratValue_form {b : B64} {z : ℚ} (h : ratValue b = some z) :
    ∃ (neg : Bool) (m : Nat) (x : Int),
      z = (if neg then -1 else 1) * ((m : ℚ) * 2 ^ x) ∧ -1074 ≤ x ∧ m < 2 ^ 53 ∧ x ≤ 971 := by
  obtain ⟨neg, mag, hm, rfl⟩ := exists_signed64 b
  by_cases h1 : mag / 2 ^ 52 = 2047
  · exfalso
    have : unpack64 (signed64 neg mag) = .nan ∨ ∃ g, unpack64 (signed64 neg mag) = .inf g := by
      rw [unpack_signed64 neg hm, if_pos h1]
      split
      · exact .inr ⟨_, rfl⟩
      · exact .inl rfl
    rcases this with e | ⟨g, e⟩
    · rw [ratValue_nan e] at h; cases h
    · rw [ratValue_inf e] at h; cases h
  · by_cases h2 : mag / 2 ^ 52 = 0
    · exact ⟨neg, _, _, eq_of_ratValue (unpack_subnormal neg hm h2) h, le_refl _, by omega, by omega⟩
    · exact ⟨neg, _, _, eq_of_ratValue (unpack_normal neg hm h1 h2) h, by omega, by omega, by omega⟩

/-- The magnitude bits `roundMag` makes from a spacing exponent `e` and a significand `q` have the value `q * 2^e`. -/
theorem ratValue_mag (neg : Bool) {e : Int} {q : Nat} (he : -1074 ≤ e) (hq : q ≤ 2 ^ 53) (hn : e ≠ -1074 → 2 ^ 52 ≤ q)
    (hm : (e + 1074).toNat * 2 ^ 52 + q < infMag) :
    ratValue (signed64 neg ((e + 1074).toNat * 2 ^ 52 + q)) =
      some ((if neg then -1 else 1) * ((q : ℚ) * (2 : ℚ) ^ e)) := by
  obtain ⟨k, rfl⟩ : ∃ k : Nat, e = (k : Int) - 1074 := ⟨(e + 1074).toNat, by omega⟩
  have hk : ((k : Int) - 1074 + 1074).toNat = k := by omega
  rw [hk] at hm ⊢
  unfold infMag at hm
  have z : (2 : ℚ) ≠ 0 := by norm_num
  by_cases h0 : (k * 2 ^ 52 + q) / 2 ^ 52 = 0
  · have hk0 : k = 0 := by omega
    subst hk0
    rw [ratValue_fin (unpack_subnormal neg (by omega) h0), show (0 * 2 ^ 52 + q) % 2 ^ 52 = q by omega, mul_assoc]
    rfl
  · rw [ratValue_fin (unpack_normal neg (by omega) (by omega) h0), mul_assoc]
    by_cases hq2 : q = 2 ^ 53
    · rw [show (k * 2 ^ 52 + q) % 2 ^ 52 = 0 by omega, show (k * 2 ^ 52 + q) / 2 ^ 52 = k + 2 by omega]
      rw [show (((k + 2 : Nat) : Int) - 1075) = ((k : Int) - 1074) + 1 by push_cast; ring, zpow_add₀ z, hq2]
      generalize (2 : ℚ) ^ ((k : ℤ) - 1074) = p
      congr 2
      push_cast
      ring
    · by_cases hq1 : 2 ^ 52 ≤ q
      · rw [show (k * 2 ^ 52 + q) % 2 ^ 52 = q - 2 ^ 52 by omega, show (k * 2 ^ 52 + q) / 2 ^ 52 = k + 1 by omega,
          show 2 ^ 52 + (q - 2 ^ 52) = q by omega]
        rw [show (((k + 1 : Nat) : Int) - 1075) = ((k : Int) - 1074) by push_cast; ring]
      · exfalso
        apply hq1
        apply hn
        omega

/-! ### Rounding -/

/-- `floorLog2` is the exponent of the leading bit of the rational. -/
theorem floorLog2_spec {num den : Nat} (hn : 0 < num) (hd : 0 < den) :
    (2 : ℚ) ^ (floorLog2 num den) ≤ (num : ℚ) / den ∧ (num : ℚ) / den < (2 : ℚ) ^ (floorLog2 num den + 1) := by
  have z : (2 : ℚ) ≠ 0 := by norm_num
  have hdq : (0 : ℚ) < den := by exact_mod_cast hd
  have n1 : 2 ^ num.log2 ≤ num := Nat.log2_self_le (by omega)
  have n2 : num < 2 ^ (num.log2 + 1) := Nat.lt_log2_self
  have d1 : 2 ^ den.log2 ≤ den := Nat.log2_self_le (by omega)
  have d2 : den < 2 ^ (den.log2 + 1) := Nat.lt_log2_self
  have n1q : (2 : ℚ) ^ (num.log2 : ℤ) ≤ num := by rw [zpow_natCast]; exact_mod_cast n1
  have n2q : (num : ℚ) < (2 : ℚ) ^ ((num.log2 : ℤ) + 1) := by rw [← Nat.cast_succ, zpow_natCast]; exact_mod_cast n2
  have d1q : (2 : ℚ) ^ (den.log2 : ℤ) ≤ den := by rw [zpow_natCast]; exact_mod_cast d1
  have d2q : (den : ℚ) < (2 : ℚ) ^ ((den.log2 : ℤ) + 1) := by rw [← Nat.cast_succ, zpow_natCast]; exact_mod_cast d2
  have pd : ∀ x : ℤ, (0 : ℚ) < 2 ^ x := fun x => by positivity
  have up : (num : ℚ) / den < 2 ^ ((num.log2 : ℤ) - den.log2 + 1) := by
    rw [div_lt_iff₀ hdq]
    calc (num : ℚ) < 2 ^ ((num.log2 : ℤ) + 1) := n2q
      _ = 2 ^ ((num.log2 : ℤ) - den.log2 + 1) * 2 ^ (den.log2 : ℤ) := by rw [← zpow_add₀ z]; congr 1; ring
      _ ≤ _ := mul_le_mul_of_nonneg_left d1q (le_of_lt (pd _))
  have lo : 2 ^ ((num.log2 : ℤ) - den.log2 - 1) ≤ (num : ℚ) / den := by
    rw [le_div_iff₀ hdq]
    calc 2 ^ ((num.log2 : ℤ) - den.log2 - 1) * (den : ℚ)
        ≤ 2 ^ ((num.log2 : ℤ) - den.log2 - 1) * 2 ^ ((den.log2 : ℤ) + 1) :=
          mul_le_mul_of_nonneg_left (le_of_lt d2q) (le_of_lt (pd _))
      _ = 2 ^ (num.log2 : ℤ) := by rw [← zpow_add₀ z]; congr 1; ring
      _ ≤ num := n1q
  unfold floorLog2
  simp only
  generalize hl : ((num.log2 : ℤ) - den.log2) = l at *
  have key : (den * 2 ^ l.toNat ≤ num * 2 ^ (-l).toNat) ↔ (2 : ℚ) ^ l ≤ (num : ℚ) / den := by
    rw [le_div_iff₀ hdq]
    rcases le_total 0 l with h | h
    · obtain ⟨k, rfl⟩ := Int.eq_ofNat_of_zero_le h
      simp only [Int.toNat_natCast, zpow_natCast]
      rw [show (-(k : ℤ)).toNat = 0 by omega, pow_zero, mul_one, mul_comm]
      norm_cast
    · obtain ⟨k, rfl⟩ : ∃ k : ℕ, l = -(k : ℤ) := ⟨(-l).toNat, by omega⟩
      rw [show (-(k : ℤ)).toNat = 0 by omega, pow_zero, mul_one, neg_neg, Int.toNat_natCast, zpow_neg, zpow_natCast,
        inv_mul_le_iff₀ (by positivity), mul_comm (2 ^ k : ℚ)]
      norm_cast
  split
  · rename_i h
    exact ⟨key.1 h, up⟩
  · rename_i h
    refine ⟨lo, ?_⟩
    rw [sub_add_cancel]
    by_contra hc
    exact h (key.2 (not_lt.1 hc))

/-- `roundEven` is within one half, and even on a tie. -/
theorem roundEven_spec (n d : Nat) (hd : 0 < d) :
    |(n : ℚ) / d - roundEven n d| ≤ 1 / 2 ∧
      (|(n : ℚ) / d - roundEven n d| = 1 / 2 → roundEven n d % 2 = 0) := by
  have hdq : (0 : ℚ) < d := by exact_mod_cast hd
  have e : n = d * (n / d) + n % d := (Nat.div_add_mod n d).symm
  have hr : n % d < d := Nat.mod_lt _ hd
  have eq : (n : ℚ) / d = (n / d : ℕ) + ((n % d : ℕ) : ℚ) / d := by
    rw [eq_comm, ← sub_eq_zero]
    field_simp
    have : (n : ℚ) = d * (n / d : ℕ) + (n % d : ℕ) := by exact_mod_cast e
    rw [this]
    ring
  unfold roundEven
  rw [eq]
  generalize n / d = q at *
  generalize n % d = r at *
  have r0 : (0 : ℚ) ≤ (r : ℚ) / d := by positivity
  have r1 : (r : ℚ) / d < 1 := by rw [div_lt_one hdq]; exact_mod_cast hr
  split
  · rename_i h
    push_cast
    rw [show (q : ℚ) + r / d - (q + 1) = -(1 - r / d) by ring, abs_neg, abs_of_pos (by linarith)]
    have h2 : (1 : ℚ) / 2 ≤ r / d := by
      rw [div_le_div_iff₀ (by norm_num) hdq, one_mul]
      have : d ≤ r * 2 := by omega
      exact_mod_cast this
    refine ⟨by linarith, fun he => ?_⟩
    have h3 : (r : ℚ) / d = 1 / 2 := by linarith
    rw [div_eq_div_iff (by positivity) (by norm_num)] at h3
    have h4 : r * 2 = 1 * d := by exact_mod_cast h3
    omega
  · rename_i h
    rw [show (q : ℚ) + r / d - q = r / d by ring, abs_of_nonneg r0]
    have h2 : (r : ℚ) / d ≤ 1 / 2 := by
      rw [div_le_div_iff₀ hdq (by norm_num), one_mul]
      have : r * 2 ≤ d := by omega
      exact_mod_cast this
    refine ⟨h2, fun he => ?_⟩
    rw [div_eq_div_iff (by positivity) (by norm_num)] at he
    have h4 : r * 2 = 1 * d := by exact_mod_cast he
    by_contra hc
    exact h (.inr ⟨by omega, by omega⟩)

/-- The quotient `roundMag` rounds is the rational divided by the spacing. -/
theorem scaled_quotient (num den : Nat) (e : Int) (hd : 0 < den) :
    ((num * 2 ^ (-e).toNat : Nat) : ℚ) / ((den * 2 ^ e.toNat : Nat) : ℚ) = (num : ℚ) / den / (2 : ℚ) ^ e := by
  have hdq : (den : ℚ) ≠ 0 := by exact_mod_cast (by omega : den ≠ 0)
  rcases le_total 0 e with h | h
  · obtain ⟨k, rfl⟩ := Int.eq_ofNat_of_zero_le h
    rw [show (-(k : ℤ)).toNat = 0 by omega, Int.toNat_natCast, zpow_natCast]
    push_cast
    field_simp
  · obtain ⟨k, rfl⟩ : ∃ k : ℕ, e = -(k : ℤ) := ⟨(-e).toNat, by omega⟩
    rw [show (-(k : ℤ)).toNat = 0 by omega, neg_neg, Int.toNat_natCast, zpow_neg, zpow_natCast]
    push_cast
    field_simp

end Sys2Proof.Machine
end

