-- ==== Sys2Proof/Laws/Invariant.lean ====
section
/-! SUPPORT. Which fields each part of the invariant depends on: a state that agrees on them keeps the part. -/
namespace Sys2Proof.Machine

theorem BufferInv.congr {s t : State} (h : BufferInv s) (h1 : t.par = s.par) (h2 : t.ibuf = s.ibuf)
    (h3 : t.obuf = s.obuf) (h4 : t.bufLen = s.bufLen) : BufferInv t := by
  obtain ⟨a, b, c, d, e, f⟩ := h
  constructor <;> simp only [h1, h2, h3, h4] <;> assumption

theorem EngineInv.congr {s t : State} (h : EngineInv s) (h1 : t.status = s.status) (h2 : t.estate = s.estate)
    (h3 : t.errInfo0 = s.errInfo0) (h4 : t.errInfo1 = s.errInfo1) (h5 : t.lastCmd = s.lastCmd) : EngineInv t := by
  obtain ⟨a, b, c, d, e, f, g, i, j, k⟩ := h
  constructor <;> simp only [h1, h2, h3, h4, h5] <;> assumption

theorem FramerInv.congr {s t : State} (h : FramerInv s) (h1 : t.status.msgEnd = s.status.msgEnd)
    (h2 : t.status.msgValid = s.status.msgValid) (h3 : t.status.sectValid = s.status.sectValid) (h4 : t.msg = s.msg)
    (h5 : t.table = s.table) (h6 : t.par = s.par)
    (h7 : ∀ p q, t.estate = .sect p q → s.estate = .sect p q ∧ t.bufLen = s.bufLen) : FramerInv t := by
  obtain ⟨a, b, c, d, e, f, g, i, j⟩ := h
  constructor
  case running =>
    intro p q hh
    have := j p q (h7 p q hh).1
    simp only [h2, h3, h4, h5, (h7 p q hh).2]
    assumption
  all_goals simp only [h1, h2, h3, h4, h5, h6]; assumption

theorem UnpackInv.congr {s t : State} (h : UnpackInv s) (h1 : t.status.outValid = s.status.outValid)
    (h2 : t.prog = s.prog) (h3 : t.par = s.par) (h4 : t.obuf = s.obuf)
    (h5 : ∀ i c k, t.estate = .unp i c k → s.estate = .unp i c k ∧ t.prm = s.prm ∧ t.bufLen = s.bufLen) :
    UnpackInv t := by
  obtain ⟨a, b, c⟩ := h
  constructor
  case running =>
    intro p q r hh
    obtain ⟨x, y, z⟩ := h5 p q r hh
    have := c p q r x
    simp only [h1, h2, h3, h4, y, z]
    assumption
  all_goals simp only [h1, h2, h3, h4]; assumption

/-- A write to OBUF below OUT_MAX keeps the buffers' part. -/
theorem BufferInv.writeOut {s : State} (h : BufferInv s) {i : Nat} (hi : i < s.par.outMax) (o : OutEntry) :
    BufferInv (writeOut i o s) := by
  obtain ⟨a, b, c, d, e, f⟩ := h
  refine ⟨a, b, Cells.write_wf c _ _, d, ?_, f⟩
  intro x hx
  rcases Cells.mem_write hx with rfl | hx
  · exact hi
  · exact e x hx

end Sys2Proof.Machine
end

