-- ==== Sys2Proof/Laws/PerInstr.lean ====
section
/-! SUPPORT. The statements made command by command: a well-formed command's word lies in that command's row of the
opcode table (30_encoding.md R106). -/
namespace Sys2Proof.Laws.TableRow

/-- The word of a well-formed command matches the row of its mnemonic and no other row. -/
def Statement (i : Instr) : Prop :=
  i.wf = true → (opcodeTable.filter (fun r => rowMatches r (encode i))).map OpcodeRow.mnemonic = [instrMnemonic i]

theorem nop : Statement .nop := fun _ => by decide

theorem uint (n : BitVec 4) : Statement (.uint n) := by revert n; unfold Statement; decide

theorem smint (n : BitVec 4) : Statement (.smint n) := by revert n; unfold Statement; decide

theorem f32 : Statement .f32 := fun _ => by decide

theorem msginit : Statement .msginit := fun _ => by decide

theorem msgnext : Statement .msgnext := fun _ => by decide

theorem sectsplit : Statement .sectsplit := fun _ => by decide

theorem unpack : Statement .unpack := fun _ => by decide

end Sys2Proof.Laws.TableRow
end

