-- ==== Sys2Proof/Laws/Reads.lean ====
section
/-! SUPPORT. Engine reads of bytes known to be there, and the integers they make, as the sums the rules write. -/
namespace Sys2Proof.Machine

theorem Holds.take {s : State} {a n m : Nat} {b : Nat → Byte} (h : Holds s a n b) (hm : m ≤ n) : Holds s a m b :=
  ⟨by have := h.1; omega, fun k hk => h.2 k (by omega)⟩

theorem Holds.readByte {s : State} {a n k : Nat} {b : Nat → Byte} (h : Holds s a n b) (hk : k < n) :
    Machine.readByte s (a + k) = .ok (b k) :=
  readByte_ok.2 ⟨by have := h.1; omega, h.2 k hk⟩

theorem Holds.memRead {s : State} {a n : Nat} {b : Nat → Byte} (h : Holds s a n b) :
    Machine.memRead s a n = .ok ((List.range n).map b) := by
  rw [memRead_ok]
  refine ⟨by simp, fun k hk => ?_⟩
  simp only [List.getElem_map, List.getElem_range]
  exact h.readByte (by simpa using hk)

/-- `BE` as the sum R10 writes. -/
theorem beNat_range (b : Nat → Byte) (n : Nat) :
    beNat ((List.range n).map b) = ∑ k ∈ Finset.range n, (b k).toNat * 256 ^ (n - 1 - k) := by
  induction n with
  | zero => rfl
  | succ n ih =>
    rw [List.range_succ, List.map_append, Finset.sum_range_succ]
    unfold beNat beFrom at *
    rw [List.foldl_append, ih]
    simp only [List.map_cons, List.map_nil, List.foldl_cons, List.foldl_nil]
    rw [Finset.sum_mul]
    congr 1
    · apply Finset.sum_congr rfl
      intro k hk
      simp only [Finset.mem_range] at hk
      rw [mul_assoc, ← pow_succ]
      congr 2
      omega
    · simp

/-- `bits` as the sum R10 writes, after what has been read before. -/
theorem bitsFrom_sum {s : State} {b : Nat} (w : Nat) (acc c : Nat) (bit : Nat → Bool)
    (h : ∀ j, j < w → bitAt s b (c + j) = .ok (bit j)) :
    bitsFrom s b acc c w = .ok (acc * 2 ^ w + ∑ j ∈ Finset.range w, (bit j).toNat * 2 ^ (w - 1 - j)) := by
  induction w generalizing acc c bit with
  | zero => simp [bitsFrom]
  | succ w ih =>
    simp only [bitsFrom]
    rw [show bitAt s b c = .ok (bit 0) from by simpa using h 0 (by omega)]
    simp only
    rw [ih (2 * acc + (bit 0).toNat) (c + 1) (fun j => bit (j + 1))
      (fun j hj => by rw [← h (j + 1) (by omega)]; congr 1; omega), Finset.sum_range_succ']
    congr 1
    have : ∀ j ∈ Finset.range w,
        (bit (j + 1)).toNat * 2 ^ (w + 1 - 1 - (j + 1)) = (bit (j + 1)).toNat * 2 ^ (w - 1 - j) := by
      intro j hj
      simp only [Finset.mem_range] at hj
      congr 2
      omega
    rw [Finset.sum_congr rfl this]
    simp only [Nat.add_sub_cancel, Nat.sub_zero]
    ring

/-- A field of bits sees only IBUF and BUF_LEN. -/
theorem bitsFrom_congr {s t : State} (hi : t.ibuf = s.ibuf) (hb : t.bufLen = s.bufLen) (b acc c w : Nat) :
    bitsFrom t b acc c w = bitsFrom s b acc c w := by
  induction w generalizing acc c with
  | zero => rfl
  | succ w ih =>
    simp only [bitsFrom]
    rw [bitAt_congr hi hb]
    cases bitAt s b c <;> simp [ih]

/-- Two words put together, as numbers. -/
theorem toNat_append {n m : Nat} (x : BitVec n) (y : BitVec m) : (x ++ y).toNat = x.toNat * 2 ^ m + y.toNat := by
  rw [BitVec.toNat_append, Nat.shiftLeft_eq, mul_comm, ← Nat.two_pow_add_eq_or_of_lt y.isLt]

/-- RES put together is what was written (R30). -/
theorem setRes_res (v : DWord) (s : State) : (setRes v s).resHi ++ (setRes v s).resLo = v := by
  simp only [setRes]
  apply BitVec.eq_of_getLsbD_eq
  intro i hi
  rw [BitVec.getLsbD_append]
  simp only [BitVec.getLsbD_extractLsb']
  split
  · simp [*]
  · rw [show 32 + (i - 32) = i by omega]
    simp
    omega

theorem presentBefore_succ (s : State) (i : Nat) :
    presentBefore s (i + 1) = presentBefore s i + (isPresent s i).toNat := by
  unfold presentBefore
  rw [List.range_succ, List.countP_append]
  cases h : isPresent s i <;> simp [h]

theorem presentBefore_le (s : State) (i : Nat) : presentBefore s i ≤ i := by
  unfold presentBefore
  have := List.countP_le_length (p := isPresent s) (l := List.range i)
  simpa using this

/-- A chain sees only IBUF and BUF_LEN. -/
theorem Chain.congr {s t : State} (hi : t.ibuf = s.ibuf) (hb : t.bufLen = s.bufLen) {stop ptr last : Nat}
    {l : List (Nat × Nat)} (h : Chain s stop ptr l last) : Chain t stop ptr l last := by
  induction h with
  | mark a b => exact .mark a (by rw [memRead_congr hi hb]; exact b)
  | header a b c d e f _ ih =>
    exact .header (by rw [memRead_congr hi hb]; exact a) b c (by rw [readByte_congr hi hb]; exact d) e f ih

end Sys2Proof.Machine
end

