-- ==== Sys2Proof/Tests/Slice0.lean ====
section
/-! SUPPORT. Small tests of the model, whose expected values are those of spec/95_test_vectors.md or are worked out from the
rule a test names, and for each statement with hypotheses a witness that meets them. -/
namespace Sys2Proof.Tests

open Sys2Proof.Machine

/-! ### Helpers -/

/-- The state a step leaves; State.reset where it stops. -/
def after : Result → State
  | .next t => t
  | _ => State.reset

/-- The step gives a next state. -/
def goesOn : Result → Bool
  | .next _ => true
  | _ => false

theorem next_after {r : Result} (h : goesOn r = true) : r = .next (after r) := by
  cases r <;> simp_all [after, goesOn]

/-- The given bytes from offset `a` up. -/
def bytesAt : Nat → List Byte → Memory
  | _, [] => []
  | a, b :: bs => (a, b) :: bytesAt (a + 1) bs

/-- The reset state with the bytes loaded at offset 0 and BUF_LEN their count, as the vectors start. -/
def loaded (bs : List Byte) : State :=
  { State.reset with ibuf := bytesAt 0 bs, bufLen := BitVec.ofNat 32 bs.length }

/-- The bytes of a list as a function, 0 past its end. -/
def nth (bs : List Byte) (k : Nat) : Byte := bs.getD k 0#8

/-- `S0(L)` of the vectors, for L below 256. -/
def s0 (l : Byte) : List Byte := [0x47, 0x52, 0x49, 0x42, 0, 0, 0, 0, 2, 0, 0, 0, 0, 0, 0, l]

/-- The 48-byte message of vector V-F1. -/
def p1 : List Byte :=
  s0 48 ++ [0, 0, 0, 21, 5, 0, 0, 0, 2, 0, 0, 0, 0, 0, 0, 0, 0, 0, 0, 8, 0] ++ [0, 0, 0, 7, 7, 0x05, 0xC8] ++ endMark

/-- V-F1's buffer with its message selected. -/
def selected : State :=
  { loaded p1 with
    msg := { ptr := 48#32, base := 0#32, len := 48#32, declLo := 48#32, declHi := 0#32 }
    status := { Status.zero with msgValid := true, done := true } }

/-- SECTSPLIT accepted on it. -/
def splitting : State := accept (encode .sectsplit) selected

/-- SECTSPLIT's header steps about to begin on it. -/
def inHeaders : State := openSections 0 48 0#8 2#8 splitting

/-- The parameter file of a vector with data at 0 and a bitmap behind it; no bitmap where its length is 0. -/
def params (n w dataLen bmpLen : Nat) (ref bsf dsf : Word) : ParamFile :=
  { npts := BitVec.ofNat 32 n, width := BitVec.ofNat 8 w, ref := ref, bsf := bsf, dsf := dsf, drt := 0#16
    dataAddr := 0#32, dataLen := BitVec.ofNat 32 dataLen, bmpEn := decide (0 < bmpLen)
    bmpAddr := BitVec.ofNat 32 dataLen, bmpLen := BitVec.ofNat 32 bmpLen }

/-- V-U13: three points, the middle one masked. -/
def masked : State :=
  { loaded [0x0A, 0x14, 0x1E, 0xA0] with prm := params 3 8 3 1 0x3FC00000#32 1#32 1#32 }

/-- UNPACK accepted on it. -/
def unpacking : State := accept (encode .unpack) masked

/-- A state in which UNPACK is at a point. -/
def atPoint (i c k : Nat) (s : State) : State :=
  { s with
    estate := .unp i c k, lastCmd := encode .unpack, status := { s.status with busy := true }
    prog := { outCount := 0#32, idx := BitVec.ofNat 32 i, cursor := BitVec.ofNat 32 c, cw := BitVec.ofNat 32 k } }

/-- A state in which SECTSPLIT examines offset 0 of the bytes, `stop` of them in the message. -/
def atHeader (bs : List Byte) (stop : Nat) : State :=
  { loaded bs with estate := .sect 0 stop, lastCmd := encode .sectsplit, status := { Status.zero with busy := true } }

/-- A state with ERR = 1: E_RANGE of `uint.1` at ADDR 0 with an empty buffer (R120, R255). -/
def inFault (ms : List Move) : State :=
  { faulted 0x01#8 0x02#8 0#32 State.reset with lastCmd := encode (.uint 1#4), moves := ms }

/-! ### Well-formed and ill-formed commands (R102) -/

theorem test_wf_accepts : (Instr.uint 1#4).wf = true ∧ (Instr.uint 8#4).wf = true ∧ (Instr.smint 1#4).wf = true ∧
    (Instr.smint 8#4).wf = true ∧ Instr.f32.wf = true ∧ Instr.unpack.wf = true := by decide

theorem test_wf_refuses_uint_zero : (Instr.uint 0#4).wf = false := by decide

theorem test_wf_refuses_uint_nine : (Instr.uint 9#4).wf = false := by decide

theorem test_wf_refuses_smint_zero : (Instr.smint 0#4).wf = false := by decide

theorem test_wf_refuses_smint_nine : (Instr.smint 9#4).wf = false := by decide

/-! ### Decoding: words written out from R100 to R105 -/

theorem test_decode_nop : decode 0b00000000_0000_00000000000000000000#32 = .ok .nop := by rfl

theorem test_decode_uint_1 : decode 0b00000001_0001_00000000000000000000#32 = .ok (.uint 1#4) := by rfl

theorem test_decode_uint_8 : decode 0b00000001_1000_00000000000000000000#32 = .ok (.uint 8#4) := by rfl

theorem test_decode_smint_1 : decode 0b00000010_0001_00000000000000000000#32 = .ok (.smint 1#4) := by rfl

theorem test_decode_smint_8 : decode 0b00000010_1000_00000000000000000000#32 = .ok (.smint 8#4) := by rfl

theorem test_decode_f32 : decode 0b00000011_0100_00000000000000000000#32 = .ok .f32 := by rfl

theorem test_decode_msginit : decode 0b00010000_0000_00000000000000000000#32 = .ok .msginit := by rfl

theorem test_decode_msgnext : decode 0b00010001_0000_00000000000000000000#32 = .ok .msgnext := by rfl

theorem test_decode_sectsplit : decode 0b00010010_0000_00000000000000000000#32 = .ok .sectsplit := by rfl

theorem test_decode_unpack : decode 0b00100000_0000_00000000000000000000#32 = .ok .unpack := by rfl

/-- The checks of R105 in their order: the opcode first, then RSV, then SPAN. -/
theorem test_decode_refuses :
    decode 0x04000000#32 = .error (.unassignedOpcode 0x04#8) ∧ decode 0x13F00001#32 = .error (.unassignedOpcode 0x13#8) ∧
      decode 0x01100001#32 = .error (.reservedBits 1#20) ∧ decode 0x00F80000#32 = .error (.reservedBits 0x80000#20) ∧
      decode 0x01900000#32 = .error (.illegalSpan 9#4) ∧ decode 0x02000000#32 = .error (.illegalSpan 0#4) ∧
      decode 0x03300000#32 = .error (.illegalSpan 3#4) ∧ decode 0x10100000#32 = .error (.illegalSpan 1#4) := by
  refine ⟨?_, ?_, ?_, ?_, ?_, ?_, ?_, ?_⟩ <;> rfl

theorem test_decodeTableWord : decodeTableWord 32 0x02300000 = some (.smint 3#4) ∧ decodeTableWord 32 0x02000000 = none ∧
    decodeTableWord 32 0x20000000 = some .unpack ∧ decodeTableWord 16 0x20000000 = some .nop := by decide

/-! ### One step of each command -/

/-- R230; the fetch word of `nop` is the first command after reset. -/
theorem test_nop : (readReg (after (step (State.reset.withFetchWord 32 0))) .status) = 0x2#32 := by decide

/-- V-C1. -/
theorem test_uint_be : let t := after (step ((loaded [0x01, 0x02]).withFetchWord 32 0x01200000))
    t.resHi = 0#32 ∧ t.resLo = 0x102#32 ∧ readReg t .status = 0x2#32 := by decide

/-- V-C17: `2 + 2 > 3`. -/
theorem test_uint_range : let t := after (step ({ loaded [1, 2, 3] with addr := 2#32 }.withFetchWord 32 0x01200000))
    t.resLo = 0#32 ∧ readReg t .status = 0x204#32 ∧ readReg t .errInfo0 = 0x01#32 ∧ t.errInfo1 = 2#32 := by decide

/-- V-C6. -/
theorem test_smint_negative : let t := after (exec (.smint 2#4) (loaded [0xFF, 0xFF]))
    t.resHi = 0xFFFFFFFF#32 ∧ t.resLo = 0xFFFF8001#32 := by decide

/-- V-C5: negative zero gives 0. -/
theorem test_smint_zero : let t := after (exec (.smint 2#4) (loaded [0x80, 0x00]))
    t.resHi = 0#32 ∧ t.resLo = 0#32 := by decide

/-- V-C12. -/
theorem test_f32 : let t := after (exec .f32 (loaded [0xC0, 0x49, 0x0F, 0xDB]))
    t.resHi = 0#32 ∧ t.resLo = 0xC0490FDB#32 := by decide

/-- V-C19: an empty buffer. -/
theorem test_f32_range : let t := after (exec .f32 State.reset)
    readReg t .status = 0x204#32 ∧ t.errInfo0 = 0x03#8 := by decide

/-- V-F2: 9 bytes. -/
theorem test_msginit_undersized : let t := after (exec .msginit (loaded (List.replicate 9 0)))
    readReg t .status = 0x304#32 ∧ t.errInfo0 = 0x10#8 ∧ t.errInfo1 = 9#32 := by decide

/-- V-F18's second MSGNEXT: MSG_END, and the message registers are kept. -/
theorem test_msgnext_end : let t := after (exec .msgnext selected)
    readReg t .status = 0xA#32 ∧ t.msg.base = 0#32 ∧ t.msg.len = 48#32 := by decide

/-- V-F19: L = 100 with 20 bytes left. -/
theorem test_msgnext_truncated : let t := after (exec .msgnext (loaded (s0 100 ++ endMark)))
    readReg t .status = 0x10012#32 ∧ t.msg.len = 20#32 ∧ t.msg.declLo = 100#32 ∧ t.msg.ptr = 20#32 := by decide

/-- V-F1 and V-X22: the start step. -/
theorem test_sectsplit_start : let t := after (engineStep splitting)
    t.estate = .sect 16 48 ∧ readReg t .status = 0x11#32 ∧ readReg t .sectPresent = 0x001#32 ∧
      readReg t .s0Info = 0x200#32 := by decide

/-- V-F1: the header step at 16 records SECT[5] = (16, 21). -/
theorem test_sectsplit_header : let t := after (engineStep inHeaders)
    t.estate = .sect 37 48 ∧ readReg t (.sectAddr 5) = 16#32 ∧ readReg t (.sectLen 5) = 21#32 ∧
      readReg t .sectPresent = 0x021#32 := by decide

/-- V-U19: E_TEMPLATE. -/
theorem test_unpack_template : let t := after (exec .unpack { masked with prm := { masked.prm with drt := 99#16 } })
    t.status.err = true ∧ t.status.errcode = 0x0B#8 ∧ t.errInfo1 = 99#32 ∧ t.status.outValid = false := by decide

/-- V-U13, point 0: (1.5 + 10 * 2) / 10 = 2.15. -/
theorem test_unpack_point : let t := after (engineStep (atPoint 0 0 0 masked))
    t.estate = .unp 1 8 1 ∧
      Cells.read t.obuf 0 = some { present := true, value := 0x4001333333333333#64, raw := 10#32 } := by decide +kernel

/-! ### The bus -/

/-- V-X: the window offsets of R73, R78 and R79 at their edges. -/
theorem test_bus_answers :
    readBus State.reset .b8 4 = .busError ∧ readBus State.reset .b32 2 = .busError ∧
      readBus State.reset .b32 0x02C = .data 0x08201418#32 ∧ readBus State.reset .b32 0xFFC = .data 0#32 ∧
      readBus (loaded [1, 2, 3, 4]) .b32 0x80000000 = .data 0x04030201#32 ∧
      readBus (loaded [1, 2, 3, 4]) .b16 0x80000002 = .data 0x0403#32 ∧
      (writeBus State.reset .b16 0x80000001 0#32).2 = .busError ∧ (writeBus State.reset .b32 0x1000 0#32).2 = .busError := by
  decide

/-- R32, and R80's drop while BUSY. -/
theorem test_register_writes :
    (hostAccess (.write .b32 0x028#32 0xFFFFFFFF#32) State.reset).bufLen = 0x01000000#32 ∧
      (hostAccess (.write .b32 0x014#32 7#32) splitting).addr = 0#32 ∧
      (hostAccess (.write .b32 0x014#32 7#32) splitting).status.wDrop = true := by decide

/-! ### Witnesses: each statement's hypotheses, clause by clause, met by concrete values -/

theorem witness_IllegalWordFaults :
    ∀ w ∈ [0x04000000#32, 0x00000001#32, 0x01080000#32, 0x01000000#32, 0x02900000#32, 0x03300000#32, 0x10100000#32],
      (accept w State.reset).estate = .start w ∧ Illegal w := by
  intro w hw
  refine ⟨rfl, ?_⟩
  fin_cases hw <;> unfold Illegal LegalSpan <;> decide

theorem witness_StepRunsDecodedCommand :
    (splitting.estate = .start 0x12000000#32 ∧ decode 0x12000000#32 = .ok .sectsplit ∧ splitting.moves = []) ∧
      ({ splitting with moves := [.engine, .reset] } : State).moves = .engine :: [.reset] ∧
      (Instr.uint 8#4).wf = true := by
  refine ⟨⟨rfl, rfl, rfl⟩, rfl, rfl⟩

theorem witness_StepOtherEvents :
    (State.reset.moves = [] ∧ State.reset.estate = .idle) ∧ (inHeaders.moves = [] ∧ inHeaders.estate = .sect 16 48) ∧
      ((atPoint 2 8 1 masked).moves = [] ∧ (atPoint 2 8 1 masked).estate = .unp 2 8 1) ∧
      (inFault [.engine]).moves = .engine :: [] ∧
      (inFault [.host (.read .b8 0#32)]).moves = .host (.read .b8 0#32) :: [] ∧ (inFault [.reset]).moves = .reset :: [] := by
  decide

theorem witness_CommandAcceptance :
    splitting.status.busy = true ∧ (inFault []).status.err = true ∧
      (State.reset.status.busy = false ∧ State.reset.status.err = false) ∧
      (accept 0x04000000#32 State.reset).estate = .start 0x04000000#32 ∧
      decode 0x04000000#32 = .error (.unassignedOpcode 0x04#8) ∧
      (accept 0x00000000#32 State.reset).estate = .start 0#32 ∧ decode 0#32 = .ok .nop := by
  refine ⟨rfl, rfl, ⟨rfl, rfl⟩, rfl, rfl, rfl, rfl⟩

theorem witness_DroppedWhileBusy :
    splitting.par.wf ∧ splitting.status.busy = true ∧
      ∀ p ∈ [(Size.b8, 0), (.b8, 0xFFFFFF), (.b16, 0xFFFFFE), (.b32, 0), (.b32, 0xFFFFFC)],
        p.2 % sizeBytes p.1 = 0 ∧ p.2 + sizeBytes p.1 ≤ splitting.par.ibufSize := by decide

theorem witness_ReservedReadsZero :
    ∀ off ∈ [0x098, 0x09C, 0x0CC, 0x0E0, 0xFFC], off < 0x1000 ∧ off % 4 = 0 ∧ ∀ r, regOffset r ≠ off := by
  intro off ho
  refine ⟨?_, ?_, ?_⟩
  · fin_cases ho <;> decide
  · fin_cases ho <;> decide
  · intro r
    fin_cases ho <;> cases r <;> simp only [regOffset, ne_eq] <;> omega

theorem witness_RegisterReads : State.reset.par.wf ∧
    ({ State.reset with par := { Params.default with ibufLog := 31, outLog := 26 } } : State).par.wf := by decide

/-- A free block, and a busy one whose read-only registers are written. -/
theorem witness_RegisterWrites :
    (loaded p1).status.busy = false ∧ splitting.status.busy = true ∧ (∃ n, Reg.sectLen 8 = .sectAddr n ∨ Reg.sectLen 8 = .sectLen n) ∧
      hostAccess (.write .b32 0x018#32 7#32) splitting = { splitting with resp := some .okay } :=
  ⟨by decide, by decide, ⟨8, .inr rfl⟩, rfl⟩

theorem witness_BufLenStoresMin : State.reset.par.wf ∧ State.reset.status.busy = false := by decide

theorem witness_IbufAccess :
    (loaded p1).par.wf ∧ (loaded p1).status.busy = false ∧ splitting.status.busy = true ∧
      (∀ p ∈ [(Size.b8, 0), (.b8, 0xFFFFFF), (.b16, 0xFFFFFE), (.b32, 0xFFFFFC)],
        p.2 < (loaded p1).par.ibufSize ∧ p.2 % sizeBytes p.1 = 0 ∧ p.2 + sizeBytes p.1 ≤ (loaded p1).par.ibufSize) ∧
      (∀ k, k < sizeBytes .b32 → Cells.read (loaded p1).ibuf (44 + k) = some ((fun _ => 0x37#8) k)) ∧
      ∀ p ∈ [(Size.b16, 1), (.b32, 2), (.b16, 0xFFFFFF), (.b32, 0xFFFFFE)],
        p.2 < (loaded p1).par.ibufSize ∧
          ¬ (p.2 % sizeBytes p.1 = 0 ∧ p.2 + sizeBytes p.1 ≤ (loaded p1).par.ibufSize) := by decide

/-- An OBUF with its first and its last entry written. -/
def withOutput : State :=
  { State.reset with
    obuf :=
      [(0, { present := true, value := 0x4014000000000000#64, raw := 5#32 }),
        (0xFFFFF, { present := false, value := 0#64, raw := 0#32 })] }

theorem witness_ObufAccess :
    (State.reset.par.wf ∧ 0xFFFFF < State.reset.par.outMax ∧ Cells.read State.reset.obuf 0xFFFFF = none) ∧
      withOutput.par.wf ∧ (0 < withOutput.par.outMax ∧
        Cells.read withOutput.obuf 0 = some { present := true, value := 0x4014000000000000#64, raw := 5#32 }) ∧
      0xFFFFF < withOutput.par.outMax ∧
        Cells.read withOutput.obuf 0xFFFFF = some { present := false, value := 0#64, raw := 0#32 } := by decide

theorem witness_BusErrors :
    State.reset.par.wf ∧ (∀ off ∈ [0x1000#32, 0xFFFFF#32], 0x1000 ≤ off.toNat ∧ off.toNat < 0x00100000) ∧
      (∀ off ∈ [0x1100000#32, 0x7FFFFFFF#32],
        0x00100000 + 16 * State.reset.par.outMax ≤ off.toNat ∧ off.toNat < 0x80000000) ∧
      (∀ off ∈ [0x81000000#32, 0xFFFFFFFF#32], 0x80000000 + State.reset.par.ibufSize ≤ off.toNat) ∧
      (∀ p ∈ [(Size.b16, 0#32), (.b8, 0xFFF#32), (.b32, 2#32)],
        p.2.toNat < 0x1000 ∧ ¬ (p.1 = .b32 ∧ p.2.toNat % 4 = 0)) ∧
      ∀ p ∈ [(Size.b16, 0x100000#32), (.b8, 0x10FFFFF#32), (.b32, 0x100002#32)],
        0x00100000 ≤ p.2.toNat ∧ p.2.toNat < 0x00100000 + 16 * State.reset.par.outMax ∧
          ¬ (p.1 = .b32 ∧ p.2.toNat % 4 = 0) := by
  refine ⟨by decide, ?_, ?_, ?_, by decide, by decide⟩ <;> intro off h <;> fin_cases h <;> decide

theorem witness_SoftResetRule : (1#32).getLsbD 0 = true ∧ (3#32).getLsbD 0 = true := by decide

theorem witness_ErrorClearRule :
    (2#32).getLsbD 0 = false ∧ (2#32).getLsbD 1 = true ∧ (inFault []).status.err = true ∧ State.reset.status.err = false := by
  decide

theorem witness_HardResetRule : (inFault [.reset]).moves = .reset :: [] ∧
    ({ splitting with moves := [.reset, .engine] } : State).moves = .reset :: [.engine] := by decide

/-! ### States that meet the invariant -/

theorem inv_splitting : BlockInv splitting where
  buffers := ⟨by decide, by decide, by decide, by decide, by decide, by decide⟩
  engine :=
    ⟨by decide, by decide, by decide, by decide, by decide, by decide, by decide, fun _ h => EState.start.inj h,
      fun _ _ h => EState.noConfusion h, fun _ _ _ h => EState.noConfusion h⟩
  framer :=
    ⟨by decide, by decide, by decide, by decide, by decide, by decide, by decide, by decide,
      fun _ _ h => EState.noConfusion h⟩
  unpack := ⟨fun h => Bool.noConfusion h, by decide, fun _ _ _ h => EState.noConfusion h⟩

theorem inv_inHeaders : BlockInv inHeaders where
  buffers := ⟨by decide, by decide, by decide, by decide, by decide, by decide⟩
  engine :=
    ⟨by decide, by decide, by decide, by decide, by decide, by decide, by decide, fun _ h => EState.noConfusion h,
      fun _ _ _ => rfl, fun _ _ _ h => EState.noConfusion h⟩
  framer :=
    ⟨by decide, by decide, by decide, by decide, by decide, by decide, by decide, by decide,
      fun ptr stop h => by
        obtain ⟨rfl, rfl⟩ : 16 = ptr ∧ 48 = stop := EState.sect.inj h
        decide⟩
  unpack := ⟨fun h => Bool.noConfusion h, by decide, fun _ _ _ h => EState.noConfusion h⟩

theorem inv_unpacking : BlockInv unpacking where
  buffers := ⟨by decide, by decide, by decide, by decide, by decide, by decide⟩
  engine :=
    ⟨by decide, by decide, by decide, by decide, by decide, by decide, by decide, fun _ h => EState.start.inj h,
      fun _ _ h => EState.noConfusion h, fun _ _ _ h => EState.noConfusion h⟩
  framer :=
    ⟨by decide, by decide, by decide, by decide, by decide, by decide, by decide, by decide,
      fun _ _ h => EState.noConfusion h⟩
  unpack := ⟨fun h => Bool.noConfusion h, by decide, fun _ _ _ h => EState.noConfusion h⟩

/-- UNPACK at its first point, with the bitmap enabled. -/
def inPoints : State := atPoint 0 0 0 masked

theorem inv_inPoints : BlockInv inPoints where
  buffers := ⟨by decide, by decide, by decide, by decide, by decide, by decide⟩
  engine :=
    ⟨by decide, by decide, by decide, by decide, by decide, by decide, by decide, fun _ h => EState.noConfusion h,
      fun _ _ h => EState.noConfusion h, fun _ _ _ _ => rfl⟩
  framer :=
    ⟨by decide, by decide, by decide, by decide, by decide, by decide, by decide, by decide,
      fun _ _ h => EState.noConfusion h⟩
  unpack :=
    ⟨fun h => Bool.noConfusion h, by decide,
      fun i c k h => by
        obtain ⟨rfl, rfl, rfl⟩ : 0 = i ∧ 0 = c ∧ 0 = k := EState.unp.inj h
        decide⟩

theorem inv_inFault_none : BlockInv (inFault []) where
  buffers := ⟨by decide, by decide, by decide, by decide, by decide, by decide⟩
  engine :=
    ⟨by decide, by decide, by decide, by decide, by decide, by decide, by decide, fun _ h => EState.noConfusion h,
      fun _ _ h => EState.noConfusion h, fun _ _ _ h => EState.noConfusion h⟩
  framer :=
    ⟨by decide, by decide, by decide, by decide, by decide, by decide, by decide, by decide,
      fun _ _ h => EState.noConfusion h⟩
  unpack := ⟨fun h => Bool.noConfusion h, by decide, fun _ _ _ h => EState.noConfusion h⟩

theorem inv_inFault (ms : List Move) : BlockInv (inFault ms) where
  buffers := inv_inFault_none.buffers.congr rfl rfl rfl rfl
  engine := inv_inFault_none.engine.congr rfl rfl rfl rfl rfl
  framer := inv_inFault_none.framer.congr rfl rfl rfl rfl rfl rfl fun _ _ h => ⟨h, rfl⟩
  unpack := inv_inFault_none.unpack.congr rfl rfl rfl rfl fun _ _ _ h => ⟨h, rfl, rfl⟩

theorem witness_InvKept :
    (BlockInv splitting ∧ step splitting = .next (after (step splitting))) ∧
      (BlockInv inHeaders ∧ step inHeaders = .next (after (step inHeaders))) ∧
      BlockInv inPoints ∧ step inPoints = .next (after (step inPoints)) :=
  ⟨⟨inv_splitting, next_after (by decide)⟩, ⟨inv_inHeaders, next_after (by decide)⟩, inv_inPoints,
    next_after (by decide +kernel)⟩

theorem witness_EngineReadsBelowBufLen : BlockInv inHeaders ∧ BlockInv inPoints := ⟨inv_inHeaders, inv_inPoints⟩

theorem witness_WrittenBufferRuns : (BlockInv splitting ∧ Written splitting) ∧ BlockInv inPoints ∧ Written inPoints :=
  ⟨⟨inv_splitting, by decide⟩, inv_inPoints, by decide⟩

theorem witness_EngineStepFrame :
    engineStep splitting = .next (after (engineStep splitting)) ∧ splitting.estate = .start (encode .sectsplit) ∧
      (∀ n, decode (encode .sectsplit) ≠ .ok (.uint n) ∧ decode (encode .sectsplit) ≠ .ok (.smint n) ∧
        decode (encode .sectsplit) ≠ .ok .f32) ∧
      (decode (encode .sectsplit) ≠ .ok .msginit ∧ decode (encode .sectsplit) ≠ .ok .msgnext) ∧
      engineStep inPoints = .next (after (engineStep inPoints)) ∧ ∀ i c k, inPoints.estate = .unp i c k → 1 ≠ i := by
  have h : decode (encode .sectsplit) = .ok .sectsplit := rfl
  refine ⟨next_after (by decide), rfl, ?_, ?_, next_after (by decide +kernel), ?_⟩
  · intro n
    simp [h]
  · simp [h]
  · intro i c k h
    have h0 : 0 = i := (EState.unp.inj h).1
    omega

/-- `unpack` with an unknown template: a fault in the start step. -/
def faulting : State :=
  { unpacking with prm := { masked.prm with drt := 99#16 } }

theorem witness_NoWarningWithFault :
    engineStep faulting = .next (after (engineStep faulting)) ∧ faulting.status.err = false ∧
      (after (engineStep faulting)).status.err = true :=
  ⟨next_after (by decide), by decide, by decide⟩

/-- A dropped command, an error clear and RESET: one state for each way of R256. -/
theorem witness_FaultIsSticky :
    ∀ ms ∈ [[], [Move.host (.write .b32 0x010#32 0#32)], [.host (.write .b32 0x008#32 2#32)],
        [.host (.write .b32 0x008#32 1#32)], [.reset]],
      BlockInv (inFault ms) ∧ (inFault ms).status.err = true ∧
        step (inFault ms) = .next (after (step (inFault ms))) := by
  intro ms h
  refine ⟨inv_inFault ms, rfl, next_after ?_⟩
  fin_cases h <;> decide

/-! ### Codec -/

theorem witness_CodecSpanFault :
    ∀ p ∈ [(Instr.uint 8#4, 0x01#8, (8#4).toNat), (.smint 8#4, 0x02#8, (8#4).toNat), (.f32, 0x03#8, 4)],
      ({ loaded p1 with addr := 45#32 } : State).bufLen.toNat < ({ loaded p1 with addr := 45#32 } : State).addr.toNat + p.2.2 := by
  decide

/-- The first, and the last, of eight bytes unwritten. -/
theorem witness_UnwrittenReadStops :
    (0 + (8#4).toNat ≤ ({ State.reset with bufLen := 8#32 } : State).bufLen.toNat ∧
        Cells.read ({ State.reset with bufLen := 8#32 } : State).ibuf 0 = none) ∧
      0 + (8#4).toNat ≤ ({ loaded (p1.take 7) with bufLen := 8#32 } : State).bufLen.toNat ∧
      Cells.read (loaded (p1.take 7)).ibuf 7 = none ∧
      ∀ c, c < 7 → (Cells.read (loaded (p1.take 7)).ibuf c).isSome = true := by decide

theorem witness_UintResult : ∀ n ∈ [1#4, 8#4], (Instr.uint n).wf = true ∧ Holds (loaded p1) 0 n.toNat (nth p1) := by
  unfold Holds
  decide

theorem witness_SmintResult : ∀ n ∈ [1#4, 8#4], (Instr.smint n).wf = true ∧ Holds (loaded p1) 0 n.toNat (nth p1) := by
  unfold Holds
  decide

theorem witness_F32Result : Holds { loaded p1 with addr := 44#32 } (44#32).toNat 4 (fun _ => 0x37#8) := by
  unfold Holds
  decide

/-! ### Framer -/

theorem witness_MessageStartReset :
    (selected.status.err = false ∧ exec .msginit selected = .next (after (exec .msginit selected)) ∧
        (after (exec .msginit selected)).status.err = false) ∧
      exec .msgnext selected = .next (after (exec .msgnext selected)) ∧ (after (exec .msgnext selected)).status.err = false :=
  ⟨⟨by decide, next_after (by decide), by decide⟩, next_after (by decide), by decide⟩

theorem witness_MsginitRule : (loaded (List.replicate 9 0)).bufLen.toNat < 10 ∧
    10 ≤ (loaded (List.replicate 10 0)).bufLen.toNat := by decide

theorem witness_MsgnextEnd : selected.bufLen.toNat ≤ selected.msg.ptr.toNat ∧
    ({ loaded p1 with status := { Status.zero with msgEnd := true } } : State).status.msgEnd = true := by decide

/-- Too short; L = 15; L = 16 with 16 left; L = 255 with 16 left. -/
theorem witness_MsgnextSelects :
    (∀ bs ∈ [(s0 15).take 15, s0 15, s0 16, s0 255],
        (loaded bs).par.wf ∧ (loaded bs).bufLen.toNat ≤ (loaded bs).par.ibufSize ∧ (loaded bs).status.msgEnd = false ∧
          (loaded bs).msg.ptr.toNat < (loaded bs).bufLen.toNat) ∧
      (loaded ((s0 15).take 15)).bufLen.toNat - (loaded ((s0 15).take 15)).msg.ptr.toNat < 16 ∧
      ∀ l ∈ [15#8, 16#8, 255#8],
        16 ≤ (loaded (s0 l)).bufLen.toNat - (loaded (s0 l)).msg.ptr.toNat ∧
          Holds (loaded (s0 l)) 9 7 (fun k => nth (s0 l) (9 + k)) ∧
          ∑ k ∈ Finset.range 7, (nth (s0 l) (9 + k)).toNat * 256 ^ (7 - 1 - k) = l.toNat := by
  unfold Holds
  decide

/-- Two messages of 16 bytes; between the two MSGNEXTs SECTSPLIT starts on the first. -/
def beforeNext : Nat → State
  | 0 => loaded (s0 16 ++ s0 16)
  | j + 1 => after (exec .sectsplit (after (exec .msgnext (beforeNext j))))

theorem witness_MessageSequence :
    (beforeNext 0).par.wf ∧ (beforeNext 0).bufLen.toNat ≤ (beforeNext 0).par.ibufSize ∧ (beforeNext 0).msg.ptr = 0#32 ∧
      (beforeNext 0).status.msgEnd = false ∧
      (∀ j, j < 2 → exec .msgnext (beforeNext j) = .next (after (exec .msgnext (beforeNext j))) ∧
        (after (exec .msgnext (beforeNext j))).status.err = false ∧
        (after (exec .msgnext (beforeNext j))).status.msgEnd = false) ∧
      ∀ j, j + 1 < 2 →
        (beforeNext (j + 1)).msg.ptr = (after (exec .msgnext (beforeNext j))).msg.ptr ∧
          (beforeNext (j + 1)).bufLen = (after (exec .msgnext (beforeNext j))).bufLen ∧
          (beforeNext (j + 1)).status.msgEnd = (after (exec .msgnext (beforeNext j))).status.msgEnd ∧
          (beforeNext (j + 1)).par = (after (exec .msgnext (beforeNext j))).par := by
  refine ⟨by decide, by decide, by decide, by decide, fun j hj => ?_, fun j hj => ?_⟩
  · have h : goesOn (exec .msgnext (beforeNext j)) = true ∧ (after (exec .msgnext (beforeNext j))).status.err = false ∧
        (after (exec .msgnext (beforeNext j))).status.msgEnd = false := by
      revert j
      decide
    exact ⟨next_after h.1, h.2⟩
  · obtain rfl : j = 0 := by omega
    decide

theorem witness_SectsplitStart :
    State.reset.status.msgValid = false ∧
      (selected.status.msgValid = true ∧ ({ selected with bufLen := 47#32 } : State).bufLen.toNat <
        selected.msg.base.toNat + selected.msg.len.toNat) ∧
      (selected.msg.base.toNat + selected.msg.len.toNat ≤ selected.bufLen.toNat ∧ Holds selected 0 4 (nth magic) ∧
        Holds selected (0 + selected.par.s0DiscOff) 1 (fun _ => 0#8) ∧
        Holds selected (0 + selected.par.s0EdOff) 1 (fun _ => 2#8)) ∧
      Holds { selected with ibuf := bytesAt 0 [0x47, 0x52, 0x49, 0x43] } 0 4 (nth [0x47, 0x52, 0x49, 0x43]) ∧
      [nth [0x47, 0x52, 0x49, 0x43] 0, nth [0x47, 0x52, 0x49, 0x43] 1, nth [0x47, 0x52, 0x49, 0x43] 2,
        nth [0x47, 0x52, 0x49, 0x43] 3] ≠ [0x47#8, 0x52#8, 0x49#8, 0x42#8] := by
  unfold Holds
  decide

theorem witness_HeaderStepEnds :
    (atHeader endMark 4).estate = .sect 0 4 ∧ 4 ≤ 4 - 0 ∧ Holds (atHeader endMark 4) 0 4 (fun _ => 0x37#8) := by
  unfold Holds
  decide

/-- Fewer than 4 bytes left, 4 left, then lengths 4, 5 and 6 with 5 left, and numbers 0, 1, 8 and 9. -/
theorem witness_HeaderStepRecords :
    ((atHeader [] 3).estate = .sect 0 3 ∧ 3 - 0 < 4) ∧
      ((atHeader [0, 0, 0, 5] 4).estate = .sect 0 4 ∧ Holds (atHeader [0, 0, 0, 5] 4) 0 4 (nth [0, 0, 0, 5]) ∧ 4 - 0 < 5) ∧
      ∀ bs ∈ [[0, 0, 0, 4, 1], [0, 0, 0, 5, 0], [0, 0, 0, 5, 1], [0, 0, 0, 5, 8], [0, 0, 0, 5, 9], [0, 0, 0, 6, 1]],
        (atHeader bs 5).estate = .sect 0 5 ∧ Holds (atHeader bs 5) 0 5 (nth bs) ∧
          [nth bs 0, nth bs 1, nth bs 2, nth bs 3] ≠ [0x37#8, 0x37#8, 0x37#8, 0x37#8] := by
  unfold Holds
  decide

theorem witness_SectsplitBounded : BlockInv splitting ∧ splitting.estate = .start (encode .sectsplit) := ⟨inv_splitting, rfl⟩

theorem after_run {k : Nat} {s : State} (h : goesOn (engineRun k s) = true) : engineRun k s = .next (after (engineRun k s)) :=
  next_after h

theorem witness_SectsplitTableSound :
    BlockInv splitting ∧ splitting.estate = .start (encode .sectsplit) ∧
      engineRun 4 splitting = .next (after (engineRun 4 splitting)) ∧ (after (engineRun 4 splitting)).estate = .idle ∧
      (after (engineRun 4 splitting)).status.err = false :=
  ⟨inv_splitting, rfl, after_run (by decide), by decide, by decide⟩

theorem witness_SectsplitFramesChain :
    Chain inHeaders 48 16 [(21, 5), (7, 7)] 44 ∧ inHeaders.estate = .sect 16 48 :=
  ⟨.header (bytes := [0, 0, 0, 21]) (num := 5#8) rfl (by decide) rfl rfl (by decide) (by decide)
    (.header (bytes := [0, 0, 0, 7]) (num := 7#8) rfl (by decide) rfl rfl (by decide) (by decide)
      (.mark (by decide) rfl)), rfl⟩

/-! ### Unpacker -/

theorem witness_MaskedPoint :
    (atPoint 1 8 1 masked).estate = .unp 1 8 1 ∧ masked.prm.bmpEn = true ∧ 1 < 8 * masked.prm.bmpLen.toNat ∧
      Holds (atPoint 1 8 1 masked) (3 + 1 / 8) 1 (fun _ => 0xA0#8) ∧ (0xA0#8).getLsbD (7 - 1 % 8) = false ∧
      Holds (atPoint 7 8 1 masked) (3 + 7 / 8) 1 (fun _ => 0xA0#8) ∧ 7 < 8 * masked.prm.bmpLen.toNat ∧
      (0xA0#8).getLsbD (7 - 7 % 8) = false := by
  unfold Holds
  decide

/-- Point 2 of V-U13, whose data span ends with its last codeword; and a point of width 0. -/
theorem witness_PresentPoint :
    ((atPoint 2 16 2 masked).estate = .unp 2 16 2 ∧ 2 < 8 * masked.prm.bmpLen.toNat ∧
        bitAt (atPoint 2 16 2 masked) masked.prm.bmpAddr.toNat 2 = .ok true ∧
        16 + masked.prm.width.toNat ≤ 8 * masked.prm.dataLen.toNat ∧
        ∀ j, j < masked.prm.width.toNat →
          bitAt (atPoint 2 16 2 masked) masked.prm.dataAddr.toNat (16 + j) = .ok ((0x1E#8).getLsbD (7 - j))) ∧
      ((params 3 0 0 0 0#32 0#32 0#32).bmpEn = false ∧ 0 + (params 3 0 0 0 0#32 0#32 0#32).width.toNat ≤ 8 * 0) := by
  refine ⟨⟨rfl, by decide, rfl, by decide, ?_⟩, by decide⟩
  intro j hj
  have hj : j < 8 := hj
  interval_cases j <;> rfl

theorem witness_PointFaults :
    ((atPoint 8 8 1 masked).estate = .unp 8 8 1 ∧ masked.prm.bmpEn = true ∧ 8 * masked.prm.bmpLen.toNat ≤ 8) ∧
      (atPoint 2 17 2 masked).estate = .unp 2 17 2 ∧ 2 < 8 * masked.prm.bmpLen.toNat ∧
      bitAt (atPoint 2 17 2 masked) masked.prm.bmpAddr.toNat 2 = .ok true ∧
      8 * masked.prm.dataLen.toNat < 17 + masked.prm.width.toNat :=
  ⟨by decide, rfl, by decide, rfl, by decide⟩

theorem witness_UnpackBounded : BlockInv unpacking ∧ unpacking.estate = .start (encode .unpack) := ⟨inv_unpacking, rfl⟩

theorem witness_UnpackCounting :
    BlockInv unpacking ∧ Written unpacking ∧ unpacking.estate = .start (encode .unpack) ∧ unpacking.prm.drt = 0#16 ∧
      unpacking.prm.width.toNat ≤ 32 ∧ unpacking.prm.npts.toNat ≤ unpacking.par.outMax ∧
      unpacking.prm.dataAddr.toNat + unpacking.prm.dataLen.toNat ≤ unpacking.bufLen.toNat ∧
      (unpacking.prm.bmpEn = true → unpacking.prm.bmpAddr.toNat + unpacking.prm.bmpLen.toNat ≤ unpacking.bufLen.toNat ∧
        unpacking.prm.npts.toNat ≤ 8 * unpacking.prm.bmpLen.toNat) ∧
      unpacking.prm.width.toNat * presentBefore unpacking unpacking.prm.npts.toNat ≤ 8 * unpacking.prm.dataLen.toNat :=
  ⟨inv_unpacking, by decide, by decide, by decide, by decide, by decide, by decide, by decide, by decide⟩

/-- V-U21's shape: three points and two bytes of data, so the third point faults. -/
def shortData : State :=
  accept (encode .unpack) { loaded [1, 2] with prm := params 3 8 2 0 0#32 0#32 0#32 }

theorem inv_shortData : BlockInv shortData where
  buffers := ⟨by decide, by decide, by decide, by decide, by decide, by decide⟩
  engine :=
    ⟨by decide, by decide, by decide, by decide, by decide, by decide, by decide, fun _ h => EState.start.inj h,
      fun _ _ h => EState.noConfusion h, fun _ _ _ h => EState.noConfusion h⟩
  framer :=
    ⟨by decide, by decide, by decide, by decide, by decide, by decide, by decide, by decide,
      fun _ _ h => EState.noConfusion h⟩
  unpack := ⟨fun h => Bool.noConfusion h, by decide, fun _ _ _ h => EState.noConfusion h⟩

theorem witness_UnpackFaultNoOutput :
    BlockInv shortData ∧ shortData.estate = .start (encode .unpack) ∧
      engineRun 4 shortData = .next (after (engineRun 4 shortData)) ∧ (after (engineRun 4 shortData)).estate = .idle ∧
      (after (engineRun 4 shortData)).status.err = true ∧ (after (engineRun 4 shortData)).prog.idx = 2#32 :=
  ⟨inv_shortData, rfl, after_run (by decide +kernel), by decide +kernel, by decide +kernel, by decide +kernel⟩

/-- A memory that differs from V-U13's only past its data and its bitmap. -/
def otherMemory : Memory := bytesAt 0 [0x0A, 0x14, 0x1E, 0xA0, 0xFF]

theorem witness_PointReadsOnlySpans :
    (∀ j, j < inPoints.prm.dataLen.toNat →
        Cells.read otherMemory (inPoints.prm.dataAddr.toNat + j) = Cells.read inPoints.ibuf (inPoints.prm.dataAddr.toNat + j)) ∧
      (inPoints.prm.bmpEn = true → ∀ j, j < inPoints.prm.bmpLen.toNat →
        Cells.read otherMemory (inPoints.prm.bmpAddr.toNat + j) =
          Cells.read inPoints.ibuf (inPoints.prm.bmpAddr.toNat + j)) ∧
      unpPoint 0 0 0 inPoints = .next (after (unpPoint 0 0 0 inPoints)) ∧
      unpPoint 0 0 0 { inPoints with ibuf := [] } = .fault (.ibufUnwritten 3) :=
  ⟨by decide, by decide, next_after (by decide +kernel), rfl⟩

/-! ### SCALE -/

theorem witness_Fl64Nearest : 0 < 1 ∧ 0 < 10 ^ 22 := by decide

/-- The bounds of the three ranges of R193. -/
theorem witness_PowerOfTwo : pow2of (-1074) = 1#64 ∧ pow2of 1023 = 0x7FE0000000000000#64 ∧
    pow2of 1024 = 0x7FF0000000000000#64 ∧ pow2of (-1075) = 0#64 := by decide +kernel

/-- The bounds of the ranges of R195: 10^0, 10^22, and past the largest and the smallest. -/
theorem witness_PowerOfTen : pow10Default 0 = 0x3FF0000000000000#64 ∧ pow10Default 22 = 0x4480F0CF064DD592#64 ∧
    pow10Default 309 = 0x7FF0000000000000#64 ∧ pow10Default (-324) = 0#64 := by decide +kernel

theorem witness_CanonicalNaN : unpack64 0x7FF0000000000001#64 = .nan ∧ unpack64 0x7FF0000000000000#64 ≠ .nan ∧
    unpack64 (scale Params.default 0#32 1024 0 0) = .nan := by decide +kernel

theorem witness_ScaleCorners :
    Params.default.pow10Diff = [] ∧ Params.default.round4Diff = [] ∧ 0xFFFFFFFF < 2 ^ 32 ∧
      unpack32 0x7F800001#32 = .nan ∧ (1024 : Int) ≤ 1024 ∧ unpack32 0x3F800000#32 = .fin false 0x800000 (-23) ∧
      (308 : Int) ≤ 308 ∧ (991 : Int) ≤ 991 ∧ (1023 : Int) ≤ 1023 ∧ (-323 : Int) ≤ -323 ∧ (-324 : Int) ≤ -324 ∧
      (309 : Int) ≤ 309 := by
  decide +kernel

/-- The three scaled values of R200's examples that no NaN or infinity enters. -/
theorem test_scale : scale Params.default 0x3FC00000#32 (-1) 1 10 = 0x3FE4CCCCCCCCCCCD#64 ∧
    scale Params.default 0#32 0 5 15 = 0x3F1A36E2EB1C432D#64 ∧
    scale Params.default 0xC2C80000#32 0 2 1 = 0xBFEFAE147AE147AE#64 := by decide +kernel

end Sys2Proof.Tests
end

/-! PROOFS. `fl64` rounds to nearest (00_scope.md R11). `RoundsTo` collects what the rounding of a magnitude achieves;
overflow and nearness are consequences of it alone. -/
namespace Sys2Proof.Machine

/-- The magnitude `x` is rounded to the significand `q` at the spacing `2^e`: `q` is a nearest integer to `x / 2^e` and is
even on a tie, and `x` lies in the range of significands of that spacing. -/
structure RoundsTo (x : ℚ) (e : ℤ) (q : ℕ) : Prop where
  exp_ge : -1074 ≤ e
  half : |x / 2 ^ e - q| ≤ 1 / 2
  even_of_tie : |x / 2 ^ e - q| = 1 / 2 → q % 2 = 0
  lt_binade : x < 2 ^ 53 * 2 ^ e
  ge_binade : e ≠ -1074 → 2 ^ 52 * 2 ^ e ≤ x

/-! ### What `roundMag` achieves -/

/-- The bounds of a binade, `2^52` and `2^53` spacings, as powers of two. -/
theorem two_pow_mul_zpow (n : ℕ) (e : ℤ) : (2 : ℚ) ^ n * 2 ^ e = 2 ^ ((n : ℤ) + e) := by
  rw [zpow_add₀ two_ne_zero, zpow_natCast]

theorem roundsTo_zero : RoundsTo 0 (-1074) 0 where
  exp_ge := le_refl _
  half := by rw [zero_div, Nat.cast_zero, sub_zero, abs_zero]; norm_num
  even_of_tie _ := rfl
  lt_binade := mul_pos (by norm_num) (zpow_pos two_pos _)
  ge_binade h := absurd rfl h

theorem roundsTo_ulpExp {num den : Nat} (hn : 0 < num) (hd : 0 < den) :
    RoundsTo ((num : ℚ) / den) (ulpExp num den)
      (roundEven (num * 2 ^ (-ulpExp num den).toNat) (den * 2 ^ (ulpExp num den).toNat)) := by
  obtain ⟨hlo, hhi⟩ := floorLog2_spec hn hd
  obtain ⟨hhalf, htie⟩ := roundEven_spec (num * 2 ^ (-ulpExp num den).toNat) (den * 2 ^ (ulpExp num den).toNat)
    (Nat.mul_pos hd (Nat.two_pow_pos _))
  rw [scaled_quotient num den _ hd] at hhalf htie
  have hexp : ulpExp num den = max (floorLog2 num den - 52) (-1074) := rfl
  refine ⟨by omega, hhalf, htie, ?_, fun hne => ?_⟩
  · rw [two_pow_mul_zpow]
    exact hhi.trans_le (zpow_le_zpow_right₀ one_le_two (by omega))
  · rw [two_pow_mul_zpow]
    exact (zpow_le_zpow_right₀ one_le_two (by omega)).trans hlo

/-- The magnitude bits of `fl64` are those of a rounded significand, cut off at the infinity. -/
theorem roundMag_roundsTo (num : Nat) {den : Nat} (hd : 0 < den) :
    ∃ e q, RoundsTo ((num : ℚ) / den) e q ∧ roundMag num den = min ((e + 1074).toNat * 2 ^ 52 + q) infMag := by
  rcases Nat.eq_zero_or_pos num with rfl | hn
  · refine ⟨-1074, 0, ?_, by simp [roundMag]⟩
    rw [Nat.cast_zero, zero_div]
    exact roundsTo_zero
  · refine ⟨_, _, roundsTo_ulpExp hn hd, ?_⟩
    unfold roundMag
    rw [if_neg hn.ne']

theorem roundMag_lt (num den : Nat) : roundMag num den < 2 ^ 63 := by
  have hinf : infMag < 2 ^ 63 := by decide
  unfold roundMag
  split
  · norm_num
  · exact (min_le_right _ _).trans_lt hinf

/-! ### Range of the significand and overflow -/

/-- R11's overflow threshold, in units of half the largest spacing. -/
theorem overflow_threshold : (2 ^ 1024 - 2 ^ 970 : ℚ) = (2 ^ 54 - 1) * 2 ^ (970 : ℤ) := by
  rw [sub_mul, one_mul, two_pow_mul_zpow]
  exact congrArg₂ _ (zpow_natCast 2 1024).symm (zpow_natCast 2 970).symm

section
variable {x : ℚ} {e : ℤ} {q : ℕ} (h : RoundsTo x e q)
include h

theorem RoundsTo.sig_le : q ≤ 2 ^ 53 := by
  have ht : x / 2 ^ e < 2 ^ 53 := (div_lt_iff₀ (zpow_pos two_pos e)).2 h.lt_binade
  have hq := (abs_le.1 h.half).1
  by_contra hc
  have hc' : (2 : ℚ) ^ 53 + 1 ≤ q := by exact_mod_cast not_le.1 hc
  linarith

theorem RoundsTo.sig_ge (hne : e ≠ -1074) : 2 ^ 52 ≤ q := by
  have ht : 2 ^ 52 ≤ x / 2 ^ e := (le_div_iff₀ (zpow_pos two_pos e)).2 (h.ge_binade hne)
  have hq := (abs_le.1 h.half).2
  by_contra hc
  have hc' : (q : ℚ) + 1 ≤ 2 ^ 52 := by exact_mod_cast not_le.1 hc
  linarith

/-- In the largest binade the significand carries out exactly from the midpoint up: there the tie goes to `2^53`, since
`2^53 - 1` is odd. -/
theorem RoundsTo.sig_carry_iff : 2 ^ 53 ≤ q ↔ (2 ^ 53 - 1 / 2 : ℚ) ≤ x / 2 ^ e := by
  obtain ⟨hlo, hhi⟩ := abs_le.1 h.half
  constructor
  · intro hq
    have hq' : (2 : ℚ) ^ 53 ≤ q := by exact_mod_cast hq
    linarith
  · intro ht
    by_contra hc
    have hlt : (q : ℚ) + 1 ≤ 2 ^ 53 := by exact_mod_cast not_le.1 hc
    have htie : |x / 2 ^ e - q| = 1 / 2 := by
      rw [abs_of_nonneg (by linarith)]
      linarith
    have hodd : q + 1 = 2 ^ 53 := by
      have : (q : ℚ) + 1 = 2 ^ 53 := by linarith
      exact_mod_cast this
    have heven := h.even_of_tie htie
    omega

/-- The infinity is given exactly from half a spacing below `2^1024` up (R11). -/
theorem RoundsTo.overflow_iff : infMag ≤ (e + 1074).toNat * 2 ^ 52 + q ↔ (2 ^ 1024 - 2 ^ 970 : ℚ) ≤ x := by
  have hinf : infMag = 2047 * 2 ^ 52 := rfl
  have hu : (0 : ℚ) < 2 ^ (970 : ℤ) := zpow_pos two_pos _
  rw [overflow_threshold]
  rcases lt_trichotomy e 971 with hlt | rfl | hgt
  · have hx : x < 2 ^ 53 * 2 ^ (970 : ℤ) := h.lt_binade.trans_le
      (mul_le_mul_of_nonneg_left (zpow_le_zpow_right₀ one_le_two (by omega)) (by norm_num))
    have hq := h.sig_le
    exact iff_of_false (by omega) (hx.trans_le (mul_le_mul_of_nonneg_right (by norm_num) hu.le)).not_ge
  · have hmid : (2 ^ 54 - 1 : ℚ) * 2 ^ (970 : ℤ) = (2 ^ 53 - 1 / 2) * 2 ^ (971 : ℤ) := by
      rw [show (971 : ℤ) = 970 + 1 from rfl, zpow_add_one₀ two_ne_zero]
      ring
    rw [hmid, ← le_div_iff₀ (zpow_pos two_pos _), ← h.sig_carry_iff]
    omega
  · have hx : 2 ^ 54 * 2 ^ (970 : ℤ) ≤ x := by
      calc (2 : ℚ) ^ 54 * 2 ^ (970 : ℤ) = 2 ^ (54 + 970 : ℤ) := two_pow_mul_zpow 54 970
        _ ≤ 2 ^ (52 + e) := zpow_le_zpow_right₀ one_le_two (by omega)
        _ = 2 ^ 52 * 2 ^ e := (two_pow_mul_zpow 52 e).symm
        _ ≤ x := h.ge_binade (by omega)
    have hq := h.sig_ge (by omega)
    exact iff_of_true (by omega) ((mul_le_mul_of_nonneg_right (by norm_num) hu.le).trans hx)

end

/-! ### Nearness -/

/-- A finite value is an integer below 2^53 in size times a power of two no smaller than the subnormal spacing. -/
theorem ratValue_int_form {b : B64} {z : ℚ} (h : ratValue b = some z) :
    ∃ n f : ℤ, z = n * 2 ^ f ∧ |n| < 2 ^ 53 ∧ -1074 ≤ f := by
  obtain ⟨neg, m, f, rfl, hf, hm, -⟩ := ratValue_form h
  have hm' : (m : ℤ) < 2 ^ 53 := by exact_mod_cast hm
  cases neg with
  | false => exact ⟨m, f, by simp, by rwa [Nat.abs_cast], hf⟩
  | true => exact ⟨-m, f, by simp, by rwa [abs_neg, Nat.abs_cast], hf⟩

/-- An integer within one half is nearest, and another integer as near makes it a tie. -/
theorem nearest_int_of_half {t : ℚ} {q : ℤ} (h : |t - q| ≤ 1 / 2) (n : ℤ) :
    |t - q| ≤ |t - n| ∧ (|t - q| = |t - n| → n = q ∨ |t - q| = 1 / 2) := by
  rcases eq_or_ne n q with rfl | hne
  · exact ⟨le_refl _, fun _ => .inl rfl⟩
  · have hgap : (1 : ℚ) ≤ |(n : ℚ) - q| := by exact_mod_cast Int.one_le_abs (sub_ne_zero.2 hne)
    have htri : |(n : ℚ) - q| ≤ |t - n| + |t - q| := by
      rw [abs_sub_comm t n]
      exact abs_sub_le _ _ _
    exact ⟨by linarith, fun heq => .inr (by linarith)⟩

section
variable {x : ℚ} {e : ℤ} {q : ℕ} (h : RoundsTo x e q)
include h

/-- Among the multiples of the spacing the rounded one is nearest. -/
theorem RoundsTo.nearest_multiple (n : ℤ) :
    |x - q * 2 ^ e| ≤ |x - n * 2 ^ e| ∧
      (|x - q * 2 ^ e| = |x - n * 2 ^ e| → (n : ℚ) * 2 ^ e = q * 2 ^ e ∨ q % 2 = 0) := by
  have hu : (0 : ℚ) < 2 ^ e := zpow_pos two_pos e
  have hscale (k : ℚ) : |x - k * 2 ^ e| = |x / 2 ^ e - k| * 2 ^ e := by
    rw [← abs_of_pos hu, ← abs_mul, abs_of_pos hu, sub_mul, div_mul_cancel₀ _ hu.ne']
  obtain ⟨hle, htie⟩ := nearest_int_of_half (q := q) (by exact_mod_cast h.half) n
  rw [Int.cast_natCast] at hle htie
  rw [hscale, hscale]
  refine ⟨mul_le_mul_of_nonneg_right hle hu.le, fun heq => ?_⟩
  rcases htie (mul_right_cancel₀ hu.ne' heq) with rfl | hhalf
  · exact .inl (by rw [Int.cast_natCast])
  · exact .inr (h.even_of_tie hhalf)

/-- No finite value is nearer than the rounded one. A value of a finer spacing lies below the binade of `x`, whose lower end
is a multiple of the spacing. -/
theorem RoundsTo.nearest {n f : ℤ} (hn : |n| < 2 ^ 53) (hf : -1074 ≤ f) :
    |x - q * 2 ^ e| ≤ |x - n * 2 ^ f| ∧
      (|x - q * 2 ^ e| = |x - n * 2 ^ f| → (n : ℚ) * 2 ^ f = q * 2 ^ e ∨ q % 2 = 0) := by
  rcases le_or_gt e f with hef | hfe
  · obtain ⟨k, rfl⟩ := Int.le.dest hef
    have hmul : (n : ℚ) * 2 ^ (e + k) = ((n * 2 ^ k : ℤ) : ℚ) * 2 ^ e := by
      rw [zpow_add₀ two_ne_zero, zpow_natCast]
      push_cast
      ring
    rw [hmul]
    exact h.nearest_multiple _
  · have hlow := h.ge_binade (by omega)
    have hz : (n : ℚ) * 2 ^ f < 2 ^ 52 * 2 ^ e := by
      have hn' : (n : ℚ) < 2 ^ 53 := by exact_mod_cast (le_abs_self n).trans_lt hn
      calc (n : ℚ) * 2 ^ f < 2 ^ 53 * 2 ^ f := mul_lt_mul_of_pos_right hn' (zpow_pos two_pos f)
        _ = 2 ^ (53 + f) := two_pow_mul_zpow 53 f
        _ ≤ 2 ^ (52 + e) := zpow_le_zpow_right₀ one_le_two (by omega)
        _ = 2 ^ 52 * 2 ^ e := (two_pow_mul_zpow 52 e).symm
    have hend := (h.nearest_multiple (2 ^ 52)).1
    rw [Int.cast_pow, Int.cast_ofNat, abs_of_nonneg (sub_nonneg.2 hlow)] at hend
    have hlt : |x - q * 2 ^ e| < |x - n * 2 ^ f| := by
      rw [abs_of_pos (sub_pos.2 (hz.trans_le hlow))]
      linarith
    exact ⟨hlt.le, fun heq => absurd heq hlt.ne⟩

end

/-! ### `fl64` -/

/-- Nearness of a rounded magnitude carries over to the signed value: a sign moves across a distance, and the finite values
are closed under it. -/
theorem RoundsTo.nearest_signed {x : ℚ} {e : ℤ} {q : ℕ} (h : RoundsTo x e q) {σ : ℚ} (hσ : σ = 1 ∨ σ = -1) {b : B64}
    {z : ℚ} (hz : ratValue b = some z) :
    |σ * x - σ * (q * 2 ^ e)| ≤ |σ * x - z| ∧
      (|σ * x - σ * (q * 2 ^ e)| = |σ * x - z| → z = σ * (q * 2 ^ e) ∨ q % 2 = 0) := by
  have hσσ (a : ℚ) : σ * (σ * a) = a := by rcases hσ with rfl | rfl <;> ring
  have hmove (a : ℚ) : |σ * x - a| = |x - σ * a| := by
    have habs : |σ| = 1 := by rcases hσ with rfl | rfl <;> simp
    calc |σ * x - a| = |σ * (x - σ * a)| := by rw [mul_sub, hσσ]
      _ = |x - σ * a| := by rw [abs_mul, habs, one_mul]
  obtain ⟨n, f, hn, hf, hzn⟩ : ∃ n f : ℤ, |n| < 2 ^ 53 ∧ -1074 ≤ f ∧ σ * z = n * 2 ^ f := by
    obtain ⟨n, f, rfl, hn, hf⟩ := ratValue_int_form hz
    rcases hσ with rfl | rfl
    · exact ⟨n, f, hn, hf, one_mul _⟩
    · exact ⟨-n, f, by rwa [abs_neg], hf, by push_cast; ring⟩
  obtain ⟨hle, htie⟩ := h.nearest hn hf
  rw [hmove, hmove, hσσ, hzn]
  exact ⟨hle, fun heq => (htie heq).imp_left fun hval => by rw [← hval, ← hzn, hσσ]⟩

/-- Settles O55: the magnitude bits come from a `RoundsTo`, whose overflow and nearness decide the two cases. -/
theorem fl64Nearest : Obligations.Fl64Nearest := by
  intro neg num den hd
  obtain ⟨e, q, hr, hmag⟩ := roundMag_roundsTo num hd
  have hlt := roundMag_lt num den
  refine ⟨signed64_msb neg hlt, ?_⟩
  unfold fl64
  rcases le_or_gt infMag ((e + 1074).toNat * 2 ^ 52 + q) with hinf | hfin
  · left
    rw [hmag, min_eq_right hinf]
    exact ⟨unpack_inf64 neg, hr.overflow_iff.1 hinf⟩
  · right
    rw [min_eq_left hfin.le] at hmag
    rw [hmag] at hlt ⊢
    refine ⟨not_le.1 (mt hr.overflow_iff.2 (not_le.2 hfin)), _,
      ratValue_mag neg hr.exp_ge hr.sig_le hr.sig_ge hfin, fun b z hz => ?_⟩
    obtain ⟨hle, htie⟩ := hr.nearest_signed (σ := if neg then -1 else 1) (by cases neg <;> simp) hz
    refine ⟨hle, fun heq => (htie heq).imp_right fun heven => ?_⟩
    rw [signed64_lsb neg hlt]
    exact decide_eq_false (by omega)

end Sys2Proof.Machine

/-! PROOFS. What one engine step writes, field by field, read off the list of its next states. -/
namespace Sys2Proof.Machine

variable {s t : State}

/-- The fields an engine step may write; every other field is kept. -/
theorem engineForm_eq (h : EngineForm s t) :
    t = { s with
      status := t.status, resLo := t.resLo, resHi := t.resHi, errInfo0 := t.errInfo0, errInfo1 := t.errInfo1
      msg := t.msg, table := t.table, prm := t.prm, prog := t.prog, estate := t.estate, obuf := t.obuf } := by
  cases h with
  | unp => rw [nextPoint_eq]; rfl
  | masked => rw [maskedPoint, nextPoint_eq]; rfl
  | present => rw [presentPoint, nextPoint_eq]; rfl
  | take => rw [takeSection_eq]
  | _ => rfl

/-- OBUF is written at the running UNPACK's point only (R77). -/
theorem engineForm_obuf (h : EngineForm s t) :
    t.obuf = s.obuf ∨ ∃ i c k o, s.estate = .unp i c k ∧ t.obuf = Cells.write s.obuf i o := by
  cases h with
  | unp => rw [nextPoint_eq]; exact .inl rfl
  | masked he => rw [maskedPoint, nextPoint_eq]; exact .inr ⟨_, _, _, _, he, rfl⟩
  | present he => rw [presentPoint, nextPoint_eq]; exact .inr ⟨_, _, _, _, he, rfl⟩
  | take => rw [takeSection_eq]; exact .inl rfl
  | _ => exact .inl rfl

/-- RES is written by a codec command only (R30). -/
theorem engineForm_res (h : EngineForm s t) :
    (t.resLo = s.resLo ∧ t.resHi = s.resHi) ∨
      ∃ w i, s.estate = .start w ∧ decode w = .ok i ∧ ((∃ n, i = .uint n ∨ i = .smint n) ∨ i = .f32) := by
  cases h with
  | codec he hd hi => exact .inr ⟨_, _, he, hd, hi⟩
  | unp => rw [nextPoint_eq]; exact .inl ⟨rfl, rfl⟩
  | masked => rw [maskedPoint, nextPoint_eq]; exact .inl ⟨rfl, rfl⟩
  | present => rw [presentPoint, nextPoint_eq]; exact .inl ⟨rfl, rfl⟩
  | take => rw [takeSection_eq]; exact .inl ⟨rfl, rfl⟩
  | _ => exact .inl ⟨rfl, rfl⟩

/-- The message registers, MSG_END and MSG_VALID are written by MSGINIT and MSGNEXT only (R34, R35). -/
theorem engineForm_msg (h : EngineForm s t) :
    (t.msg = s.msg ∧ t.status.msgEnd = s.status.msgEnd ∧ t.status.msgValid = s.status.msgValid) ∨
      ∃ w, s.estate = .start w ∧ (decode w = .ok .msginit ∨ decode w = .ok .msgnext) := by
  cases h with
  | init he hd => exact .inr ⟨_, he, .inl hd⟩
  | nextEnd he hd => exact .inr ⟨_, he, .inr hd⟩
  | nextMsg he hd => exact .inr ⟨_, he, .inr hd⟩
  | unp => rw [nextPoint_eq, nextPoint_status]; exact .inl ⟨rfl, rfl, rfl⟩
  | masked => rw [maskedPoint, nextPoint_eq, nextPoint_status]; exact .inl ⟨rfl, rfl, rfl⟩
  | present => rw [presentPoint, nextPoint_eq, nextPoint_status]; exact .inl ⟨rfl, rfl, rfl⟩
  | take =>
    obtain ⟨a, b, hs⟩ := takeSection_status _ _ _ _ s
    rw [takeSection_eq, hs]
    exact .inl ⟨rfl, rfl, rfl⟩
  | _ => exact .inl ⟨rfl, rfl, rfl⟩

/-- No warning is cleared, and W_DROP is not written (R262). -/
theorem engineForm_warnings (h : EngineForm s t) :
    (s.status.wTrunc = true → t.status.wTrunc = true) ∧ (s.status.wSectnum = true → t.status.wSectnum = true) ∧
      (s.status.wDup = true → t.status.wDup = true) ∧ (s.status.wNonfinite = true → t.status.wNonfinite = true) ∧
      t.status.wDrop = s.status.wDrop := by
  cases h with
  | nextMsg => exact ⟨Bool.or_inl, id, id, id, rfl⟩
  | unp => rw [nextPoint_status]; exact ⟨id, id, id, id, rfl⟩
  | masked => rw [maskedPoint, nextPoint_status]; exact ⟨id, id, id, id, rfl⟩
  | present => rw [presentPoint, nextPoint_status]; exact ⟨id, id, id, Bool.or_inl, rfl⟩
  | take =>
    obtain ⟨a, b, hs⟩ := takeSection_status _ _ _ _ s
    rw [hs]
    exact ⟨id, Bool.or_inl, Bool.or_inl, id, rfl⟩
  | _ => exact ⟨id, id, id, id, rfl⟩

/-- Settles O27: one lemma for each part of the frame; a write to OBUF at the point leaves every other entry alone. -/
theorem engineStepFrame : Obligations.EngineStepFrame := by
  intro s t hs
  have hf := engineForm_of_next hs
  have heq := engineForm_eq hf
  refine ⟨?config, ?ibuf, ?obuf, ?res, ?msg, engineForm_warnings hf⟩
  case config => rw [heq]; exact ⟨rfl, rfl, rfl, rfl, rfl, rfl, rfl, rfl⟩
  case ibuf => rw [heq]; exact fun _ => rfl
  case obuf =>
    intro j hj
    rcases engineForm_obuf hf with ho | ⟨i, c, k, o, he, ho⟩ <;> rw [ho]
    exact Cells.read_write_other _ _ (hj i c k he)
  case res =>
    intro hno
    rcases engineForm_res hf with hkept | ⟨w, i, he, hd, ⟨n, rfl | rfl⟩ | rfl⟩
    · exact hkept
    · exact absurd hd (hno w he n).1
    · exact absurd hd (hno w he n).2.1
    · exact absurd hd (hno w he 0).2.2
  case msg =>
    intro hno
    rcases engineForm_msg hf with hkept | ⟨w, he, hd | hd⟩
    · exact hkept
    · exact absurd hd (hno w he).1
    · exact absurd hd (hno w he).2

end Sys2Proof.Machine

/-! PROOFS. Every step keeps the invariant: an engine step part by part, a host access outcome by outcome, and RESET. -/
namespace Sys2Proof

/-- The span field of a command made from a legal span is that span (R102). -/
theorem instrSpan_instrOf {o : Opcode} {n : BitVec 4} (h : spanLegal o n = true) : instrSpan (instrOf o n) = n := by
  cases o with
  | uint => rfl
  | smint => rfl
  | _ => exact (eq_of_beq h).symm

/-- A word that decodes is the encoding of its command (R100 to R103). -/
theorem encode_of_decode {w : Word} {i : Instr} (h : decode w = .ok i) : encode i = w := by
  unfold decode at h
  split at h
  · cases h
  · rename_i o ho
    split at h
    · cases h
    · rename_i hrsv
      split at h
      · rename_i hspan
        cases h
        rw [encode, instrOpcode_instrOf, instrSpan_instrOf hspan, ← (opcodeOfByte_iff _ _).1 ho,
          ← not_not.1 hrsv, ← word_fields]
      · cases h

namespace Machine

variable {s t : State}

/-! ### The buffers -/

/-- OBUF is written at a point below NPTS, which is at most OUT_MAX. -/
theorem BufferInv.of_engineForm (h : BufferInv s) (hu : UnpackInv s) (hf : EngineForm s t) : BufferInv t := by
  rw [engineForm_eq hf]
  rcases engineForm_obuf hf with ho | ⟨i, c, k, o, he, ho⟩
  · exact h.congr rfl rfl ho rfl
  · obtain ⟨-, hi, hn, -⟩ := hu.running i c k he
    exact (h.writeOut (hi.trans_le hn) o).congr rfl rfl ho rfl

/-! ### The engine and the fault registers -/

/-- The engine runs a command: BUSY is 1, and DONE, ERR and the fault information are clear (R251, R255). -/
def Running (s : State) : Prop :=
  s.status.busy = true ∧ s.status.done = false ∧ s.status.err = false ∧ s.status.errcode = 0#8 ∧ s.errInfo0 = 0#8 ∧
    s.errInfo1 = 0#32

theorem EngineInv.running (h : EngineInv s) (hrun : s.estate ≠ .idle) : Running s := by
  have herr : s.status.err = false := Bool.eq_false_iff.2 fun he => hrun (h.err_idle he).1
  exact ⟨h.busy_iff.2 hrun, h.busy_not_done hrun, herr, h.errcode_iff.2 herr, h.info_clear herr⟩

theorem Running.takeSection (h : Running s) (ptr stop len num : Nat) : Running (takeSection ptr stop len num s) := by
  obtain ⟨a, b, hs⟩ := takeSection_status ptr stop len num s
  rw [takeSection_eq, hs]
  exact h

/-- A command completes. -/
theorem Running.engineInv_finish (h : Running s) : EngineInv (finish s) := by
  obtain ⟨-, -, herr, hcode, h0, h1⟩ := h
  constructor <;> simp [herr, hcode, h0, h1]

theorem errByte_bounds (e : ErrCode) : errByte e ≠ 0#8 ∧ (errByte e).toNat ≤ 0x0F := by cases e <;> decide

/-- A command faults. -/
theorem Running.engineInv_raise (h : Running s) {opc : Byte} (hopc : opc = opcOf s.lastCmd) (e : ErrCode) (info : Word) :
    EngineInv (raise opc e info s) := by
  obtain ⟨-, hdone, -⟩ := h
  obtain ⟨hne, hle⟩ := errByte_bounds e
  constructor <;> simp [hdone, hopc, hne, hle]

/-- A command stands at a state of its own. -/
theorem Running.engineInv (h : Running s) (hrun : s.estate ≠ .idle)
    (hstart : ∀ w, s.estate = .start w → s.lastCmd = w)
    (hsect : ∀ ptr stop, s.estate = .sect ptr stop → s.lastCmd = encode .sectsplit)
    (hunp : ∀ i c k, s.estate = .unp i c k → s.lastCmd = encode .unpack) : EngineInv s := by
  obtain ⟨hbusy, hdone, herr, hcode, h0, h1⟩ := h
  exact
    { busy_iff := by simp [hbusy, hrun]
      busy_not_done := fun _ => hdone
      err_idle := by simp [herr]
      errcode_iff := by simp [hcode, herr]
      errcode_le := by simp [hcode]
      info_clear := fun _ => ⟨h0, h1⟩
      info_opcode := by simp [herr]
      start_word := hstart
      sect_word := hsect
      unp_word := hunp }

theorem Running.engineInv_sect (h : Running s) {ptr stop : Nat} (he : s.estate = .sect ptr stop)
    (hcmd : s.lastCmd = encode .sectsplit) : EngineInv s :=
  h.engineInv (by simp [he]) (by simp [he]) (fun _ _ _ => hcmd) (by simp [he])

theorem Running.engineInv_unp (h : Running s) {i c k : Nat} (he : s.estate = .unp i c k)
    (hcmd : s.lastCmd = encode .unpack) : EngineInv s :=
  h.engineInv (by simp [he]) (by simp [he]) (by simp [he]) (fun _ _ _ _ => hcmd)

theorem Running.engineInv_nextPoint (h : Running s) (hcmd : s.lastCmd = encode .unpack) (i c k : Nat) :
    EngineInv (nextPoint i c k s) := by
  rcases nextPoint_cases i c k s with ⟨-, e⟩ | ⟨-, e⟩ <;> rw [e]
  · exact Running.engineInv_finish h
  · exact Running.engineInv_unp h rfl hcmd

theorem EngineInv.lastCmd_of_start (h : EngineInv s) {w : Word} {i : Instr} (he : s.estate = .start w)
    (hd : decode w = .ok i) : s.lastCmd = encode i := by
  rw [h.start_word w he, encode_of_decode hd]

theorem opcode_of_lastCmd {i : Instr} (h : s.lastCmd = encode i) : opcodeByte (instrOpcode i) = opcOf s.lastCmd := by
  rw [h, opcOf_encode]

theorem engineForm_idle_or_running (h : EngineForm s t) : t = s ∨ s.estate ≠ .idle := by
  cases h with
  | idle => exact .inl rfl
  | _ => exact .inr (by simp [*])

theorem EngineInv.of_engineForm (h : EngineInv s) (hf : EngineForm s t) : EngineInv t := by
  rcases engineForm_idle_or_running hf with rfl | hrun
  · exact h
  have hr := h.running hrun
  have hopc {w : Word} {i : Instr} (he : s.estate = .start w) (hd : decode w = .ok i) :=
    opcode_of_lastCmd (h.lastCmd_of_start he hd)
  cases hf with
  | idle => exact h
  | illegal he => exact hr.engineInv_raise (by rw [h.start_word _ he]) _ _
  | nop => exact hr.engineInv_finish
  | codecFault he hd => exact hr.engineInv_raise (hopc he hd) _ _
  | codec => exact Running.engineInv_finish hr
  | initFault he hd => exact hr.engineInv_raise (hopc he hd) _ _
  | init => exact Running.engineInv_finish hr
  | nextEnd => exact Running.engineInv_finish hr
  | nextFault he hd => exact hr.engineInv_raise (hopc he hd) _ _
  | nextMsg => exact Running.engineInv_finish hr
  | splitFault he hd => exact hr.engineInv_raise (hopc he hd) _ _
  | splitMagic he hd => exact Running.engineInv_raise (s := clearTable s) hr (hopc he hd) _ _
  | split he hd => exact Running.engineInv_sect hr rfl (h.lastCmd_of_start he hd)
  | unpFault he hd => exact Running.engineInv_raise (s := dropOutput s) hr (hopc he hd) _ _
  | unp he hd => exact Running.engineInv_nextPoint (s := dropOutput s) hr (h.lastCmd_of_start he hd) _ _ _
  | close => exact Running.engineInv_finish hr
  | headFault he => exact hr.engineInv_raise (opcode_of_lastCmd (h.sect_word _ _ he)) _ _
  | take he =>
    refine (hr.takeSection _ _ _ _).engineInv_sect (by rw [takeSection_eq]) ?_
    rw [takeSection_eq]
    exact h.sect_word _ _ he
  | pointFault he => exact hr.engineInv_raise (opcode_of_lastCmd (h.unp_word _ _ _ he)) _ _
  | masked he => exact Running.engineInv_nextPoint (s := writeOut _ _ s) hr (h.unp_word _ _ _ he) _ _ _
  | present he =>
    exact Running.engineInv_nextPoint (s := warnNonfinite _ (writeOut _ _ s)) hr (h.unp_word _ _ _ he) _ _ _

/-! ### The framer -/

@[simp] theorem getElem_slots_empty (n : Nat) (h : n < 9) : SectTable.empty.slots[n] = Slot.absent :=
  slot_empty ⟨n, h⟩

@[simp] theorem present_absent : Slot.absent.present = false := rfl

theorem FramerInv.nextPoint (h : FramerInv s) (i c k : Nat) : FramerInv (nextPoint i c k s) := by
  rcases nextPoint_cases i c k s with ⟨-, e⟩ | ⟨-, e⟩ <;> rw [e] <;> exact h.congr rfl rfl rfl rfl rfl rfl nofun

theorem FramerInv.of_no_message (hvalid : t.status.msgValid = false) (hsect : t.status.sectValid = false)
    (htable : t.table = SectTable.empty) (hne : ∀ ptr stop, t.estate ≠ .sect ptr stop) : FramerInv t where
  end_not_valid _ := hvalid
  sect_has_msg := by simp [hsect]
  span := by simp [hvalid]
  no_message _ := htable
  absent_zero := by simp [htable]
  slot_zero := by simp [htable]
  slot_inside := by simp [htable]
  framed := by simp [hsect]
  running ptr stop he := absurd he (hne ptr stop)

theorem FramerInv.clearTable (h : FramerInv s) (hne : ∀ ptr stop, s.estate ≠ .sect ptr stop) :
    FramerInv (clearTable s) :=
  { h with
    sect_has_msg := nofun
    no_message := fun _ => rfl
    absent_zero := by simp
    slot_zero := by simp
    slot_inside := by simp
    framed := nofun
    running := fun ptr stop he => absurd he (hne ptr stop) }

/-- MSGNEXT's message ends inside the valid buffer, and so inside IBUF (R144). -/
theorem FramerInv.selectMessage {decl : Nat} (hend : s.status.msgEnd = false)
    (hptr : s.msg.ptr.toNat + 16 ≤ s.bufLen.toNat) (hbuf : s.bufLen.toNat ≤ s.par.ibufSize) (hdecl : 16 ≤ decl) :
    FramerInv (selectMessage decl (s.bufLen.toNat - s.msg.ptr.toNat) s) where
  end_not_valid h := absurd (hend.symm.trans h) nofun
  sect_has_msg := nofun
  span _ := by
    have hlt := s.bufLen.isLt
    simp only [Machine.selectMessage, finish_msg, finish_par, messageStartReset_msg, messageStartReset_par, warnTrunc_par,
      BitVec.toNat_ofNat]
    omega
  no_message := nofun
  absent_zero := by simp [Machine.selectMessage]
  slot_zero := by simp [Machine.selectMessage]
  slot_inside := by simp [Machine.selectMessage]
  framed := nofun
  running := nofun

/-- SECTSPLIT's start step records section 0 alone and goes on behind it (R149). -/
theorem FramerInv.openSections (h : FramerInv s) {disc edition : Byte} (hvalid : s.status.msgValid = true)
    (hlen : s.msg.base.toNat + s.msg.len.toNat ≤ s.bufLen.toNat) :
    FramerInv (openSections s.msg.base.toNat (s.msg.base.toNat + s.msg.len.toNat) disc edition
      (Machine.clearTable s)) := by
  have hslot := openSections_slots s.msg.base.toNat (s.msg.base.toNat + s.msg.len.toNat) disc edition s
  have hzero := (hslot 0).trans (if_pos rfl)
  have hother (n : Fin 9) (hn : n ≠ 0) := (hslot n).trans (if_neg (Fin.val_ne_of_ne hn))
  obtain ⟨hspan, -, -⟩ := h.span hvalid
  exact
    { end_not_valid := h.end_not_valid
      sect_has_msg := nofun
      span := h.span
      no_message := fun hv => absurd (hvalid.symm.trans hv) nofun
      absent_zero := fun n hn => by
        rcases eq_or_ne n 0 with rfl | hne
        · rw [hzero] at hn
          cases hn
        · exact hother n hne
      slot_zero := fun _ => by
        rw [hzero]
        exact ⟨BitVec.ofNat_toNat .., rfl⟩
      slot_inside := fun n hn => by
        rw [hother n hn]
        nofun
      framed := nofun
      running := fun ptr stop he => by
        obtain ⟨rfl, rfl⟩ := EState.sect.inj he
        refine ⟨hvalid, rfl, rfl, hlen, le_rfl, Nat.add_le_add_left hspan _, by rw [hzero], fun n hn => ?_⟩
        rw [hother n hn]
        nofun }

/-- A slot after a section is taken: as it was, or the section, whose number is not 0. -/
theorem takeSection_slot_cases (ptr stop len : Nat) (num : Byte) (s : State) (n : Fin 9) :
    (takeSection ptr stop len num.toNat s).table.slots[n] = s.table.slots[n] ∨
      n ≠ 0 ∧ (takeSection ptr stop len num.toNat s).table.slots[n] =
        { present := true, addr := BitVec.ofNat 32 ptr, len := BitVec.ofNat 32 len } := by
  rw [takeSection_slots]
  split
  · rename_i hn
    exact .inr ⟨hn.2, rfl⟩
  · exact .inl rfl

/-- The section taken begins where the sections recorded end, and ends where the next header step looks (R152). -/
theorem FramerInv.takeSection (h : FramerInv s) {ptr stop len : Nat} (he : s.estate = .sect ptr stop) (h5 : 5 ≤ len)
    (hlen : len ≤ stop - ptr) (num : Byte) : FramerInv (takeSection ptr stop len num.toNat s) := by
  obtain ⟨hvalid, hsv, hstop, hbuf, hptr, hle, h0, hpast⟩ := h.running ptr stop he
  have hlt := s.bufLen.isLt
  have hptr32 : (BitVec.ofNat 32 ptr).toNat = ptr := Nat.mod_eq_of_lt (by omega)
  have hlen32 : (BitVec.ofNat 32 len).toNat = len := Nat.mod_eq_of_lt (by omega)
  have hslot := takeSection_slot_cases ptr stop len num s
  have hzero := (hslot 0).resolve_right fun hn => hn.1 rfl
  obtain ⟨a, b, hs⟩ := takeSection_status ptr stop len num.toNat s
  rw [takeSection_eq, hs]
  exact
    { h with
      no_message := fun hv => absurd (hvalid.symm.trans hv) nofun
      absent_zero := fun n => by
        rcases hslot n with hn | ⟨-, hn⟩ <;> rw [hn]
        · exact h.absent_zero n
        · nofun
      slot_zero := by
        rw [hzero]
        exact h.slot_zero
      slot_inside := fun n hne => by
        rcases hslot n with hn | ⟨-, hn⟩ <;> rw [hn]
        · exact h.slot_inside n hne
        · intro _
          rw [hptr32, hlen32]
          exact ⟨hptr, h5, show ptr + len ≤ s.msg.base.toNat + s.msg.len.toNat by omega⟩
      framed := fun hv => absurd (hsv.symm.trans hv) nofun
      running := fun ptr' stop' he' => by
        obtain ⟨rfl, rfl⟩ := EState.sect.inj he'
        refine ⟨hvalid, hsv, hstop, hbuf, hptr.trans (Nat.le_add_right _ _), by omega, hzero ▸ h0, fun n hne => ?_⟩
        rcases hslot n with hn | ⟨-, hn⟩ <;> rw [hn]
        · exact fun hp => (hpast n hne hp).trans (Nat.le_add_right _ _)
        · intro _
          rw [hptr32, hlen32] }

/-- The marker stands past every section recorded, inside the message (R151, R154). -/
theorem FramerInv.closeSections (h : FramerInv s) {ptr stop : Nat} (he : s.estate = .sect ptr stop)
    (h4 : 4 ≤ stop - ptr) : FramerInv (closeSections ptr s) := by
  obtain ⟨hvalid, -, hstop, hbuf, hptr, -, h0, hpast⟩ := h.running ptr stop he
  have hend : (BitVec.ofNat 32 ptr).toNat = ptr := Nat.mod_eq_of_lt (by have := s.bufLen.isLt; omega)
  exact
    { h with
      sect_has_msg := fun _ => hvalid
      no_message := fun hv => absurd (hvalid.symm.trans hv) nofun
      framed := fun _ => by
        rw [closeSections_table, closeSections_msg, hend]
        exact ⟨h0, hptr, by omega, hpast⟩
      running := nofun }

theorem FramerInv.of_engineForm (h : FramerInv s) (hbuf : s.bufLen.toNat ≤ s.par.ibufSize) (hf : EngineForm s t) :
    FramerInv t := by
  cases hf with
  | idle => exact h
  | init => exact .of_no_message rfl rfl rfl nofun
  | nextEnd => exact .of_no_message rfl rfl rfl nofun
  | nextMsg _ _ hend hptr hdecl => exact .selectMessage hend hptr hbuf hdecl
  | splitMagic he => exact (h.clearTable (by simp [he])).congr rfl rfl rfl rfl rfl rfl nofun
  | split _ _ hvalid hlen => exact h.openSections hvalid hlen
  | close he h4 => exact h.closeSections he h4
  | take he h5 hlen => exact h.takeSection he h5 hlen _
  | unp => exact FramerInv.nextPoint (s := dropOutput s) { h with } _ _ _
  | masked => exact FramerInv.nextPoint (s := writeOut _ _ s) { h with } _ _ _
  | present => exact FramerInv.nextPoint (s := warnNonfinite _ (writeOut _ _ s)) { h with } _ _ _
  | _ => exact h.congr rfl rfl rfl rfl rfl rfl nofun

/-! ### UNPACK -/

/-- UNPACK has passed its start checks and stands at point `i` with cursor `c`, `k` codewords read and the entries below
the point written; at NPTS it completes (R183, R186, R190). -/
structure Unpacking (i c k : Nat) (s : State) : Prop where
  no_result : s.status.outValid = false ∧ s.prog.outCount = 0#32
  point_le : i ≤ s.prm.npts.toNat
  npts_le : s.prm.npts.toNat ≤ s.par.outMax
  template : s.prm.drt = 0#16
  width_le : s.prm.width.toNat ≤ 32
  data_inside : s.prm.dataAddr.toNat + s.prm.dataLen.toNat ≤ s.bufLen.toNat
  bitmap_inside : s.prm.bmpEn = true → s.prm.bmpAddr.toNat + s.prm.bmpLen.toNat ≤ s.bufLen.toNat
  cursor_eq : c = s.prm.width.toNat * k
  words_le : k ≤ i
  cursor_le : c ≤ 8 * s.prm.dataLen.toNat
  written : ∀ j, j < i → (Cells.read s.obuf j).isSome = true

theorem UnpackInv.unpacking (h : UnpackInv s) {i c k : Nat} (he : s.estate = .unp i c k) :
    Unpacking i c k s ∧ i < s.prm.npts.toNat := by
  obtain ⟨hout, hi, hn, ht, hw, hd, hb, -, -, -, hc, hk, hcl, hwr⟩ := h.running i c k he
  exact ⟨⟨⟨hout, h.no_result hout⟩, hi.le, hn, ht, hw, hd, hb, hc, hk, hcl, hwr⟩, hi⟩

/-- UNP_CURSOR can hold the cursor: at most 32 bits for each of at most 2^26 codewords. -/
theorem Unpacking.cursor_lt {i c k : Nat} (h : Unpacking i c k s) (hp : s.par.wf) : c < 2 ^ 32 := by
  have hk : k ≤ 2 ^ 26 := h.words_le.trans (h.point_le.trans (h.npts_le.trans (outMax_bounds hp).2))
  calc c = s.prm.width.toNat * k := h.cursor_eq
    _ ≤ 32 * 2 ^ 26 := Nat.mul_le_mul h.width_le hk
    _ < 2 ^ 32 := by decide

theorem Unpacking.nextPoint {i c k : Nat} (h : Unpacking i c k s) (hp : s.par.wf) : UnpackInv (nextPoint i c k s) := by
  obtain ⟨hout, hcount⟩ := h.no_result
  rcases nextPoint_cases i c k s with ⟨hi, e⟩ | ⟨hi, e⟩ <;> rw [e]
  · exact
      { result := fun _ => ⟨h.npts_le, by simp [hi], by simpa [hi] using h.written⟩
        no_result := nofun
        running := nofun }
  · have hi' : i < s.prm.npts.toNat := lt_of_le_of_ne h.point_le hi
    have hi32 : i < 2 ^ 32 := hi'.trans s.prm.npts.isLt
    exact
      { result := fun hv => absurd (hout.symm.trans hv) nofun
        no_result := fun _ => hcount
        running := fun i' c' k' he => by
          obtain ⟨rfl, rfl, rfl⟩ := EState.unp.inj he
          exact ⟨hout, hi', h.npts_le, h.template, h.width_le, h.data_inside, h.bitmap_inside, Nat.mod_eq_of_lt hi32,
            Nat.mod_eq_of_lt (h.cursor_lt hp), Nat.mod_eq_of_lt (h.words_le.trans_lt hi32), h.cursor_eq, h.words_le,
            h.cursor_le, h.written⟩ }

theorem written_succ {m : Cells OutEntry} {i : Nat} (h : ∀ j, j < i → (Cells.read m j).isSome = true) (o : OutEntry) :
    ∀ j, j < i + 1 → (Cells.read (Cells.write m i o) j).isSome = true := by
  intro j hj
  rw [Cells.read_write]
  split
  · rfl
  · exact h j (by omega)

theorem Unpacking.masked {i c k : Nat} (h : Unpacking i c k s) (hi : i < s.prm.npts.toNat) (o : OutEntry) :
    Unpacking (i + 1) c k (writeOut i o s) :=
  { h with
    point_le := hi
    words_le := h.words_le.trans (Nat.le_succ i)
    written := written_succ h.written o }

theorem Unpacking.present {i c k : Nat} (h : Unpacking i c k s) (hi : i < s.prm.npts.toNat)
    (hc : c + s.prm.width.toNat ≤ 8 * s.prm.dataLen.toNat) (o : OutEntry) (b : Bool) :
    Unpacking (i + 1) (c + s.prm.width.toNat) (k + 1) (warnNonfinite b (writeOut i o s)) :=
  { h with
    point_le := hi
    cursor_eq := by rw [h.cursor_eq]; rfl
    words_le := Nat.succ_le_succ h.words_le
    cursor_le := hc
    written := written_succ h.written o }

theorem UnpackInv.of_no_result (hout : t.status.outValid = false) (hcount : t.prog.outCount = 0#32)
    (hne : ∀ i c k, t.estate ≠ .unp i c k) : UnpackInv t where
  result := by simp [hout]
  no_result _ := hcount
  running i c k he := absurd he (hne i c k)

theorem UnpackInv.of_engineForm (h : UnpackInv s) (hp : s.par.wf) (hf : EngineForm s t) : UnpackInv t := by
  cases hf with
  | idle => exact h
  | init => exact .of_no_result rfl rfl nofun
  | nextEnd => exact .of_no_result rfl rfl nofun
  | nextMsg => exact .of_no_result rfl rfl nofun
  | unpFault => exact .of_no_result rfl rfl nofun
  | unp _ _ ht hw hn hd hb =>
    have hstart : Unpacking 0 0 0 (dropOutput s) :=
      ⟨⟨rfl, rfl⟩, Nat.zero_le _, hn, ht, hw, hd, hb, rfl, le_rfl, Nat.zero_le _, nofun⟩
    exact hstart.nextPoint hp
  | masked he =>
    obtain ⟨hu, hi⟩ := h.unpacking he
    exact (hu.masked hi _).nextPoint hp
  | present he hc =>
    obtain ⟨hu, hi⟩ := h.unpacking he
    exact (hu.present hi hc _ _).nextPoint hp
  | take =>
    obtain ⟨a, b, hs⟩ := takeSection_status _ _ _ _ s
    rw [takeSection_eq, hs]
    exact h.congr rfl rfl rfl rfl nofun
  | _ => exact h.congr rfl rfl rfl rfl nofun

/-- An engine step keeps the invariant. -/
theorem BlockInv.of_engineForm (h : BlockInv s) (hf : EngineForm s t) : BlockInv t where
  buffers := h.buffers.of_engineForm h.unpack hf
  engine := h.engine.of_engineForm hf
  framer := h.framer.of_engineForm h.buffers.bufLen_le hf
  unpack := h.unpack.of_engineForm h.buffers.params hf

/-! ### Writes that only touch fields outside the invariant, or clear and set free bits of STATUS -/

theorem BlockInv.setMoves (h : BlockInv s) (ms : List Move) : BlockInv { s with moves := ms } :=
  ⟨{ h.buffers with }, { h.engine with }, { h.framer with }, { h.unpack with }⟩

theorem BlockInv.setResp (h : BlockInv s) (r : Option BusResp) : BlockInv { s with resp := r } :=
  ⟨{ h.buffers with }, { h.engine with }, { h.framer with }, { h.unpack with }⟩

theorem BlockInv.setAddr (h : BlockInv s) (v : Word) : BlockInv { s with addr := v } :=
  ⟨{ h.buffers with }, { h.engine with }, { h.framer with }, { h.unpack with }⟩

theorem BlockInv.dropWrite (h : BlockInv s) : BlockInv (dropWrite s) :=
  ⟨{ h.buffers with }, { h.engine with }, { h.framer with }, { h.unpack with }⟩

theorem BlockInv.writeIrqEn (h : BlockInv s) (v : Word) : BlockInv (writeIrqEn v s) :=
  ⟨{ h.buffers with }, { h.engine with }, { h.framer with }, { h.unpack with }⟩

theorem writeStatus_done_clear (h : s.status.done = false) (v : Word) : (writeStatus v s).status.done = false :=
  Bool.and_eq_false_imp.2 fun hd => absurd (h.symm.trans hd) nofun

theorem BlockInv.writeStatus (h : BlockInv s) (v : Word) : BlockInv (writeStatus v s) where
  buffers := { h.buffers with }
  engine :=
    { h.engine with
      busy_not_done := fun hrun => writeStatus_done_clear (h.engine.busy_not_done hrun) v
      err_idle := fun herr => (h.engine.err_idle herr).imp_right (writeStatus_done_clear · v) }
  framer := { h.framer with }
  unpack := { h.unpack with }

/-! ### The resets and the error clear (R231, R232, R290) -/

theorem BlockInv.resetRegisters (h : BlockInv s) : BlockInv (resetRegisters s) where
  buffers := { h.buffers with bufLen_le := Nat.zero_le _ }
  engine := by constructor <;> simp [Machine.resetRegisters, State.reset, Status.zero]
  framer := .of_no_message rfl rfl rfl nofun
  unpack := .of_no_result rfl rfl nofun

theorem BlockInv.hardReset (h : BlockInv s) : BlockInv (hardReset s) where
  buffers :=
    { h.resetRegisters.buffers with ibuf_wf := .nil, obuf_wf := .nil, ibuf_inside := nofun, obuf_inside := nofun }
  engine := { h.resetRegisters.engine with }
  framer := { h.resetRegisters.framer with }
  unpack := .of_no_result rfl rfl nofun

theorem BlockInv.clearError (h : BlockInv s) : BlockInv (clearError s) := by
  unfold Machine.clearError
  split
  · exact
      { buffers := { h.buffers with }
        engine :=
          { h.engine with
            err_idle := nofun
            errcode_iff := by simp
            errcode_le := Nat.zero_le _
            info_clear := fun _ => ⟨rfl, rfl⟩
            info_opcode := nofun }
        framer := { h.framer with }
        unpack := { h.unpack with } }
  · exact h

theorem BlockInv.writeCtrl (h : BlockInv s) (v : Word) : BlockInv (writeCtrl v s) := by
  unfold Machine.writeCtrl
  split
  · exact h.resetRegisters
  · split
    · exact h.clearError
    · exact h

/-! ### Writes the block takes only while it is not BUSY (R80, R251) -/

theorem EngineInv.idle_of_not_busy (h : EngineInv s) (hb : s.status.busy = false) : s.estate = .idle :=
  not_not.1 fun hrun => absurd (hb.symm.trans (h.busy_iff.2 hrun)) nofun

theorem BlockInv.accept (h : BlockInv s) (herr : s.status.err = false) (w : Word) : BlockInv (accept w s) := by
  have hr : Running (Machine.accept w s) :=
    ⟨rfl, rfl, herr, h.engine.errcode_iff.2 herr, h.engine.info_clear herr⟩
  exact
    { buffers := { h.buffers with }
      engine := hr.engineInv nofun (fun _ he => EState.start.inj he) nofun nofun
      framer := h.framer.congr rfl rfl rfl rfl rfl rfl nofun
      unpack := h.unpack.congr rfl rfl rfl rfl nofun }

/-- A new BUF_LEN bounds no running command, since none runs. -/
theorem BlockInv.writeBufLen (h : BlockInv s) (hb : s.status.busy = false) (v : Word) : BlockInv (writeBufLen v s) where
  buffers := { h.buffers with bufLen_le := (Nat.mod_le _ _).trans (min_le_right _ _) }
  engine := { h.engine with }
  framer :=
    h.framer.congr rfl rfl rfl rfl rfl rfl fun _ _ he => absurd ((h.engine.idle_of_not_busy hb).symm.trans he) nofun
  unpack :=
    h.unpack.congr rfl rfl rfl rfl fun _ _ _ he => absurd ((h.engine.idle_of_not_busy hb).symm.trans he) nofun

/-- A new parameter file is that of no running UNPACK, since none runs. -/
theorem BlockInv.setPrm (h : BlockInv s) (hb : s.status.busy = false) (p : ParamFile) :
    BlockInv { s with prm := p } where
  buffers := { h.buffers with }
  engine := { h.engine with }
  framer := { h.framer with }
  unpack :=
    h.unpack.congr rfl rfl rfl rfl fun _ _ _ he => absurd ((h.engine.idle_of_not_busy hb).symm.trans he) nofun

theorem BlockInv.storeIbuf (h : BlockInv s) {a n : Nat} (hn : a + n ≤ s.par.ibufSize) (v : Nat) :
    BlockInv { s with ibuf := storeLanes s.ibuf a v n } where
  buffers :=
    { h.buffers with
      ibuf_wf := storeLanes_wf h.buffers.ibuf_wf a v n
      ibuf_inside := fun c hc => by
        rcases mem_storeLanes hc with ⟨-, hlane⟩ | hold
        · exact hlane.trans_le hn
        · exact h.buffers.ibuf_inside c hold }
  engine := { h.engine with }
  framer := { h.framer with }
  unpack := { h.unpack with }

/-! ### One step -/

theorem BlockInv.writeBus (h : BlockInv s) (size : Size) (off : Nat) (v : Word) :
    BlockInv (writeBus s size off v).1 := by
  rcases writeBus_cases s size off v with
    e | e | e | e | e | ⟨hb, ⟨herr, e⟩ | e | e | ⟨p, e⟩ | ⟨a, n, hn, e⟩⟩ <;> rw [e]
  · exact h
  · exact h.dropWrite
  · exact h.writeStatus v
  · exact h.writeCtrl v
  · exact h.writeIrqEn v
  · exact h.accept herr v
  · exact h.setAddr v
  · exact h.writeBufLen hb v
  · exact h.setPrm hb p
  · exact h.storeIbuf hn _

theorem BlockInv.hostAccess (h : BlockInv s) (a : Access) : BlockInv (hostAccess a s) := by
  cases a with
  | read size off => exact h.setResp _
  | write size off v => exact (h.writeBus size off.toNat v).setResp _

/-! The step of each listed event (R299); `step_engine` is the step when none is left. -/

theorem step_engine_move {rest : List Move} (h : s.moves = .engine :: rest) :
    step s = engineStep { s with moves := rest } := by
  unfold step; rw [h]

theorem step_host_move {a : Access} {rest : List Move} (h : s.moves = .host a :: rest) :
    step s = .next (hostAccess a { s with moves := rest }) := by
  unfold step; rw [h]

theorem step_reset_move {rest : List Move} (h : s.moves = .reset :: rest) :
    step s = .next (hardReset { s with moves := rest }) := by
  unfold step; rw [h]

/-- Settles O24: by the kind of event, from the lemmas for an engine step, a host access and RESET. -/
theorem invKept : Obligations.InvKept := by
  intro s t h hs
  cases hm : s.moves with
  | nil =>
    rw [step_engine hm] at hs
    exact h.of_engineForm (engineForm_of_next hs)
  | cons m rest =>
    have h' := h.setMoves rest
    cases m with
    | engine =>
      rw [step_engine_move hm] at hs
      exact h'.of_engineForm (engineForm_of_next hs)
    | host a =>
      rw [step_host_move hm] at hs
      rw [next_inj hs]
      exact h'.hostAccess a
    | reset =>
      rw [step_reset_move hm] at hs
      rw [next_inj hs]
      exact h'.hardReset

/-- Settles O6: one lemma for each kind of event, and one for each engine state that is not START. -/
theorem stepOtherEvents : Obligations.StepOtherEvents := fun _ =>
  ⟨fun hm he => (step_engine hm).trans (engineStep_idle he),
    fun hm _ _ he => (step_engine hm).trans (engineStep_sect he),
    fun hm _ _ _ he => (step_engine hm).trans (engineStep_unp he),
    fun _ hm => step_engine_move hm, fun _ _ hm => step_host_move hm, fun _ hm => step_reset_move hm⟩

end Machine
end Sys2Proof

/-! PROOFS. The register window: the place of a field in a word, the reads and writes of every register (R22 to R50). -/
namespace Sys2Proof.Machine

variable {s : State}

/-! ### The fields of a word -/

@[simp] theorem getElem_place {n : Nat} (lo : Nat) (v : BitVec n) (i : Nat) (h : i < 32) :
    (place lo v)[i] = (decide (lo ≤ i) && v.getLsbD (i - lo)) := by
  rw [← BitVec.getLsbD_eq_getElem, getLsbD_place, decide_eq_true h, Bool.true_and]

@[simp] theorem getElem_placeBit (k : Nat) (b : Bool) (i : Nat) (h : i < 32) :
    (placeBit k b)[i] = (decide (i = k) && b) := by
  rw [← BitVec.getLsbD_eq_getElem, getLsbD_placeBit, decide_eq_true h, Bool.true_and]

theorem place_zero {n : Nat} (v : BitVec n) : place 0 v = v.setWidth 32 := by
  rw [place, BitVec.shiftLeft_zero]

theorem extractLsb'_place_same {n lo : Nat} (v : BitVec n) (h : lo + n ≤ 32) : (place lo v).extractLsb' lo n = v := by
  apply BitVec.eq_of_getLsbD_eq
  intro i hi
  simp [hi, show lo + i < 32 by omega]

theorem extractLsb'_place_disjoint {n lo a m : Nat} (v : BitVec n) (h : a + m ≤ lo ∨ lo + n ≤ a) :
    (place lo v).extractLsb' a m = 0#m := by
  apply BitVec.eq_of_getLsbD_eq
  intro i hi
  rcases h with h | h
  · simp [show ¬ lo ≤ a + i by omega]
  · simp [BitVec.getLsbD_of_ge v (a + i - lo) (by omega)]

theorem extractLsb'_placeBit_disjoint {k a m : Nat} (b : Bool) (h : a + m ≤ k ∨ k + 1 ≤ a) :
    (placeBit k b).extractLsb' a m = 0#m := extractLsb'_place_disjoint _ h

/-- A mask of the `k` low bits leaves a word its `k` low bits. -/
theorem and_lowMask {k : Nat} (hk : k < 32) {m : Word} (hm : m = BitVec.ofNat 32 (2 ^ k - 1)) (v : Word) :
    v &&& m = (v.setWidth k).setWidth 32 := by
  have hlt : 2 ^ k < 2 ^ 32 := Nat.pow_lt_pow_right (by decide) hk
  have hmod : v.toNat % 2 ^ k < 2 ^ 32 := (Nat.mod_lt _ (Nat.two_pow_pos k)).trans hlt
  apply BitVec.eq_of_toNat_eq
  rw [hm, BitVec.toNat_and, BitVec.toNat_ofNat, Nat.mod_eq_of_lt (a := 2 ^ k - 1) (by omega),
    Nat.and_two_pow_sub_one_eq_mod, BitVec.toNat_setWidth, BitVec.toNat_setWidth, Nat.mod_eq_of_lt hmod]

/-- A field of the `k` low bits takes nothing from the bits above them. -/
theorem setWidth_and_lowMask {k : Nat} (hk : k < 32) {m : Word} (hm : m = BitVec.ofNat 32 (2 ^ k - 1)) (v : Word) :
    (v &&& m).setWidth k = v.setWidth k := by
  rw [and_lowMask hk hm, BitVec.setWidth_setWidth_of_le _ (by omega), BitVec.setWidth_eq]

/-- Settles O9: bit by bit, and ERRCODE and bits 31:21 as fields. -/
theorem statusLayout : Obligations.StatusLayout := by
  intro f
  refine ⟨?_, ?_, ?_, ?_, ?_, ?_, ?_, ?_, ?errcode, ?_, ?_, ?_, ?_, ?_, ?reserved⟩
  case errcode =>
    simp (disch := omega) [statusWord, BitVec.extractLsb'_or, extractLsb'_place_same, extractLsb'_placeBit_disjoint]
  case reserved =>
    simp (disch := omega) [statusWord, BitVec.extractLsb'_or, extractLsb'_place_disjoint,
      extractLsb'_placeBit_disjoint]
  all_goals simp [statusWord]

/-! ### Host accesses to a word offset of the window -/

/-- A 32-bit host read at a register's offset answers that register's word. -/
theorem hostAccess_read_reg (r : Reg) (s : State) :
    hostAccess (.read .b32 (BitVec.ofNat 32 (regOffset r))) s = { s with resp := some (.data (readReg s r)) } := by
  have ho := regOffset_toNat r
  simp [hostAccess, readBus, ho, windowOf_regs _ (regOffset_lt r), wordLegal, regOffset_aligned, regAt_regOffset]

/-- An offset that is no register's is reserved (R50). -/
theorem regAt_eq_none {off : Nat} (h : ∀ r, regOffset r ≠ off) : regAt off = none :=
  Option.eq_none_iff_forall_ne_some.2 fun r hr => h r (regOffset_of_regAt hr).symm

section Reserved

variable {off : Nat} (hlt : off < 0x1000) (h4 : off % 4 = 0) (h : ∀ r, regOffset r ≠ off)
include hlt h4 h

theorem hostAccess_read_reserved (s : State) :
    hostAccess (.read .b32 (BitVec.ofNat 32 off)) s = { s with resp := some (.data 0#32) } := by
  have ho : (BitVec.ofNat 32 off).toNat = off := Nat.mod_eq_of_lt (by omega)
  simp [hostAccess, readBus, ho, windowOf_regs _ hlt, wordLegal, h4, regAt_eq_none h]

theorem hostAccess_write_reserved (v : Word) (s : State) :
    hostAccess (.write .b32 (BitVec.ofNat 32 off) v) s = { s with resp := some .okay } := by
  have ho : (BitVec.ofNat 32 off).toNat = off := Nat.mod_eq_of_lt (by omega)
  simp [hostAccess, writeBus, ho, windowOf_regs _ hlt, wordLegal, h4, regAt_eq_none h]

end Reserved

theorem writeReg_of_not_busy (hb : s.status.busy = false) (r : Reg) (v : Word) : writeReg r v s = storeReg r v s := by
  simp [writeReg, hb]

/-! ### STATUS -/

theorem hostAccess_write_status (v : Word) (s : State) :
    hostAccess (.write .b32 0x004#32 v) s = { writeStatus v s with resp := some .okay } :=
  hostAccess_write_reg .status v s

/-- A W1C bit is cleared where the value written has a 1, and every other bit of STATUS is kept (R25). -/
theorem getLsbD_statusWord_writeStatus (v : Word) (s : State) (k : Nat) :
    (statusWord (writeStatus v s).status).getLsbD k =
      if k ∈ [1, 16, 17, 18, 19, 20] then (statusWord s.status).getLsbD k && !v.getLsbD k
      else (statusWord s.status).getLsbD k := by
  split
  · rename_i hw
    fin_cases hw <;> simp [statusWord, writeStatus]
  · rename_i hw
    simp only [List.mem_cons, List.not_mem_nil, or_false, not_or] at hw
    simp [statusWord, writeStatus, hw]

/-- Settles O8: the write is `writeStatus`, whose bits are known. -/
theorem statusWriteOneToClear : Obligations.StatusWriteOneToClear := by
  intro s v
  rw [hostAccess_write_status]
  exact ⟨fun k _ => getLsbD_statusWord_writeStatus v s k, rfl, hostAccess_read_reg .status s⟩

/-! ### Reads -/

/-- Bit `n` of SECT_PRESENT is the presence of slot `n` (R37). -/
theorem getLsbD_presentWord (s : State) (n : Fin 9) : (presentWord s).getLsbD n.val = s.table.slots[n].present := by
  rw [← slotPresent_eq]
  fin_cases n <;> simp [presentWord]

/-- The fields of CAPS hold the parameters, which R6 keeps below 32 (R33). -/
theorem capsWord_fields {p : Params} (hp : p.wf) :
    ((capsWord p).extractLsb' 0 5).toNat = p.ibufLog ∧ ((capsWord p).extractLsb' 8 5).toNat = p.outLog ∧
      (capsWord p).extractLsb' 16 8 = 32#8 ∧ (capsWord p).extractLsb' 24 4 = 8#4 := by
  obtain ⟨⟨-, hi⟩, ho, -⟩ := hp
  simp (disch := omega) [capsWord, BitVec.extractLsb'_or, extractLsb'_place_same, extractLsb'_place_disjoint, wMax,
    spanMax, Nat.mod_eq_of_lt]

/-- The fields of S0_INFO (R38). -/
theorem s0Info_fields (s : State) :
    (readReg s .s0Info).extractLsb' 0 8 = s.table.disc ∧ (readReg s .s0Info).extractLsb' 8 8 = s.table.edition := by
  simp (disch := omega) [readReg, BitVec.extractLsb'_or, extractLsb'_place_same, extractLsb'_place_disjoint]

/-- The low bits of a register that holds a field alone are that field. -/
theorem extractLsb'_setWidth_field {n : Nat} (hn : n ≤ 32) (v : BitVec n) : (v.setWidth 32).extractLsb' 0 n = v := by
  rw [← place_zero, extractLsb'_place_same _ (by omega)]

/-- Settles O12: the map both ways, and the registers whose word is put together from fields one by one. -/
theorem registerReads : Obligations.RegisterReads := by
  refine ⟨fun s r => hostAccess_read_reg r s,
    fun off r => ⟨regOffset_of_regAt, fun h => h ▸ regAt_regOffset r⟩, fun s => ⟨?control, ?results, ?caps, ?message,
      ?sections, ?params, ?progress⟩⟩
  case control => refine ⟨rfl, rfl, rfl, ?_, ?_, ?_, rfl, rfl⟩ <;> simp [readReg, irqEnWord]
  case results => exact ⟨rfl, rfl, extractLsb'_setWidth_field (by decide) _, rfl, rfl⟩
  case caps => exact capsWord_fields
  case message => exact ⟨rfl, rfl, rfl, rfl, rfl⟩
  case sections =>
    obtain ⟨hdisc, hedition⟩ := s0Info_fields s
    exact ⟨hdisc, hedition, rfl, fun n => ⟨getLsbD_presentWord s n, rfl, rfl⟩⟩
  case params =>
    exact ⟨rfl, extractLsb'_setWidth_field (by decide) _, rfl, rfl, rfl, extractLsb'_setWidth_field (by decide) _, rfl,
      rfl, by simp [readReg], rfl, rfl⟩
  case progress => exact ⟨rfl, rfl, rfl, rfl⟩

/-- Settles O13: a reserved offset is in no register's place, a reserved bit in no field's, and a write takes its bits
from the fields' places only. -/
theorem reservedReadsZero : Obligations.ReservedReadsZero := by
  refine ⟨fun s off v hlt h4 h => ⟨hostAccess_read_reserved hlt h4 h s, hostAccess_write_reserved hlt h4 h v s⟩,
    fun s v => ⟨?_, ?_, ?_, ?_, ?_, ?_, ?_, ?_, ?_, ?_, ?_, ?_, ?irqEn, ?status, ?ctrl, ?width, ?drt, ?bmpCtrl⟩⟩
  case irqEn => simp [writeIrqEn]
  case status => simp [writeStatus]
  case ctrl => simp [writeCtrl]
  case width => simp only [storeReg, setWidth_and_lowMask (k := 8) (m := 0xFF#32) (by decide) rfl]
  case drt => simp only [storeReg, setWidth_and_lowMask (k := 16) (m := 0xFFFF#32) (by decide) rfl]
  case bmpCtrl => simp [storeReg]
  all_goals
    simp (disch := omega) [readReg, statusWord, irqEnWord, ← place_zero, capsWord, presentWord, BitVec.extractLsb'_or,
      extractLsb'_place_disjoint, extractLsb'_placeBit_disjoint]

/-! ### Writes -/

/-- The read-write registers that hold what is written, each with the mask of the bits it holds (R27, R29, R40 to R47). -/
def rwMasks : List (Reg × Word) :=
  [(.irqEn, 0x7#32), (.addr, 0xFFFFFFFF#32), (.npts, 0xFFFFFFFF#32), (.width, 0xFF#32), (.ref, 0xFFFFFFFF#32),
    (.bsf, 0xFFFFFFFF#32), (.dsf, 0xFFFFFFFF#32), (.drt, 0xFFFF#32), (.dataAddr, 0xFFFFFFFF#32),
    (.dataLen, 0xFFFFFFFF#32), (.bmpCtrl, 0x1#32), (.bmpAddr, 0xFFFFFFFF#32), (.bmpLen, 0xFFFFFFFF#32)]

theorem irqEnWord_writeIrqEn (v : Word) (s : State) : irqEnWord (writeIrqEn v s).irqEn = v &&& 0x7#32 := by
  rw [and_lowMask (k := 3) (m := 0x7#32) (by decide) rfl]
  apply BitVec.eq_of_getLsbD_eq
  intro i hi
  obtain rfl | rfl | rfl | h : i = 0 ∨ i = 1 ∨ i = 2 ∨ 3 ≤ i := by omega
  · simp [irqEnWord]
  · simp [irqEnWord]
  · simp [irqEnWord]
  · simp [irqEnWord, show i ≠ 0 by omega, show i ≠ 1 by omega, show i ≠ 2 by omega, show ¬ i < 3 by omega]

theorem placeBit_zero_eq_and (v : Word) : placeBit 0 (v.getLsbD 0) = v &&& 0x1#32 := by
  rw [and_lowMask (k := 1) (m := 0x1#32) (by decide) rfl, placeBit, place_zero, BitVec.setWidth_one]

/-- The register written reads as the bits it holds of the value. -/
theorem readReg_storeReg_same (v : Word) (s : State) : ∀ p ∈ rwMasks, readReg (storeReg p.1 v s) p.1 = v &&& p.2 := by
  have whole : v = v &&& 0xFFFFFFFF#32 := BitVec.and_allOnes.symm
  have irqEn := irqEnWord_writeIrqEn v s
  have width : (v.setWidth 8).setWidth 32 = v &&& 0xFF#32 := (and_lowMask (by decide) rfl v).symm
  have drt : (v.setWidth 16).setWidth 32 = v &&& 0xFFFF#32 := (and_lowMask (by decide) rfl v).symm
  have bmpCtrl := placeBit_zero_eq_and v
  simp only [rwMasks, List.forall_mem_cons]
  exact ⟨irqEn, whole, whole, width, whole, whole, whole, drt, whole, whole, bmpCtrl, whole, whole, nofun⟩

/-- Every register but the one written reads as before. -/
theorem readReg_storeReg_of_ne {p : Reg × Word} (hp : p ∈ rwMasks) {r : Reg} (hr : r ≠ p.1) (v : Word) (s : State) :
    readReg (storeReg p.1 v s) r = readReg s r := by
  have hcases : readReg (storeReg p.1 v s) r = if r = p.1 then readReg (storeReg p.1 v s) p.1 else readReg s r := by
    fin_cases hp <;> cases r <;> rfl
  rw [hcases, if_neg hr]

/-- Settles O14: a write to a read-only register is no write, and one to a read-write register is `storeReg`. -/
theorem registerWrites : Obligations.RegisterWrites := by
  constructor
  · intro s v r hr
    have hkeep : writeReg r v s = s := by
      rcases hr with hr | ⟨n, rfl | rfl⟩
      · fin_cases hr <;> rfl
      · rfl
      · rfl
    rw [hostAccess_write_reg, hkeep]
  · intro s v hb p (hp : p ∈ rwMasks)
    rw [hostAccess_write_reg, writeReg_of_not_busy hb]
    refine ⟨readReg_storeReg_same v s p hp, fun r hr => readReg_storeReg_of_ne hp hr v s, ?_⟩
    fin_cases hp <;> exact ⟨rfl, rfl, rfl, rfl⟩

/-- Settles O15: the minimum is at most IBUF_SIZE, which fits 32 bits. -/
theorem bufLenStoresMin : Obligations.BufLenStoresMin := by
  refine ⟨rfl, fun s v hp hb => ?_⟩
  have hw : hostAccess (.write .b32 0x028#32 v) s = { writeBufLen v s with resp := some .okay } := by
    rw [show 0x028#32 = BitVec.ofNat 32 (regOffset .bufLen) from rfl, hostAccess_write_reg, writeReg_of_not_busy hb]
    rfl
  obtain ⟨-, hsize⟩ := ibufSize_bounds hp
  rw [hw]
  exact ⟨Nat.mod_eq_of_lt (by omega), rfl⟩

end Sys2Proof.Machine

/-! PROOFS. Host accesses by window (R70 to R85): which accesses are legal, the lanes of IBUF, the words of OBUF, and the
writes dropped while BUSY. -/
namespace Sys2Proof.Machine

variable {s : State} {size : Size}

/-! ### Illegal accesses -/

/-- The block takes an access of this width at this block offset (R73, R78, R79, R85). -/
def accessLegal (p : Params) (size : Size) (off : Nat) : Bool :=
  match windowOf p off with
  | .regs o => wordLegal size o
  | .obuf _ w => wordLegal size w
  | .ibuf a => ibufLegal p a (sizeBytes size)
  | .reserved => false

/-- A read gets a bus error exactly where the access is not legal. -/
theorem readBus_eq_busError_iff (s : State) (size : Size) (off : Nat) :
    readBus s size off = .busError ↔ accessLegal s.par size off = false := by
  unfold readBus accessLegal
  cases windowOf s.par off with
  | regs o =>
    dsimp only
    cases wordLegal size o <;> cases regAt o <;> simp
  | obuf i w => cases wordLegal size w <;> simp
  | ibuf a => cases ibufLegal s.par a (sizeBytes size) <;> simp
  | reserved => simp

theorem writeBus_of_illegal {off : Nat} (h : accessLegal s.par size off = false) (v : Word) :
    writeBus s size off v = (s, .busError) := by
  unfold accessLegal at h
  unfold writeBus
  cases hw : windowOf s.par off <;> simp_all

/-- An access that is not legal changes nothing but the answer, a bus error. -/
theorem hostAccess_of_illegal {off : Word} (h : accessLegal s.par size off.toNat = false) (v : Word) :
    hostAccess (.write size off v) s = { s with resp := some .busError } ∧
      hostAccess (.read size off) s = { s with resp := some .busError } := by
  constructor
  · rw [hostAccess, writeBus_of_illegal h]
  · rw [hostAccess, (readBus_eq_busError_iff s size off.toNat).2 h]

theorem windowOf_reserved {p : Params} (hp : p.wf) {off : Nat}
    (h : (0x1000 ≤ off ∧ off < 0x00100000) ∨ (0x00100000 + 16 * p.outMax ≤ off ∧ off < 0x80000000) ∨
      0x80000000 + p.ibufSize ≤ off) : windowOf p off = .reserved := by
  have := outMax_bounds hp
  unfold windowOf
  rw [if_neg (by omega), if_neg (by omega), if_neg (by omega)]

theorem wordLegal_eq_false_iff {off : Nat} : wordLegal size off = false ↔ ¬ (size = .b32 ∧ off % 4 = 0) := by
  simp [wordLegal]

/-- An OBUF place keeps its alignment in the window: the window and its entries begin at multiples of 16. -/
theorem accessLegal_obuf {p : Params} {off : Nat} (hlo : 0x00100000 ≤ off) (hhi : off < 0x00100000 + 16 * p.outMax) :
    accessLegal p size off = wordLegal size off := by
  have hw : windowOf p off = .obuf ((off - 0x00100000) / 16) ((off - 0x00100000) % 16) := by
    unfold windowOf
    rw [if_neg (by omega), if_pos ⟨hlo, hhi⟩]
  have halign : (off - 0x00100000) % 16 % 4 = off % 4 := by omega
  simp only [accessLegal, hw, wordLegal, halign]

/-- Settles O18: the window of each range, in which the access is not legal. -/
theorem busErrors : Obligations.BusErrors := by
  intro s size off v hp
  constructor
  · intro h
    refine hostAccess_of_illegal ?_ v
    rcases h with h | h | h | ⟨hlt, hbad⟩
    · rw [accessLegal, windowOf_reserved hp (.inl h)]
    · rw [accessLegal, windowOf_reserved hp (.inr (.inl h))]
    · rw [accessLegal, windowOf_reserved hp (.inr (.inr h))]
    · rw [accessLegal, windowOf_regs _ hlt]
      exact wordLegal_eq_false_iff.2 hbad
  · rintro ⟨hlo, hhi, hbad⟩
    exact (hostAccess_of_illegal ((accessLegal_obuf hlo hhi).trans (wordLegal_eq_false_iff.2 hbad)) v).2

/-! ### IBUF (R72, R73) -/

theorem ibufLegal_iff {p : Params} {a n : Nat} : ibufLegal p a n = true ↔ a % n = 0 ∧ a + n ≤ p.ibufSize := by
  simp [ibufLegal]

theorem ibufOffset_toNat {p : Params} (hp : p.wf) {a : Nat} (h : a < p.ibufSize) :
    (BitVec.ofNat 32 (0x80000000 + a)).toNat = 0x80000000 + a := by
  have := ibufSize_bounds hp
  exact Nat.mod_eq_of_lt (by omega)

theorem sizeBytes_pos (size : Size) : 0 < sizeBytes size := by cases size <;> decide

/-- Byte `k` of a word is lane `k` of a write. -/
theorem ofNat_div_eq_extractLsb' (v : Word) (k : Nat) :
    BitVec.ofNat 8 (v.toNat / 256 ^ k) = v.extractLsb' (8 * k) 8 := by
  rw [BitVec.extractLsb', Nat.shiftRight_eq_div_pow, Nat.pow_mul]

/-- The value of the lanes as the sum of the bytes with their weights. -/
theorem lanesValue_eq_sum (s : State) (a n : Nat) :
    lanesValue s a n = ∑ k ∈ Finset.range n, (hostByte s (a + k)).toNat * 256 ^ k := by
  induction n generalizing a with
  | zero => rfl
  | succ n ih =>
    rw [lanesValue, ih, Finset.sum_range_succ', Finset.mul_sum, Nat.add_comm]
    congr 1
    · refine Finset.sum_congr rfl fun k _ => ?_
      rw [show a + 1 + k = a + (k + 1) by omega]
      ring
    · simp

theorem hostByte_written {a : Nat} {b : Byte} (h : Cells.read s.ibuf a = some b) : hostByte s a = b := by
  rw [hostByte, h]

section Legal

variable {a : Nat} (hp : s.par.wf) (halign : a % sizeBytes size = 0) (hfit : a + sizeBytes size ≤ s.par.ibufSize)
include hp halign hfit

theorem hostAccess_write_ibuf (v : Word) :
    hostAccess (.write size (BitVec.ofNat 32 (0x80000000 + a)) v) s =
      { writeIbuf a (sizeBytes size) v s with resp := some .okay } := by
  have ha : a < s.par.ibufSize := by have := sizeBytes_pos size; omega
  simp [hostAccess, writeBus, -BitVec.toNat_ofNat, ibufOffset_toNat hp ha, windowOf_ibuf hp ha,
    ibufLegal_iff.2 ⟨halign, hfit⟩]

theorem hostAccess_read_ibuf :
    hostAccess (.read size (BitVec.ofNat 32 (0x80000000 + a))) s =
      { s with resp := some (.data (BitVec.ofNat 32 (lanesValue s a (sizeBytes size)))) } := by
  have ha : a < s.par.ibufSize := by have := sizeBytes_pos size; omega
  simp [hostAccess, readBus, -BitVec.toNat_ofNat, ibufOffset_toNat hp ha, windowOf_ibuf hp ha,
    ibufLegal_iff.2 ⟨halign, hfit⟩]

/-- A legal write while BUSY is dropped (R80). -/
theorem hostAccess_write_ibuf_busy (hb : s.status.busy = true) (v : Word) :
    hostAccess (.write size (BitVec.ofNat 32 (0x80000000 + a)) v) s =
      { dropWrite s with resp := some .okay } := by
  rw [hostAccess_write_ibuf hp halign hfit, writeIbuf, if_pos hb]

/-- A legal write to a free block stores its lanes. -/
theorem hostAccess_write_ibuf_free (hb : s.status.busy = false) (v : Word) :
    hostAccess (.write size (BitVec.ofNat 32 (0x80000000 + a)) v) s =
      { s with ibuf := storeLanes s.ibuf a v.toNat (sizeBytes size), resp := some .okay } := by
  rw [hostAccess_write_ibuf hp halign hfit, writeIbuf, if_neg (by simp [hb])]

end Legal

/-- Settles O16: the lanes of a legal write, the sum of a legal read, and the bus error of every other access. -/
theorem ibufAccess : Obligations.IbufAccess := by
  intro s size a v hp ha n off
  constructor
  · intro halign hfit
    refine ⟨fun hb => ?free, fun hb => hostAccess_write_ibuf_busy hp halign hfit hb v, fun f hf => ?read⟩
    case free =>
      rw [hostAccess_write_ibuf_free hp halign hfit hb]
      refine ⟨fun k hk => ?_, fun c hc => ?_, rfl⟩
      · rw [read_storeLanes, if_pos (by omega), Nat.add_sub_cancel_left, ofNat_div_eq_extractLsb']
      · rw [read_storeLanes, if_neg hc]
    case read =>
      have hsum : lanesValue s a n = ∑ k ∈ Finset.range n, (f k).toNat * 256 ^ k := by
        rw [lanesValue_eq_sum]
        exact Finset.sum_congr rfl fun k hk => by rw [hostByte_written (hf k (Finset.mem_range.1 hk))]
      rw [hostAccess_read_ibuf hp halign hfit, hsum]
  · intro hbad
    refine hostAccess_of_illegal ?_ v
    rw [ibufOffset_toNat hp ha, accessLegal, windowOf_ibuf hp ha]
    exact Bool.eq_false_iff.2 fun hlegal => hbad (ibufLegal_iff.1 hlegal)

/-! ### OBUF (R76 to R78) -/

section Obuf

variable {i w : Nat} (hp : s.par.wf) (hi : i < s.par.outMax) (hw : w < 16) (hw4 : w % 4 = 0)
include hp hi hw

theorem obufOffset_toNat : (BitVec.ofNat 32 (0x00100000 + 16 * i + w)).toNat = 0x00100000 + 16 * i + w := by
  have := outMax_bounds hp
  exact Nat.mod_eq_of_lt (by omega)

include hw4

theorem hostAccess_write_obuf (v : Word) :
    hostAccess (.write .b32 (BitVec.ofNat 32 (0x00100000 + 16 * i + w)) v) s = { s with resp := some .okay } := by
  simp [hostAccess, writeBus, -BitVec.toNat_ofNat, obufOffset_toNat hp hi hw, windowOf_obuf hi hw, wordLegal, hw4]

theorem hostAccess_read_obuf :
    hostAccess (.read .b32 (BitVec.ofNat 32 (0x00100000 + 16 * i + w))) s =
      { s with resp := some (.data (hostEntryWord s i w)) } := by
  simp [hostAccess, readBus, -BitVec.toNat_ofNat, obufOffset_toNat hp hi hw, windowOf_obuf hi hw, wordLegal, hw4]

end Obuf

/-- The word offsets of an entry are the multiples of 4 below 16. -/
theorem entryOffset_bounds : ∀ w ∈ [0, 4, 8, 12], w < 16 ∧ w % 4 = 0 := by decide

/-- The four words of an entry, VAL_LO, VAL_HI, FLAGS and RAW (R76). -/
theorem entryWord_eq (o : OutEntry) :
    ∀ p ∈ [(0, o.value.extractLsb' 0 32), (4, o.value.extractLsb' 32 32), (8, BitVec.ofNat 32 o.present.toNat),
      (12, o.raw)], p.1 ∈ [0, 4, 8, 12] ∧ entryWord o p.1 = p.2 := by
  have hflags : placeBit 0 o.present = BitVec.ofNat 32 o.present.toNat := by cases o.present <;> rfl
  simp [entryWord, hflags]

/-- Settles O17: the access is legal, a write keeps the state, and a read finds the entry's word. -/
theorem obufAccess : Obligations.ObufAccess := by
  intro s i v hp hi
  refine ⟨fun w hw => ?_, fun o ho p hmem => ?_⟩
  · obtain ⟨hlt, h4⟩ := entryOffset_bounds w hw
    exact ⟨hostAccess_write_obuf hp hi hlt h4 v, _, hostAccess_read_obuf hp hi hlt h4⟩
  · obtain ⟨hoff, hword⟩ := entryWord_eq o p hmem
    obtain ⟨hlt, h4⟩ := entryOffset_bounds p.1 hoff
    rw [hostAccess_read_obuf hp hi hlt h4, hostEntryWord_written ho, hword]

/-! ### Writes dropped while BUSY (R80) -/

/-- A write to a register that R80 protects changes nothing but W_DROP while BUSY. -/
theorem hostAccess_write_reg_busy (hb : s.status.busy = true) {r : Reg} (hr : droppedWhileBusy r = true) (v : Word) :
    hostAccess (.write .b32 (BitVec.ofNat 32 (regOffset r)) v) s = { dropWrite s with resp := some .okay } := by
  rw [hostAccess_write_reg, writeReg, hr, hb, Bool.and_self, if_pos rfl]

/-- The registers whose writes R80 drops, in the order of the map of R22. -/
def droppedRegs : List Reg :=
  [.cmd, .addr, .bufLen, .npts, .width, .ref, .bsf, .dsf, .drt, .dataAddr, .dataLen, .bmpCtrl, .bmpAddr, .bmpLen]

theorem droppedWhileBusy_of_mem : ∀ r ∈ droppedRegs, droppedWhileBusy r = true := by decide

end Sys2Proof.Machine

namespace Sys2Proof

open Machine

/-- Settles O11: the listed offsets are those of `droppedRegs`, and a legal IBUF write is dropped too. -/
theorem droppedWhileBusy : Obligations.DroppedWhileBusy := by
  intro s v hp
  refine ⟨fun hb => ⟨?regs, fun size a halign hfit => hostAccess_write_ibuf_busy hp halign hfit hb v⟩,
    hostAccess_write_reg .status v s, hostAccess_write_reg .ctrl v s, hostAccess_write_reg .irqEn v s⟩
  case regs =>
    change ∀ off ∈ droppedRegs.map fun r => BitVec.ofNat 32 (regOffset r), _
    exact List.forall_mem_map.2 fun r hr => hostAccess_write_reg_busy hb (droppedWhileBusy_of_mem r hr) v

end Sys2Proof

/-! PROOFS. The engine's reads stay below BUF_LEN (R74), and a codec command stops on the lowest unwritten byte of its
span (R72, R295). -/
namespace Sys2Proof.Machine

variable {s : State}

/-! ### Reads below BUF_LEN -/

/-- A result that goes on, or has stopped on an unwritten byte of `s` below BUF_LEN (R74). -/
def ReadsBelowBufLen (s : State) (r : Result) : Prop :=
  (∃ t, r = .next t) ∨ ∃ a, a < s.bufLen.toNat ∧ Cells.read s.ibuf a = none ∧ r = .fault (.ibufUnwritten a)

theorem readsBelowBufLen_of_next {r : Result} {t : State} (h : r = .next t) : ReadsBelowBufLen s r := .inl ⟨t, h⟩

/-- A stop on a byte below BUF_LEN is a stop on an unwritten one. -/
theorem readsBelowBufLen_of_fault {r : Result} {f : Fault} {a : Nat} (h : r = .fault f)
    (he : readByte s a = .error f) (ha : a < s.bufLen.toNat) : ReadsBelowBufLen s r := by
  rcases readByte_error he with ⟨-, hge⟩ | ⟨rfl, -, hnone⟩
  · omega
  · exact .inr ⟨a, ha, hnone, h⟩

/-- The codec's span check keeps its reads below BUF_LEN (R120). -/
theorem codecStep_readsBelow (opc : Byte) (span : Nat) (value : List Byte → DWord) (s : State) :
    ReadsBelowBufLen s (codecStep opc span value s) := by
  rcases codecStep_cases opc span value s with ⟨-, e⟩ | ⟨hle, f, hf, e⟩ | ⟨-, bs, -, e⟩
  · exact readsBelowBufLen_of_next e
  · obtain ⟨k, hk, hr⟩ := memRead_error hf
    exact readsBelowBufLen_of_fault e hr (by omega)
  · exact readsBelowBufLen_of_next e

/-- MSGNEXT reads the length field inside the 16 bytes it has checked (R6, R143). -/
theorem execMsgnext_readsBelow (hp : s.par.wf) : ReadsBelowBufLen s (execMsgnext s) := by
  obtain ⟨-, -, -, -, -, htlen⟩ := hp
  rcases execMsgnext_cases s with ⟨-, e⟩ | ⟨-, -, ⟨-, e⟩ | ⟨hle, ⟨f, hf, e⟩ | ⟨decl, -, ⟨-, e⟩ | ⟨-, e⟩⟩⟩⟩
  case inr.inr.inl =>
    obtain ⟨k, hk, hr⟩ := readBE_error hf
    exact readsBelowBufLen_of_fault e hr (by omega)
  all_goals exact readsBelowBufLen_of_next e

/-- SECTSPLIT's start step reads inside section 0 of a message that lies below BUF_LEN (R144, R149). -/
theorem execSectsplit_readsBelow (hp : s.par.wf) (hlen : s.status.msgValid = true → 16 ≤ s.msg.len.toNat) :
    ReadsBelowBufLen s (execSectsplit s) := by
  obtain ⟨-, -, hdisc, hed, -⟩ := hp
  rcases execSectsplit_cases s with ⟨-, e⟩ | ⟨hv, ⟨-, e⟩ | ⟨hle, ⟨f, hf, e⟩ | ⟨m, -, -, e⟩ |
    ⟨-, ⟨f, k, hk, hr, e⟩ | ⟨disc, edition, -, -, e⟩⟩⟩⟩
  case inr.inr.inl =>
    obtain ⟨k, hk, hr⟩ := memRead_error hf
    have := hlen hv
    exact readsBelowBufLen_of_fault e hr (by omega)
  case inr.inr.inr.inr.inl =>
    have := hlen hv
    exact readsBelowBufLen_of_fault e hr (by omega)
  all_goals exact readsBelowBufLen_of_next e

/-- A header step reads before the end of the message (R151, R152). -/
theorem sectHeader_readsBelow {ptr stop : Nat} (hstop : stop ≤ s.bufLen.toNat) :
    ReadsBelowBufLen s (sectHeader ptr stop s) := by
  rcases sectHeader_cases ptr stop s with ⟨f, k, -, -, hk, hr, e⟩ | ⟨-, -, e⟩ | ⟨-, ⟨-, e⟩ |
    ⟨-, len, num, -, -, ⟨-, e⟩ | ⟨-, -, e⟩ | ⟨-, -, e⟩⟩⟩
  case inl => exact readsBelowBufLen_of_fault e hr (by omega)
  all_goals exact readsBelowBufLen_of_next e

theorem execUnpack_readsBelow (s : State) : ReadsBelowBufLen s (execUnpack s) := by
  rcases execUnpack_cases s with ⟨-, e⟩ | ⟨-, -, e⟩ | ⟨-, -, -, e⟩ | ⟨-, -, -, -, e⟩ | ⟨-, -, -, -, -, -, e⟩ |
    ⟨-, -, -, -, -, e⟩ <;> exact readsBelowBufLen_of_next e

/-- A point step reads inside the bitmap and the data span, which the start step has checked (R183, R186). -/
theorem unpPoint_readsBelow {i c k : Nat} (hdata : s.prm.dataAddr.toNat + s.prm.dataLen.toNat ≤ s.bufLen.toNat)
    (hbmp : s.prm.bmpEn = true → s.prm.bmpAddr.toNat + s.prm.bmpLen.toNat ≤ s.bufLen.toNat) :
    ReadsBelowBufLen s (unpPoint i c k s) := by
  rcases unpPoint_cases i c k s with ⟨-, -, e⟩ | ⟨hi, ⟨f, hen, hr, e⟩ | ⟨-, e⟩ | ⟨-, ⟨-, e⟩ |
    ⟨hc, ⟨f, j, hj, hr, e⟩ | ⟨raw, -, e⟩⟩⟩⟩
  case inr.inl =>
    have := hi hen
    have := hbmp hen
    exact readsBelowBufLen_of_fault e hr (by omega)
  case inr.inr.inr.inr.inl => exact readsBelowBufLen_of_fault e hr (by omega)
  all_goals exact readsBelowBufLen_of_next e

theorem BlockInv.exec_readsBelow (h : BlockInv s) (i : Instr) : ReadsBelowBufLen s (exec i s) := by
  cases i with
  | nop => exact readsBelowBufLen_of_next rfl
  | uint n => exact codecStep_readsBelow _ _ _ s
  | smint n => exact codecStep_readsBelow _ _ _ s
  | f32 => exact codecStep_readsBelow _ _ _ s
  | msginit => rcases execMsginit_cases s with ⟨-, e⟩ | ⟨-, e⟩ <;> exact readsBelowBufLen_of_next e
  | msgnext => exact execMsgnext_readsBelow h.buffers.params
  | sectsplit => exact execSectsplit_readsBelow h.buffers.params fun hv => (h.framer.span hv).1
  | unpack => exact execUnpack_readsBelow s

theorem BlockInv.engineStep_readsBelow (h : BlockInv s) : ReadsBelowBufLen s (engineStep s) := by
  cases he : s.estate with
  | idle => exact readsBelowBufLen_of_next (engineStep_idle he)
  | start w =>
    cases hd : decode w with
    | error e => exact readsBelowBufLen_of_next (engineStep_illegal he hd)
    | ok i => rw [engineStep_start he hd]; exact h.exec_readsBelow i
  | sect ptr stop =>
    obtain ⟨-, -, -, hstop, -⟩ := h.framer.running ptr stop he
    rw [engineStep_sect he]
    exact sectHeader_readsBelow hstop
  | unp i c k =>
    obtain ⟨-, -, -, -, -, hdata, hbmp, -⟩ := h.unpack.running i c k he
    rw [engineStep_unp he]
    exact unpPoint_readsBelow hdata hbmp

/-- Settles O25: only an engine step reads, and the invariant keeps each of its reads below BUF_LEN. -/
theorem engineReadsBelowBufLen : Obligations.EngineReadsBelowBufLen := by
  intro s h
  cases hm : s.moves with
  | nil => rw [step_engine hm]; exact h.engineStep_readsBelow
  | cons m rest =>
    cases m with
    | engine => rw [step_engine_move hm]; exact (h.setMoves rest).engineStep_readsBelow
    | host a => exact readsBelowBufLen_of_next (step_host_move hm)
    | reset => exact readsBelowBufLen_of_next (step_reset_move hm)

/-! ### The lowest unwritten byte -/

theorem readByte_unwritten {a : Nat} (ha : a < s.bufLen.toNat) (h : Cells.read s.ibuf a = none) :
    readByte s a = .error (.ibufUnwritten a) := by
  simp [readByte, ha, h]

/-- A read of a span below BUF_LEN stops on the lowest unwritten byte. -/
theorem memRead_unwritten {a n c : Nat} (hfit : a + n ≤ s.bufLen.toNat) (hac : a ≤ c) (hcn : c < a + n)
    (hc : Cells.read s.ibuf c = none) (hbelow : ∀ d, a ≤ d → d < c → (Cells.read s.ibuf d).isSome = true) :
    memRead s a n = .error (.ibufUnwritten c) := by
  induction n generalizing a with
  | zero => omega
  | succ n ih =>
    rcases Nat.eq_or_lt_of_le hac with rfl | hlt
    · rw [memRead, readByte_unwritten (by omega) hc]
    · obtain ⟨b, hb⟩ := Option.isSome_iff_exists.1 (hbelow a le_rfl hlt)
      have hrest := ih (a := a + 1) (by omega) hlt (by omega) fun d hd => hbelow d (by omega)
      rw [memRead, readByte_ok.2 ⟨by omega, hb⟩, hrest]

/-- Settles O31: the three codec commands share the read of the span. -/
theorem unwrittenReadStops : Obligations.UnwrittenReadStops := by
  intro s n a p hmem hfit hlo hhi hnone hbelow
  have stops (opc : Byte) (value : List Byte → DWord) : codecStep opc p.2 value s = .fault (.ibufUnwritten a) := by
    rw [codecStep, if_pos (spanFits_iff.2 hfit), memRead_unwritten hfit hlo hhi hnone hbelow]
  fin_cases hmem <;> exact stops _ _

end Sys2Proof.Machine

/-! PROOFS. The decoder of command words (30_encoding.md R100 to R106): it inverts the encoder on the well-formed commands,
and it refuses exactly the illegal words. -/
namespace Sys2Proof

open Machine

/-! ### Decoding the word of a command (R100 to R103, R110) -/

theorem instrOf_opcode_span (i : Instr) : instrOf (instrOpcode i) (instrSpan i) = i := by cases i <;> rfl

/-- The legal spans of the opcode (R102) are the well-formedness of the command. -/
theorem spanLegal_opcode_span (i : Instr) : spanLegal (instrOpcode i) (instrSpan i) = i.wf := by cases i <;> rfl

theorem rsvOf_encode (i : Instr) : rsvOf (encode i) = 0#20 := (fields_of_append _ _).2.2

theorem decode_of_unassigned {w : Word} (h : opcodeOfByte (opcOf w) = none) :
    decode w = .error (.unassignedOpcode (opcOf w)) := by
  rw [decode, h]

/-- The decoder past check 1 of R105. -/
theorem decode_of_assigned {w : Word} {o : Opcode} (h : opcodeOfByte (opcOf w) = some o) :
    decode w = if rsvOf w ≠ 0#20 then .error (.reservedBits (rsvOf w))
      else if spanLegal o (spanOf w) then .ok (instrOf o (spanOf w)) else .error (.illegalSpan (spanOf w)) := by
  rw [decode, h]

/-- The word of any command passes checks 1 and 2 of R105; check 3 tests that the command is well formed. -/
theorem decode_encode (i : Instr) :
    decode (encode i) = if i.wf then .ok i else .error (.illegalSpan (instrSpan i)) := by
  rw [decode_of_assigned ((opcodeOfByte_iff _ _).2 (opcOf_encode i)), rsvOf_encode, spanOf_encode,
    spanLegal_opcode_span, instrOf_opcode_span, if_neg (not_not.2 rfl)]

/-- A word that decodes is the word of a well-formed command (R102). -/
theorem wf_of_decode {w : Word} {i : Instr} (h : decode w = .ok i) : i.wf = true := by
  have hw := h
  rw [← encode_of_decode h, decode_encode] at hw
  by_contra hwf
  rw [if_neg hwf] at hw
  cases hw

/-- Settles O1: `encode_of_decode` and `wf_of_decode` one way, `decode_encode` the other. -/
theorem decodeIffEncode : Obligations.DecodeIffEncode := by
  intro w i
  constructor
  · exact fun h => ⟨wf_of_decode h, encode_of_decode h⟩
  · rintro ⟨hwf, rfl⟩
    rw [decode_encode, if_pos hwf]

/-! ### Illegal words (R105) -/

/-- The unassigned opcodes are the bytes that R101 does not list. -/
theorem opcodeOfByte_eq_none_iff (b : Byte) : opcodeOfByte b = none ↔
    b ∉ [0x00#8, 0x01#8, 0x02#8, 0x03#8, 0x10#8, 0x11#8, 0x12#8, 0x20#8] := by
  simp [opcodeOfByte, ite_eq_iff]

/-- The spans of an assigned opcode that R102 tables are those the decoder accepts. -/
theorem legalSpan_opcodeByte_iff (o : Opcode) (n : BitVec 4) :
    LegalSpan (opcodeByte o) n.toNat ↔ spanLegal o n = true := by
  cases o with
  | uint => simp [LegalSpan, opcodeByte, spanLegal, codecSpanLegal]
  | smint => simp [LegalSpan, opcodeByte, spanLegal, codecSpanLegal]
  | _ => simp [LegalSpan, opcodeByte, spanLegal, ← BitVec.toNat_inj]

theorem illegal_of_unassigned {w : Word} (h : opcodeOfByte (opcOf w) = none) : Illegal w :=
  .inl ((opcodeOfByte_eq_none_iff _).1 h)

/-- With an assigned opcode, the conditions left are checks 2 and 3 of R105. -/
theorem illegal_iff_of_assigned {w : Word} {o : Opcode} (h : opcodeOfByte (opcOf w) = some o) :
    Illegal w ↔ rsvOf w ≠ 0#20 ∨ ¬ spanLegal o (spanOf w) = true := by
  have hlisted := mt (opcodeOfByte_eq_none_iff (opcOf w)).2 (by rw [h]; exact Option.some_ne_none o)
  rw [← legalSpan_opcodeByte_iff, ← (opcodeOfByte_iff _ _).1 h]
  exact or_iff_right hlisted

/-- The decoder refuses exactly the illegal words (R105). -/
theorem illegal_iff_decode_error (w : Word) : Illegal w ↔ ∃ e, decode w = .error e := by
  cases ho : opcodeOfByte (opcOf w) with
  | none => exact iff_of_true (illegal_of_unassigned ho) ⟨_, decode_of_unassigned ho⟩
  | some o =>
    rw [illegal_iff_of_assigned ho, decode_of_assigned ho]
    by_cases hrsv : rsvOf w = 0#20
    · by_cases hspan : spanLegal o (spanOf w) = true
      · simp [hrsv, hspan]
      · simp [hrsv, hspan]
    · simp [hrsv]

theorem not_illegal_of_decode {w : Word} {i : Instr} (h : decode w = .ok i) : ¬ Illegal w := by
  rw [illegal_iff_decode_error, h]
  rintro ⟨e, he⟩
  cases he

/-- Settles O4: the decoder refuses the word, and the engine's answer to a refused word is the fault. -/
theorem illegalWordFaults : Obligations.IllegalWordFaults := by
  intro s w he hill
  obtain ⟨e, hd⟩ := (illegal_iff_decode_error w).1 hill
  exact engineStep_illegal he hd

/-! ### The decoder is total (R106) -/

/-- The lemmas command by command, put together: a well-formed command's word is in its own row of the table only. -/
theorem tableRow_of_wf (i : Instr) : Laws.TableRow.Statement i := by
  cases i with
  | nop => exact Laws.TableRow.nop
  | uint n => exact Laws.TableRow.uint n
  | smint n => exact Laws.TableRow.smint n
  | f32 => exact Laws.TableRow.f32
  | msginit => exact Laws.TableRow.msginit
  | msgnext => exact Laws.TableRow.msgnext
  | sectsplit => exact Laws.TableRow.sectsplit
  | unpack => exact Laws.TableRow.unpack

theorem codecSpanLegal_iff (n : BitVec 4) : codecSpanLegal n = true ↔ 1 ≤ n.toNat ∧ n.toNat ≤ 8 := by
  simp [codecSpanLegal]

/-- The eight commands, with the span of the two that carry one (R101, R102). -/
theorem instr_cases_of_wf {i : Instr} (h : i.wf = true) :
    i = .nop ∨ (∃ n, (i = .uint n ∨ i = .smint n) ∧ n = instrSpan i ∧ 1 ≤ n.toNat ∧ n.toNat ≤ 8) ∨
      i = .f32 ∨ i = .msginit ∨ i = .msgnext ∨ i = .sectsplit ∨ i = .unpack := by
  cases i with
  | uint n => exact .inr (.inl ⟨n, .inl rfl, rfl, (codecSpanLegal_iff n).1 h⟩)
  | smint n => exact .inr (.inl ⟨n, .inr rfl, rfl, (codecSpanLegal_iff n).1 h⟩)
  | _ => simp

/-- Settles O2: a refused word is illegal, and any other is the word of a well-formed command. -/
theorem decoderTotal : Obligations.DecoderTotal := by
  intro w
  cases hd : decode w with
  | error e => exact .inl ⟨(illegal_iff_decode_error w).2 ⟨e, hd⟩, e, rfl⟩
  | ok i =>
    have hwf := wf_of_decode hd
    refine .inr ⟨not_illegal_of_decode hd, i, rfl, ?command, ?row⟩
    case command =>
      change _ ∨ (∃ n, _ ∧ n = spanOf w ∧ _) ∨ _
      rw [← encode_of_decode hd, spanOf_encode]
      exact instr_cases_of_wf hwf
    case row => rw [← encode_of_decode hd]; exact tableRow_of_wf i hwf

/-- Settles O3: each of the eight words is the encoding of its command. -/
theorem specWordsDecode : Obligations.SpecWordsDecode :=
  ⟨decode_encode .nop, decode_encode (.uint 2#4), decode_encode (.smint 2#4), decode_encode .f32,
    decode_encode .msginit, decode_encode .msgnext, decode_encode .sectsplit, decode_encode .unpack⟩

end Sys2Proof

/-! PROOFS. The codec commands (40_codec.md R120 to R125): the span check raises E_RANGE(ADDR), and a span that can be
read completes with its big-endian, sign-magnitude or binary32 value in RES. -/
namespace Sys2Proof.Machine

variable {s : State} {n : Nat} {b : Nat → Byte}

/-! ### The step the codec commands share -/

theorem codecStep_past_bufLen (h : s.bufLen.toNat < s.addr.toNat + n) (opc : Byte) (value : List Byte → DWord) :
    codecStep opc n value s = .next (raise opc .range s.addr s) := by
  simp [codecStep, spanFits_false.2 h]

theorem codecStep_of_holds (h : Holds s s.addr.toNat n b) (opc : Byte) (value : List Byte → DWord) :
    codecStep opc n value s = .next (finish (setRes (value ((List.range n).map b)) s)) := by
  rw [codecStep, if_pos (spanFits_iff.2 h.1), h.memRead]

/-- Settles O30: the three codec commands share the span check, and `raise` is the fault entry of R255. -/
theorem codecSpanFault : Obligations.CodecSpanFault := by
  intro s n p hmem hpast
  fin_cases hmem <;> exact codecStep_past_bufLen hpast _ _

/-! ### UINT -/

theorem beNat_range_lt (b : Nat → Byte) (n : Nat) : beNat ((List.range n).map b) < 2 ^ (8 * n) := by
  simpa [Nat.pow_mul] using beNat_lt ((List.range n).map b)

/-- Settles O32: the integer of a legal span is below `2^64`, so RES holds the whole of it. -/
theorem uintResult : Obligations.UintResult := by
  intro s n b hwf hb
  obtain ⟨-, hn⟩ := (codecSpanLegal_iff n).1 hwf
  have hlt := beNat_range_lt b n.toNat
  have hres : (BitVec.ofNat 64 (beNat ((List.range n.toNat).map b))).toNat = beNat ((List.range n.toNat).map b) :=
    Nat.mod_eq_of_lt (hlt.trans_le (Nat.pow_le_pow_right (by decide) (by omega)))
  refine ⟨_, codecStep_of_holds hb _ _, ?_, ?_, rfl⟩ <;> simp only [finish_resHi, finish_resLo, setRes_res, hres]
  · exact beNat_range b n.toNat
  · exact hlt

/-! ### SMINT -/

/-- The magnitude of the sign-magnitude integer of the `n` bytes `b 0 .. b (n-1)`, as the sum R124 writes. -/
def spanMagnitude (n : Nat) (b : Nat → Byte) : Nat :=
  ((b 0).toNat % 128) * 256 ^ (n - 1) + ∑ k ∈ Finset.Ico 1 n, (b k).toNat * 256 ^ (n - 1 - k)

theorem toNat_and_7F (x : Byte) : (x &&& 0x7F#8).toNat = x.toNat % 128 := by
  rw [BitVec.toNat_and]
  exact Nat.and_two_pow_sub_one_eq_mod x.toNat 7

/-- R123's accumulation from the first byte without its sign bit gives R124's magnitude. -/
theorem beFrom_eq_spanMagnitude (b : Nat → Byte) (n : Nat) :
    beFrom (b 0 &&& 0x7F#8).toNat ((List.range n).map fun k => b (k + 1)) = spanMagnitude (n + 1) b := by
  have hrest := beNat_range (fun k => b (k + 1)) n
  rw [beNat] at hrest
  rw [beFrom_eq, hrest, toNat_and_7F, spanMagnitude, Finset.sum_Ico_eq_sum_range]
  simp [Nat.add_comm 1, Nat.sub_sub]

theorem signMag_range (hn : 0 < n) (b : Nat → Byte) :
    signMag ((List.range n).map b) =
      if (b 0).toNat < 128 then (spanMagnitude n b : Int) else -(spanMagnitude n b : Int) := by
  obtain ⟨m, rfl⟩ := Nat.exists_eq_succ_of_ne_zero hn.ne'
  have hrest := beFrom_eq_spanMagnitude b m
  have hsign : (b 0).msb = true ↔ ¬ (b 0).toNat < 128 := by simp [BitVec.msb_eq_decide]
  simp only [List.range_succ_eq_map, List.map_cons, List.map_map, Function.comp_def, signMag, hrest, hsign, ite_not]

theorem spanMagnitude_lt (hn : 0 < n) (b : Nat → Byte) : spanMagnitude n b < 2 ^ (8 * n - 1) := by
  obtain ⟨m, rfl⟩ := Nat.exists_eq_succ_of_ne_zero hn.ne'
  have hrest := beNat_range_lt (fun k => b (k + 1)) m
  rw [beNat, Nat.pow_mul] at hrest
  calc spanMagnitude (m + 1) b = (b 0).toNat % 128 * 256 ^ m + beNat ((List.range m).map fun k => b (k + 1)) := by
        rw [← beFrom_eq_spanMagnitude, beFrom_eq, toNat_and_7F]; simp [beNat]
    _ < ((b 0).toNat % 128 + 1) * 256 ^ m := by rw [Nat.add_mul, Nat.one_mul]; exact Nat.add_lt_add_left hrest _
    _ ≤ 128 * 256 ^ m := Nat.mul_le_mul_right _ (by omega)
    _ = 2 ^ (8 * (m + 1) - 1) := by rw [show 8 * (m + 1) - 1 = 7 + 8 * m by omega, Nat.pow_add, Nat.pow_mul]

/-- Settles O33: the magnitude of a legal span is below `2^63`, so RES holds the signed integer. -/
theorem smintResult : Obligations.SmintResult := by
  intro s n b hwf hb
  obtain ⟨hpos, hn⟩ := (codecSpanLegal_iff n).1 hwf
  have hlt := spanMagnitude_lt hpos b
  have hbound : spanMagnitude n.toNat b < 2 ^ 63 := hlt.trans_le (Nat.pow_le_pow_right (by decide) (by omega))
  refine ⟨_, codecStep_of_holds hb _ _, ?_, hlt, rfl⟩
  simp only [finish_resHi, finish_resLo, setRes_res]
  rw [signMag_range hpos, BitVec.toInt_ofInt_eq_self (by decide) (by split <;> omega) (by split <;> omega)]
  rfl

/-! ### F32 -/

/-- The big-endian integer of four bytes is their concatenation, the first byte highest. -/
theorem beNat_four (b : Nat → Byte) : beNat ((List.range 4).map b) = (b 0 ++ b 1 ++ b 2 ++ b 3).toNat := by
  simp only [toNat_append]
  simp [List.range_succ, beNat, beFrom]

/-- A 32-bit result leaves RES_HI 0 (R125). -/
theorem setRes_setWidth (w : Word) (s : State) : setRes (w.setWidth 64) s = { s with resHi := 0#32, resLo := w } := by
  have hhi : (w.setWidth 64).extractLsb' 32 32 = 0#32 := by ext i hi; simp
  have hlo : (w.setWidth 64).extractLsb' 0 32 = w := by ext i hi; simp [hi, show i < 64 by omega]
  rw [setRes, hhi, hlo]

/-- Settles O34: RES takes the 32 bits of the span. -/
theorem f32Result : Obligations.F32Result := by
  intro s b hb
  calc exec .f32 s = .next (finish (setRes (BitVec.ofNat 64 (beNat ((List.range 4).map b))) s)) :=
        codecStep_of_holds hb _ _
    _ = .next (finish (setRes ((b 0 ++ b 1 ++ b 2 ++ b 3).setWidth 64) s)) := by rw [beNat_four, BitVec.ofNat_toNat]
    _ = _ := by rw [setRes_setWidth]; rfl

end Sys2Proof.Machine

/-! PROOFS. The message framer (41_framer.md R141 to R146): MSGINIT, MSGNEXT and the sequence of messages they make. -/
namespace Sys2Proof.Machine

variable {s : State}

/-! ### The message-start reset (R146) -/

/-- No slot is present in the cleared table. -/
theorem presentWord_messageStartReset (s : State) : presentWord (messageStartReset s) = 0#32 := by
  simp [presentWord, slotPresent, placeBit, place]

theorem readReg_messageStartReset (s : State) : ∀ r ∈ [Reg.sectPresent, .endAddr, .s0Info, .npts, .width, .ref, .bsf,
    .dsf, .drt, .dataAddr, .dataLen, .bmpCtrl, .bmpAddr, .bmpLen, .outCount, .unpIdx, .unpCursor, .unpCw],
    readReg (messageStartReset s) r = 0#32 := by
  have hinfo : readReg (messageStartReset s) .s0Info = 0#32 := by simp [readReg, SectTable.empty, place]
  refine List.forall_mem_cons.2 ⟨presentWord_messageStartReset s, List.forall_mem_cons.2 ⟨rfl,
    List.forall_mem_cons.2 ⟨hinfo, fun r hr => ?_⟩⟩⟩
  fin_cases hr <;> rfl

/-! ### MSGINIT (R141) -/

/-- Settles O37: the two branches of the size check. -/
theorem msginitRule : Obligations.MsginitRule :=
  fun _ => ⟨fun h => if_pos h, fun h => if_neg (Nat.not_lt.2 h)⟩

/-! ### MSGNEXT (R143) -/

theorem execMsgnext_end (h : s.status.msgEnd = true ∨ s.bufLen.toNat ≤ s.msg.ptr.toNat) :
    execMsgnext s = .next (endOfMessages s) :=
  if_pos (by simpa using h)

section Left

variable (hend : s.status.msgEnd = false) (hptr : s.msg.ptr.toNat < s.bufLen.toNat)
include hend hptr

theorem execMsgnext_short (h : s.bufLen.toNat - s.msg.ptr.toNat < s0Len) :
    execMsgnext s = .next (raise (opcodeByte .msgnext) .msgShort s.msg.ptr s) := by
  simp [execMsgnext, hend, hptr, h]

theorem execMsgnext_of_decl {decl : Nat} (h : s0Len ≤ s.bufLen.toNat - s.msg.ptr.toNat)
    (hdecl : readBE s (s.msg.ptr.toNat + s.par.s0TlenOff) s.par.s0TlenBytes = .ok decl) :
    execMsgnext s = if decl < s0Len then .next (raise (opcodeByte .msgnext) .msgLen s.msg.ptr s)
      else .next (selectMessage decl (s.bufLen.toNat - s.msg.ptr.toNat) s) := by
  simp [execMsgnext, hend, Nat.not_le.2 hptr, Nat.not_lt.2 h, hdecl]

end Left

/-- Settles O38: the message-start reset of the end branch. -/
theorem msgnextEnd : Obligations.MsgnextEnd := fun _ h => execMsgnext_end h

/-- MSGNEXT completes at the end of the buffer or with a message; otherwise it faults. -/
theorem execMsgnext_completes {t : State} (h : execMsgnext s = .next t) (herr : t.status.err = false) :
    t = endOfMessages s ∨ ∃ decl, 16 ≤ decl ∧ s.msg.ptr.toNat + 16 ≤ s.bufLen.toNat ∧
      t = selectMessage decl (s.bufLen.toNat - s.msg.ptr.toNat) s := by
  rcases execMsgnext_cases s with ⟨-, e⟩ | ⟨-, -, ⟨-, e⟩ | ⟨h16, ⟨f, -, e⟩ | ⟨decl, -, ⟨-, e⟩ | ⟨hdecl, e⟩⟩⟩⟩ <;>
    rw [e] at h
  case inl => exact .inl (next_inj h)
  case inr.inr.inl => cases h
  case inr.inr.inr.inr => exact .inr ⟨decl, hdecl, h16, next_inj h⟩
  all_goals rw [next_inj h] at herr; cases herr

/-! ### The message selected (R143, R144) -/

/-- The engine's big-endian read of bytes known to be there. -/
theorem Holds.readBE {a n : Nat} {b : Nat → Byte} (h : Holds s a n b) :
    Machine.readBE s a n = .ok (∑ k ∈ Finset.range n, (b k).toNat * 256 ^ (n - 1 - k)) := by
  rw [Machine.readBE, h.memRead]
  exact congrArg Except.ok (beNat_range b n)

theorem readBE_lt {a n v : Nat} (h : readBE s a n = .ok v) : v < 256 ^ n := by
  obtain ⟨bs, hbs, rfl⟩ := readBE_ok h
  have hlt := beNat_lt bs
  rwa [(memRead_ok.1 hbs).1] at hlt

/-- MSG_DECL holds a declared length of at most 8 bytes (R35). -/
theorem selectMessage_decl {decl : Nat} (h : decl < 2 ^ 64) (avail : Nat) (s : State) :
    ((selectMessage decl avail s).msg.declHi ++ (selectMessage decl avail s).msg.declLo).toNat = decl := by
  rw [toNat_append]
  simp only [selectMessage, finish_msg, messageStartReset_msg, BitVec.toNat_ofNat]
  omega

/-- The message selected begins at MSG_PTR, ends inside the valid buffer, and MSG_PTR moves to its end. -/
theorem selectMessage_span (decl : Nat) (hptr : s.msg.ptr.toNat < s.bufLen.toNat) :
    let t := selectMessage decl (s.bufLen.toNat - s.msg.ptr.toNat) s
    t.msg.base = s.msg.ptr ∧ t.msg.len.toNat = min decl (s.bufLen.toNat - s.msg.ptr.toNat) ∧
      t.msg.ptr.toNat = s.msg.ptr.toNat + min decl (s.bufLen.toNat - s.msg.ptr.toNat) := by
  have hlt := s.bufLen.isLt
  simp only [selectMessage, finish_msg, messageStartReset_msg, BitVec.toNat_ofNat, true_and]
  omega

/-- Settles O39: the declared length is the big-endian integer of at most 8 bytes. -/
theorem msgnextSelects : Obligations.MsgnextSelects := by
  intro s hp _ hend hptr avail
  refine ⟨execMsgnext_short hend hptr, fun havail b hb => ?_⟩
  have hread := hb.readBE
  intro L
  refine ⟨fun hL => ?short, fun hL => ?select⟩
  case short => exact (execMsgnext_of_decl hend hptr havail hread).trans (if_pos hL)
  obtain ⟨-, -, -, -, ⟨-, hbytes⟩, -⟩ := hp
  have hL64 : L < 2 ^ 64 := (readBE_lt hread).trans_le (Nat.pow_le_pow_right (n := 256) (by decide) hbytes)
  obtain ⟨hbase, hlen, hnext⟩ := selectMessage_span L hptr
  exact ⟨_, (execMsgnext_of_decl hend hptr havail hread).trans (if_neg (Nat.not_lt.2 hL)), hbase, hlen,
    selectMessage_decl hL64 _ s, hnext, rfl⟩

/-! ### The sequence of messages (R144) -/

/-- A MSGNEXT that yields a message: it begins at MSG_PTR, holds at least 16 bytes, ends inside the valid buffer, and
MSG_PTR moves to its end. -/
theorem execMsgnext_yields {t : State} (h : execMsgnext s = .next t) (herr : t.status.err = false)
    (hend : t.status.msgEnd = false) :
    t.status.msgValid = true ∧ t.bufLen = s.bufLen ∧ t.msg.base = s.msg.ptr ∧ 16 ≤ t.msg.len.toNat ∧
      t.msg.ptr.toNat = s.msg.ptr.toNat + t.msg.len.toNat ∧ t.msg.ptr.toNat ≤ s.bufLen.toNat := by
  rcases execMsgnext_completes h herr with rfl | ⟨decl, hdecl, h16, rfl⟩
  · cases hend
  · obtain ⟨hbase, hlen, hnext⟩ := selectMessage_span decl (s := s) (by omega)
    exact ⟨rfl, rfl, hbase, by omega, by omega, by omega⟩

/-- Settles O40: MSGNEXT number `j` runs at an offset of at least `16 * j`. -/
theorem messageSequence : Obligations.MessageSequence := by
  intro n x y _ _ hptr0 _ hrun hlink
  have yields (j : Nat) (hj : j < n) :=
    execMsgnext_yields (hrun j hj).1 (hrun j hj).2.1 (hrun j hj).2.2
  have start (j : Nat) (hj : j < n) : (x j).bufLen = (x 0).bufLen ∧ 16 * j ≤ (x j).msg.ptr.toNat := by
    induction j with
    | zero => exact ⟨rfl, Nat.zero_le _⟩
    | succ j ih =>
      obtain ⟨hbuf, hle⟩ := ih (by omega)
      obtain ⟨-, hkept, -, h16, hnext, -⟩ := yields j (by omega)
      obtain ⟨hptr, hbuf', -, -⟩ := hlink j hj
      exact ⟨by rw [hbuf', hkept, hbuf], by rw [hptr]; omega⟩
  refine ⟨?count, fun hn => ?first, fun j hj => ?span⟩
  case count =>
    cases n with
    | zero => exact Nat.zero_le _
    | succ n =>
      obtain ⟨hbuf, hle⟩ := start n (by omega)
      obtain ⟨-, -, -, h16, hnext, hin⟩ := yields n (by omega)
      rw [hbuf] at hin
      omega
  case first =>
    obtain ⟨-, -, hbase, -⟩ := yields 0 hn
    rw [hbase, hptr0]
  case span =>
    obtain ⟨hbuf, -⟩ := start j hj
    obtain ⟨hvalid, -, hbase, h16, hnext, hin⟩ := yields j hj
    rw [← hbase] at hnext
    refine ⟨hvalid, h16, by rw [← hbuf]; omega, fun hj' => ?_⟩
    obtain ⟨-, -, hbase', -⟩ := yields (j + 1) hj'
    rw [hbase', (hlink j hj').1, hnext]

end Sys2Proof.Machine

namespace Sys2Proof

open Machine

/-- Settles O36: every cleared register reads 0, and MSGINIT and MSGNEXT make the reset unless they fault. -/
theorem messageStartReset : Obligations.MessageStartReset := by
  refine ⟨fun s => ⟨fun n => ?slots, readReg_messageStartReset s, rfl, rfl⟩, ?commands⟩
  case slots => simp [readReg, Slot.absent]
  case commands =>
    rintro s t i (rfl | rfl) - h herr
    · rcases execMsginit_cases s with ⟨-, e⟩ | ⟨-, e⟩ <;> obtain rfl := next_inj (e.symm.trans h)
      · cases herr
      · exact ⟨rfl, rfl, rfl, rfl, rfl⟩
    · rcases execMsgnext_completes h herr with rfl | ⟨decl, -, -, rfl⟩ <;> exact ⟨rfl, rfl, rfl, rfl, rfl⟩

end Sys2Proof

/-! PROOFS. The section framer (41_framer.md R148 to R155): SECTSPLIT's start step, its header steps, the bound on their
number, the table they leave, and what they make of a chain of sections. -/
namespace Sys2Proof.Machine

variable {s t : State}

/-! ### The start step (R149) -/

theorem execSectsplit_nomsg (h : s.status.msgValid = false) :
    execSectsplit s = .next (raise (opcodeByte .sectsplit) .nomsg 0#32 s) := if_pos h

theorem execSectsplit_range (hv : s.status.msgValid = true) (h : s.bufLen.toNat < s.msg.base.toNat + s.msg.len.toNat) :
    execSectsplit s = .next (raise (opcodeByte .sectsplit) .sectRange s.msg.base s) := by
  simp [execSectsplit, hv, h]

section InBuffer

variable (hv : s.status.msgValid = true) (hle : s.msg.base.toNat + s.msg.len.toNat ≤ s.bufLen.toNat)
include hv hle

theorem execSectsplit_no_magic {m : List Byte} (hm : memRead s s.msg.base.toNat 4 = .ok m) (hne : m ≠ magic) :
    execSectsplit s = .next (raise (opcodeByte .sectsplit) .magic s.msg.base (clearTable s)) := by
  have hm' : memRead (clearTable s) s.msg.base.toNat 4 = .ok m := (memRead_congr rfl rfl _ _).trans hm
  simp [execSectsplit, hv, Nat.not_lt.2 hle, hm', hne]

theorem execSectsplit_magic {disc edition : Byte} (hm : memRead s s.msg.base.toNat 4 = .ok magic)
    (hd : readByte s (s.msg.base.toNat + s.par.s0DiscOff) = .ok disc)
    (hg : readByte s (s.msg.base.toNat + s.par.s0EdOff) = .ok edition) :
    execSectsplit s = .next (openSections s.msg.base.toNat (s.msg.base.toNat + s.msg.len.toNat) disc edition
      (clearTable s)) := by
  have hm' : memRead (clearTable s) s.msg.base.toNat 4 = .ok magic := (memRead_congr rfl rfl _ _).trans hm
  have hb (a : Nat) : readByte (clearTable s) a = readByte s a := readByte_congr rfl rfl a
  simp [execSectsplit, hv, Nat.not_lt.2 hle, hm', hb, hd, hg]

end InBuffer

/-- SECT_PRESENT where slot 0 alone holds a section (R149). -/
theorem presentWord_of_zero_only (h0 : s.table.slots[(0 : Fin 9)].present = true)
    (h : ∀ n : Fin 9, n ≠ 0 → s.table.slots[n].present = false) : presentWord s = 0x001#32 := by
  have hzero : slotPresent s 0 = true := (slotPresent_eq s 0).trans h0
  have hother (k : Nat) (hpos : 1 ≤ k) (hk : k < 9) : slotPresent s k = false :=
    (slotPresent_eq s ⟨k, hk⟩).trans (h ⟨k, hk⟩ (Fin.ne_of_val_ne (Nat.ne_of_gt hpos)))
  simp [presentWord, hzero, hother, placeBit, place]

/-- S0_INFO: DISC in bits 7:0 and EDITION in bits 15:8 (R38). -/
theorem s0Info_eq_append (s : State) : readReg s .s0Info = 0#16 ++ s.table.edition ++ s.table.disc := by
  apply BitVec.eq_of_getLsbD_eq
  intro i hi
  simp only [readReg, BitVec.getLsbD_or, getLsbD_place, BitVec.getLsbD_append, BitVec.getLsbD_zero]
  rcases Nat.lt_or_ge i 8 with h | h
  · simp [h, hi, Nat.not_le.2 h]
  · simpa [h, hi, Nat.not_lt.2 h] using BitVec.lt_of_getLsbD

/-- The start step records section 0 alone. -/
theorem openSections_slot_of_ne (base stop : Nat) (disc edition : Byte) (s : State) {n : Fin 9} (hn : n ≠ 0) :
    (openSections base stop disc edition (clearTable s)).table.slots[n] = Slot.absent :=
  (openSections_slots base stop disc edition s n).trans (if_neg (Fin.val_ne_of_ne hn))

/-- Settles O41: the checks in order; the table opened holds section 0 alone. -/
theorem sectsplitStart : Obligations.SectsplitStart := by
  intro s b e
  refine ⟨execSectsplit_nomsg, execSectsplit_range, fun hv hle m hm => ?_⟩
  have hread := hm.memRead
  refine ⟨execSectsplit_no_magic hv hle hread, fun hmag d g hd hg => ?_⟩
  have h0 := (openSections_slots b e (d 0) (g 0) s 0).trans (if_pos rfl)
  have hother (n : Fin 9) (hn : n ≠ 0) := openSections_slot_of_ne b e (d 0) (g 0) s hn
  refine ⟨_, execSectsplit_magic hv hle (hread.trans (congrArg _ hmag)) (hd.readByte Nat.one_pos)
    (hg.readByte Nat.one_pos), rfl, ?addr, ?len, ?present, hother, s0Info_eq_append _, rfl, rfl⟩
  case addr => exact (congrArg Slot.addr h0).trans (BitVec.ofNat_toNat ..)
  case len => exact congrArg Slot.len h0
  case present =>
    exact presentWord_of_zero_only (congrArg Slot.present h0) fun n hn => congrArg Slot.present (hother n hn)

/-! ### A header step (R151, R152) -/

theorem sectHeader_of_mark {ptr stop : Nat} (h4 : 4 ≤ stop - ptr) (hm : memRead s ptr 4 = .ok endMark) :
    sectHeader ptr stop s = .next (closeSections ptr s) := by
  simp [sectHeader, atEndMark, h4, hm]

/-- No marker stands at `ptr`: part 2 of the header step runs. -/
theorem sectHeader_of_no_mark {ptr stop : Nat} (h : 4 ≤ stop - ptr → ∃ m, memRead s ptr 4 = .ok m ∧ m ≠ endMark) :
    sectHeader ptr stop s = headerRecord ptr stop s := by
  by_cases h4 : 4 ≤ stop - ptr
  · obtain ⟨m, hm, hne⟩ := h h4
    simp [sectHeader, atEndMark, h4, hm, hne]
  · simp [sectHeader, atEndMark, h4]

theorem headerRecord_of_header {ptr stop len : Nat} {num : Byte} (h5 : 5 ≤ stop - ptr) (hlen : readBE s ptr 4 = .ok len)
    (hnum : readByte s (ptr + 4) = .ok num) :
    headerRecord ptr stop s =
      if len < 5 then .next (raise (opcodeByte .sectsplit) .sectLen (BitVec.ofNat 32 ptr) s)
      else if stop - ptr < len then .next (raise (opcodeByte .sectsplit) .sectRange (BitVec.ofNat 32 ptr) s)
      else .next (takeSection ptr stop len num.toNat s) := by
  simp [headerRecord, Nat.not_lt.2 h5, hlen, hnum]

/-- Settles O42: four bytes 0x37 are the marker. -/
theorem headerStepEnds : Obligations.HeaderStepEnds :=
  fun _ _ _ he h4 hm => (engineStep_sect he).trans (sectHeader_of_mark h4 hm.memRead)

/-- The slot of section number `num` is a numbered slot that holds a section. -/
theorem slotPresent_eq_exists (s : State) {num : Nat} (h : 1 ≤ num ∧ num ≤ 8) :
    slotPresent s num = decide (∃ n : Fin 9, n ≠ 0 ∧ n.val = num ∧ s.table.slots[n].present = true) := by
  rw [Bool.eq_iff_iff, decide_eq_true_iff]
  constructor
  · intro hp
    have hne : (⟨num, by omega⟩ : Fin 9) ≠ 0 := Fin.ne_of_val_ne (Nat.ne_of_gt h.1)
    exact ⟨⟨num, by omega⟩, hne, rfl, (slotPresent_eq s _).symm.trans hp⟩
  · rintro ⟨n, -, rfl, hp⟩
    exact (slotPresent_eq s n).trans hp

/-- The warnings of a section taken (R152): W_SECTNUM for a number outside 1 to 8, W_DUP for a slot already taken. -/
theorem takeSection_warnings (ptr stop len num : Nat) (s : State) :
    (takeSection ptr stop len num s).status =
      { s.status with
        wSectnum := s.status.wSectnum || decide (num = 0 ∨ 9 ≤ num)
        wDup := s.status.wDup || decide (∃ n : Fin 9, n ≠ 0 ∧ n.val = num ∧ s.table.slots[n].present = true) } := by
  by_cases h : 1 ≤ num ∧ num ≤ 8
  · have hnum : ¬ (num = 0 ∨ 9 ≤ num) := by omega
    simp only [takeSection, if_pos h, recordSection_status, warnDup_status, slotPresent_eq_exists s h,
      decide_eq_false hnum, Bool.or_false]
  · have hnum : num = 0 ∨ 9 ≤ num := by omega
    have hslot : ¬ ∃ n : Fin 9, n ≠ 0 ∧ n.val = num ∧ s.table.slots[n].present = true := by
      rintro ⟨n, hn, rfl, -⟩
      have := Fin.val_ne_of_ne hn
      omega
    simp only [takeSection, if_neg h, warnSectnum_status, decide_eq_true hnum, decide_eq_false hslot, Bool.or_true,
      Bool.or_false]

@[simp] theorem takeSection_estate (ptr stop len num : Nat) (s : State) :
    (takeSection ptr stop len num s).estate = .sect (ptr + len) stop := rfl

@[simp] theorem takeSection_msg (ptr stop len num : Nat) (s : State) : (takeSection ptr stop len num s).msg = s.msg := by
  rw [takeSection_eq]

@[simp] theorem takeSection_ibuf (ptr stop len num : Nat) (s : State) :
    (takeSection ptr stop len num s).ibuf = s.ibuf := by
  rw [takeSection_eq]

@[simp] theorem takeSection_bufLen (ptr stop len num : Nat) (s : State) :
    (takeSection ptr stop len num s).bufLen = s.bufLen := by
  rw [takeSection_eq]

/-- Settles O43: without a marker the step is part 2 of R152, which reads the header and checks the length twice. -/
theorem headerStepRecords : Obligations.HeaderStepRecords := by
  intro s ptr stop h he hno
  have hstep : engineStep s = headerRecord ptr stop s :=
    (engineStep_sect he).trans (sectHeader_of_no_mark fun h4 => ⟨_, (hno h4).1.memRead, (hno h4).2⟩)
  refine ⟨fun h5 => hstep.trans (if_pos h5), fun h5 hh => ?_⟩
  have hrec := hstep.trans (headerRecord_of_header h5 (hh.take (by decide)).readBE (hh.readByte (by decide)))
  intro len num
  refine ⟨fun hlt => hrec.trans (if_pos hlt), fun hle hlt => ?range, fun hle hfit => ?take⟩
  case range => exact (hrec.trans (if_neg (Nat.not_lt.2 hle))).trans (if_pos hlt)
  case take =>
    exact ⟨_, (hrec.trans (if_neg (Nat.not_lt.2 hle))).trans (if_neg (Nat.not_lt.2 hfit)), rfl,
      takeSection_slots ptr stop len (h 4) s, takeSection_warnings ptr stop len num s, takeSection_eq ptr stop len num s⟩

/-! ### The steps of SECTSPLIT that go on (R149, R151, R152) -/

/-- The block has taken a fault, with the message registers of `s` (R255). -/
def FaultedFrom (s t : State) : Prop := t.estate = .idle ∧ t.status.err = true ∧ t.msg = s.msg

/-- SECTSPLIT's start step faults or records section 0. -/
theorem engineStep_sectsplit_next (he : s.estate = .start (encode .sectsplit)) (h : engineStep s = .next t) :
    FaultedFrom s t ∨ s.status.msgValid = true ∧ ∃ disc edition, t = openSections s.msg.base.toNat
      (s.msg.base.toNat + s.msg.len.toNat) disc edition (clearTable s) := by
  have hexec : engineStep s = execSectsplit s := engineStep_start he (decode_encode .sectsplit)
  rw [hexec] at h
  rcases execSectsplit_cases s with ⟨-, e⟩ | ⟨hv, ⟨-, e⟩ | ⟨-, ⟨f, -, e⟩ | ⟨m, -, -, e⟩ |
    ⟨-, ⟨f, k, -, -, e⟩ | ⟨disc, edition, -, -, e⟩⟩⟩⟩ <;> rw [e] at h
  case inr.inr.inl => cases h
  case inr.inr.inr.inr.inl => cases h
  case inr.inr.inr.inr.inr => exact .inr ⟨hv, disc, edition, next_inj h⟩
  all_goals rw [next_inj h]; exact .inl ⟨rfl, rfl, rfl⟩

/-- A header step ends SECTSPLIT at the marker, faults, or takes a section that does not begin with the marker. -/
theorem engineStep_sect_next {ptr stop : Nat} (he : s.estate = .sect ptr stop) (h : engineStep s = .next t) :
    memRead s ptr 4 = .ok endMark ∧ t = closeSections ptr s ∨ FaultedFrom s t ∨
      ∃ len m, ∃ num : Byte, 5 ≤ len ∧ len ≤ stop - ptr ∧ memRead s ptr 4 = .ok m ∧ m ≠ endMark ∧
        t = takeSection ptr stop len num.toNat s := by
  rw [engineStep_sect he] at h
  rcases sectHeader_cases ptr stop s with ⟨f, k, -, -, -, -, e⟩ | ⟨-, hm, e⟩ | ⟨hno, ⟨-, e⟩ |
    ⟨h5, len, num, -, -, ⟨-, e⟩ | ⟨-, -, e⟩ | ⟨hlen, hfit, e⟩⟩⟩ <;> rw [e] at h
  case inl => cases h
  case inr.inl => exact .inl ⟨hm, next_inj h⟩
  case inr.inr.inr.inr.inr =>
    obtain ⟨m, hm, hne⟩ := hno (by omega)
    exact .inr (.inr ⟨len, m, num, hlen, hfit, hm, hne, next_inj h⟩)
  all_goals rw [next_inj h]; exact .inr (.inl ⟨rfl, rfl, rfl⟩)

/-! ### Runs -/

theorem engineRun_succ_of_next (h : engineStep s = .next t) (k : Nat) : engineRun (k + 1) s = engineRun k t := by
  rw [engineRun, h]

theorem engineRun_succ_of_fault {f : Fault} (h : engineStep s = .fault f) (k : Nat) :
    engineRun (k + 1) s = .fault f := by
  rw [engineRun, h]

/-- What every engine step keeps holds at the end of a run. -/
theorem engineRun_keeps {P : State → Prop} (hstep : ∀ s t, P s → engineStep s = .next t → P t) {k : Nat} (hs : P s)
    (hrun : engineRun k s = .next t) : P t := by
  induction k generalizing s with
  | zero => rw [next_inj hrun]; exact hs
  | succ k ih =>
    cases h : engineStep s with
    | next u => rw [engineRun_succ_of_next h] at hrun; exact ih (hstep s u hs h) hrun
    | fault f => rw [engineRun_succ_of_fault h] at hrun; cases hrun
    | refused r => rw [engineRun, h] at hrun; cases hrun

/-! ### The number of steps (R154, R298) -/

/-- The run ends idle, or has stopped on an unwritten byte of IBUF. -/
def EndsIdleOrUnwritten (r : Result) : Prop :=
  (∃ t, r = .next t ∧ t.estate = .idle) ∨ ∃ a, r = .fault (.ibufUnwritten a)

theorem endsIdleOrUnwritten_of_idle (h : t.estate = .idle) (k : Nat) : EndsIdleOrUnwritten (engineRun k t) :=
  .inl ⟨t, engineRun_idle h k, h⟩

/-- Under the invariant a first step goes on or stops on an unwritten byte, so only the states it goes on to matter. -/
theorem BlockInv.endsIdleOrUnwritten_succ (h : BlockInv s) {k : Nat}
    (hnext : ∀ t, BlockInv t → engineStep s = .next t → EndsIdleOrUnwritten (engineRun k t)) :
    EndsIdleOrUnwritten (engineRun (k + 1) s) := by
  rcases h.engineStep_readsBelow with ⟨t, ht⟩ | ⟨a, -, -, ha⟩
  · rw [engineRun_succ_of_next ht]
    exact hnext t (h.of_engineForm (engineForm_of_next ht)) ht
  · exact .inr ⟨a, engineRun_succ_of_fault ha k⟩

/-- Each header step that goes on moves at least 5 bytes towards the end of the message. -/
theorem BlockInv.headerSteps_bounded (h : BlockInv s) {ptr stop k : Nat} (he : s.estate = .sect ptr stop)
    (hk : (stop - ptr) / 5 < k) : EndsIdleOrUnwritten (engineRun k s) := by
  induction k generalizing s ptr with
  | zero => omega
  | succ k ih =>
    refine h.endsIdleOrUnwritten_succ fun t hinv ht => ?_
    rcases engineStep_sect_next he ht with ⟨-, rfl⟩ | ⟨hidle, -⟩ | ⟨len, m, num, h5, hfit, -, -, rfl⟩
    · exact endsIdleOrUnwritten_of_idle rfl k
    · exact endsIdleOrUnwritten_of_idle hidle k
    · exact ih hinv rfl (by omega)

/-- Settles O44: the start step leaves the header steps the MSG_LEN - 16 bytes behind section 0. -/
theorem sectsplitBounded : Obligations.SectsplitBounded := by
  intro s h he
  refine h.endsIdleOrUnwritten_succ fun t hinv ht => ?_
  rcases engineStep_sectsplit_next he ht with ⟨hidle, -⟩ | ⟨-, disc, edition, rfl⟩
  · exact endsIdleOrUnwritten_of_idle hidle _
  · exact hinv.headerSteps_bounded rfl (by rw [s0Len]; omega)

/-! ### The table of a completed SECTSPLIT (R154) -/

/-- No section recorded in slots 1 to 8 begins with the marker. -/
def HeadsUnmarked (s : State) : Prop :=
  ∀ n : Fin 9, n ≠ 0 → s.table.slots[n].present = true →
    ∃ m, memRead s s.table.slots[n].addr.toNat 4 = .ok m ∧ m ≠ endMark

/-- SECTSPLIT has completed, with END_ADDR at the marker (R151). -/
structure SplitDone (s : State) : Prop where
  idle : s.estate = .idle
  valid : s.status.sectValid = true
  done : s.status.done = true
  marker : memRead s s.table.endAddr.toNat 4 = .ok endMark
  heads : HeadsUnmarked s

/-- Where an accepted SECTSPLIT stands. -/
inductive SplitStage (s : State) : Prop where
  | start : s.estate = .start (encode .sectsplit) → SplitStage s
  | headers {ptr stop : Nat} : s.estate = .sect ptr stop → HeadsUnmarked s → SplitStage s
  | fault : s.estate = .idle → s.status.err = true → SplitStage s
  | done : SplitDone s → SplitStage s

/-- SECTSPLIT on the message whose registers are `m`. -/
structure Splitting (m : MsgRegs) (s : State) : Prop where
  inv : BlockInv s
  msg : s.msg = m
  stage : SplitStage s

/-- The offset a header step examines fits a register: it lies in the message, below BUF_LEN. -/
theorem FramerInv.sect_toNat_ofNat (h : FramerInv s) {ptr stop : Nat} (he : s.estate = .sect ptr stop) :
    (BitVec.ofNat 32 ptr).toNat = ptr := by
  obtain ⟨-, -, -, hbuf, -, hle, -⟩ := h.running ptr stop he
  exact Nat.mod_eq_of_lt (hle.trans_lt (hbuf.trans_lt s.bufLen.isLt))

theorem headsUnmarked_openSections (base stop : Nat) (disc edition : Byte) (s : State) :
    HeadsUnmarked (openSections base stop disc edition (clearTable s)) := by
  intro n hn hp
  rw [openSections_slot_of_ne _ _ _ _ _ hn] at hp
  cases hp

theorem HeadsUnmarked.takeSection (h : HeadsUnmarked s) {ptr stop len : Nat} {m : List Byte} {num : Byte}
    (hptr : (BitVec.ofNat 32 ptr).toNat = ptr) (hm : memRead s ptr 4 = .ok m) (hne : m ≠ endMark) :
    HeadsUnmarked (takeSection ptr stop len num.toNat s) := by
  intro n hn
  have hread (a : Nat) : memRead (Machine.takeSection ptr stop len num.toNat s) a 4 = memRead s a 4 :=
    memRead_congr (takeSection_ibuf ..) (takeSection_bufLen ..) a 4
  rw [hread]
  rcases takeSection_slot_cases ptr stop len num s n with hslot | ⟨-, hslot⟩ <;> rw [hslot]
  · exact h n hn
  · exact fun _ => ⟨m, by rw [hptr]; exact hm, hne⟩

theorem HeadsUnmarked.splitDone (h : HeadsUnmarked s) {ptr : Nat} (hptr : (BitVec.ofNat 32 ptr).toNat = ptr)
    (hm : memRead s ptr 4 = .ok endMark) : SplitDone (closeSections ptr s) where
  idle := rfl
  valid := rfl
  done := rfl
  marker := by
    rw [closeSections_table, hptr, memRead_congr (closeSections_ibuf s ptr) (closeSections_bufLen s ptr)]
    exact hm
  heads n hn hp := by
    rw [memRead_congr (closeSections_ibuf s ptr) (closeSections_bufLen s ptr)]
    exact h n hn hp

/-- An engine step takes SECTSPLIT to its next stage, on the same message. -/
theorem SplitStage.step (h : SplitStage s) (hinv : BlockInv s) (hs : engineStep s = .next t) :
    SplitStage t ∧ t.msg = s.msg := by
  cases h with
  | start he =>
    rcases engineStep_sectsplit_next he hs with ⟨hidle, herr, hmsg⟩ | ⟨-, disc, edition, rfl⟩
    · exact ⟨.fault hidle herr, hmsg⟩
    · exact ⟨.headers rfl (headsUnmarked_openSections _ _ _ _ _), rfl⟩
  | headers he hheads =>
    have hptr := hinv.framer.sect_toNat_ofNat he
    rcases engineStep_sect_next he hs with ⟨hm, rfl⟩ | ⟨hidle, herr, hmsg⟩ | ⟨len, m, num, -, -, hm, hne, rfl⟩
    · exact ⟨.done (hheads.splitDone hptr hm), rfl⟩
    · exact ⟨.fault hidle herr, hmsg⟩
    · exact ⟨.headers rfl (hheads.takeSection hptr hm hne), takeSection_msg ..⟩
  | fault hidle herr =>
    rw [engineStep_idle hidle] at hs
    rw [next_inj hs]
    exact ⟨.fault hidle herr, rfl⟩
  | done hd =>
    rw [engineStep_idle hd.idle] at hs
    rw [next_inj hs]
    exact ⟨.done hd, rfl⟩

theorem Splitting.step {m : MsgRegs} (h : Splitting m s) (hs : engineStep s = .next t) : Splitting m t := by
  obtain ⟨hstage, hmsg⟩ := h.stage.step h.inv hs
  exact ⟨h.inv.of_engineForm (engineForm_of_next hs), hmsg.trans h.msg, hstage⟩

/-- SECTSPLIT that is idle without a fault has completed. -/
theorem SplitStage.splitDone (h : SplitStage s) (hidle : s.estate = .idle) (herr : s.status.err = false) :
    SplitDone s := by
  cases h with
  | start he => cases he.symm.trans hidle
  | headers he => cases he.symm.trans hidle
  | fault _ he => cases he.symm.trans herr
  | done hd => exact hd

/-- Settles O45: the bounds are the invariant's, the marker and the heads those of the completed stage. -/
theorem sectsplitTableSound : Obligations.SectsplitTableSound := by
  intro s t k h he hrun hidle herr
  have hsplit : Splitting s.msg t :=
    engineRun_keeps (fun _ _ => Splitting.step) ⟨h, rfl, .start he⟩ hrun
  have hd := hsplit.stage.splitDone hidle herr
  have hf := hsplit.inv.framer
  obtain ⟨h0, hlo, hhi, hbefore⟩ := hf.framed hd.valid
  obtain ⟨haddr, hlen⟩ := hf.slot_zero h0
  rw [← hsplit.msg]
  exact ⟨hd.valid, hd.done, hlen, haddr, hlo, hhi, hd.marker, fun n hn hp =>
    ⟨(hf.slot_inside n hn hp).1, hbefore n hn hp, hd.heads n hn hp⟩⟩

/-! ### A chain of sections (R150 to R152, R155) -/

/-- A header step on a section of a chain takes it. -/
theorem engineStep_take {ptr stop : Nat} {m : List Byte} {num : Byte} (he : s.estate = .sect ptr stop)
    (hm : memRead s ptr 4 = .ok m) (hne : m ≠ endMark) (hnum : readByte s (ptr + 4) = .ok num) (h5 : 5 ≤ beNat m)
    (hfit : beNat m ≤ stop - ptr) : engineStep s = .next (takeSection ptr stop (beNat m) num.toNat s) := by
  have hlen : readBE s ptr 4 = .ok (beNat m) := by rw [readBE, hm]
  rw [engineStep_sect he, sectHeader_of_no_mark fun _ => ⟨m, hm, hne⟩,
    headerRecord_of_header (h5.trans hfit) hlen hnum, if_neg (Nat.not_lt.2 h5), if_neg (Nat.not_lt.2 hfit)]

/-- Settles O46, by induction on the sections of the chain, one header step for each. -/
theorem sectsplitFramesChain : Obligations.SectsplitFramesChain := by
  intro s ptr stop last secs hc he
  induction secs generalizing s ptr with
  | nil =>
    cases hc with
    | mark h4 hm =>
      have hstep := (engineStep_sect he).trans (sectHeader_of_mark h4 hm)
      exact ⟨_, engineRun_succ_of_next hstep 0, rfl, rfl, rfl, rfl, rfl, rfl, fun _ _ => rfl, by simp⟩
  | cons sec rest ih =>
    cases hc with
    | @header _ _ _ m num _ hm hne hlen hnum h5 hfit hrest =>
      subst hlen
      have hstep := engineStep_take he hm hne hnum h5 hfit
      obtain ⟨t, hrun, hidle, hdone, hvalid, herr, hend, h0, hslots, hwarn⟩ :=
        ih _ _ (hrest.congr (takeSection_ibuf ..) (takeSection_bufLen ..)) (takeSection_estate ..)
      rw [takeSection_warnings] at herr hwarn
      rw [takeSection_slots, if_neg fun h => h.2 rfl] at h0
      refine ⟨t, (engineRun_succ_of_next hstep _).trans hrun, hidle, hdone, hvalid, herr, hend, h0, fun n hn => ?slots,
        ?warn⟩
      case slots =>
        rw [hslots n hn, lastOf, takeSection_slots]
        cases lastOf n.val (ptr + beNat m) rest with
        | some r => rfl
        | none =>
          by_cases hnum' : num.toNat = n.val
          · simp [hn, hnum']
          · simp [hnum', Ne.symm hnum']
      case warn => rw [hwarn]; simp [or_assoc]

end Sys2Proof.Machine

/-! PROOFS. The unpacker (42_unpacker.md R183 to R206): UNPACK's start step, its point steps branch by branch, the bytes
they read, the counting law of a whole run, and the runs that end in a fault. -/
namespace Sys2Proof.Machine

variable {s : State} {i c k : Nat}

/-! ### The start step (R183) -/

/-- After the checks UNPACK completes for N = 0, or stands at its first point. -/
theorem nextPoint_first (s : State) :
    nextPoint 0 0 0 (dropOutput s) =
      if s.prm.npts = 0#32 then
        { s with
          status := { s.status with outValid := true, busy := false, done := true }
          prog := { outCount := 0#32, idx := 0#32, cursor := 0#32, cw := 0#32 }
          estate := .idle }
      else
        { s with
          status := { s.status with outValid := false }
          prog := { outCount := 0#32, idx := 0#32, cursor := 0#32, cw := 0#32 }
          estate := .unp 0 0 0 } := by
  rcases nextPoint_cases 0 0 0 (dropOutput s) with ⟨hn, e⟩ | ⟨hn, e⟩ <;> rw [e]
  · have hnpts : s.prm.npts = 0#32 := BitVec.eq_of_toNat_eq hn.symm
    rw [if_pos hnpts, publishOutput, setProgress_prm, dropOutput_prm, hnpts]
    rfl
  · rw [if_neg fun hnpts : s.prm.npts = 0#32 => hn (congrArg BitVec.toNat hnpts).symm]
    rfl

/-- Settles O47: `raise` is the fault entry of R255, and `nextPoint_first` what follows the checks. -/
theorem unpackStart : Obligations.UnpackStart := by
  intro s s1 p
  rw [exec, execUnpack, nextPoint_first, apply_ite Host.Outcome.next]
  simp only [spanFits_false]
  rfl

/-! ### A point step, branch by branch (R186) -/

theorem unpPoint_past_bitmap (hen : s.prm.bmpEn = true) (h : 8 * s.prm.bmpLen.toNat ≤ i) :
    unpPoint i c k s = .next (raise (opcodeByte .unpack) .bmpRange (BitVec.ofNat 32 i) s) := if_pos ⟨hen, h⟩

/-- Point `i` has a bit in the bitmap, where one is enabled. -/
def InBitmap (s : State) (i : Nat) : Prop := s.prm.bmpEn = true → i < 8 * s.prm.bmpLen.toNat

theorem InBitmap.not_past (h : InBitmap s i) : ¬ (s.prm.bmpEn = true ∧ 8 * s.prm.bmpLen.toNat ≤ i) :=
  fun ⟨hen, hle⟩ => (h hen).not_ge hle

theorem unpPoint_bitmap_stop (hb : InBitmap s i) {f : Fault} (hp : pointPresent s i = .error f) :
    unpPoint i c k s = .fault f := by
  rw [unpPoint, if_neg hb.not_past, hp]

theorem unpPoint_masked (hb : InBitmap s i) (hp : pointPresent s i = .ok false) :
    unpPoint i c k s = .next (maskedPoint i c k s) := by
  rw [unpPoint, if_neg hb.not_past, hp]

section Present

variable (hb : InBitmap s i) (hp : pointPresent s i = .ok true)
include hb hp

theorem unpPoint_past_data (h : 8 * s.prm.dataLen.toNat < c + s.prm.width.toNat) :
    unpPoint i c k s = .next (raise (opcodeByte .unpack) .dataRange (BitVec.ofNat 32 i) s) := by
  simp only [unpPoint, if_neg hb.not_past, hp, if_pos h]

variable (hd : c + s.prm.width.toNat ≤ 8 * s.prm.dataLen.toNat)
include hd

theorem unpPoint_data_stop {f : Fault} (hr : readBits s s.prm.dataAddr.toNat c s.prm.width.toNat = .error f) :
    unpPoint i c k s = .fault f := by
  simp only [unpPoint, if_neg hb.not_past, hp, if_neg (Nat.not_lt.2 hd), hr]

theorem unpPoint_present {raw : Nat} (hr : readBits s s.prm.dataAddr.toNat c s.prm.width.toNat = .ok raw) :
    unpPoint i c k s = .next (presentPoint i c k raw s) := by
  simp only [unpPoint, if_neg hb.not_past, hp, if_neg (Nat.not_lt.2 hd), hr]

end Present

theorem pointPresent_bitmap (hen : s.prm.bmpEn = true) : pointPresent s i = bitAt s s.prm.bmpAddr.toNat i := if_pos hen

/-- A point is present where its bit is 1, or where no bitmap is enabled (R189). -/
theorem present_of_bit
    (h : s.prm.bmpEn = true → i < 8 * s.prm.bmpLen.toNat ∧ bitAt s s.prm.bmpAddr.toNat i = .ok true) :
    InBitmap s i ∧ pointPresent s i = .ok true := by
  refine ⟨fun hen => (h hen).1, ?_⟩
  by_cases hen : s.prm.bmpEn = true
  · exact (pointPresent_bitmap hen).trans (h hen).2
  · exact if_neg hen

/-- Settles O50: the two faulting branches of a point step. -/
theorem pointFaults : Obligations.PointFaults := by
  refine fun s i c k he => ⟨fun hen hpast => ?_, fun hbit hpast => ?_⟩
  · exact (engineStep_unp he).trans (unpPoint_past_bitmap hen hpast)
  · obtain ⟨hb, hp⟩ := present_of_bit hbit
    exact (engineStep_unp he).trans (unpPoint_past_data hb hp hpast)

/-! ### Masked and present points (R184, R187, R188) -/

/-- The progress registers mirror the point UNPACK goes on to, also when it completes there (R49). -/
theorem nextPoint_progress (i c k : Nat) (s : State) :
    (nextPoint i c k s).prog.idx = BitVec.ofNat 32 i ∧ (nextPoint i c k s).prog.cursor = BitVec.ofNat 32 c ∧
      (nextPoint i c k s).prog.cw = BitVec.ofNat 32 k := by
  rcases nextPoint_cases i c k s with ⟨-, e⟩ | ⟨-, e⟩ <;> rw [e] <;> exact ⟨rfl, rfl, rfl⟩

theorem nextPoint_obuf (i c k : Nat) (s : State) : (nextPoint i c k s).obuf = s.obuf := by rw [nextPoint_eq]

/-- UNPACK completes at point NPTS and goes on to any other (R184, R186). -/
theorem nextPoint_rule (i c k : Nat) (s : State) :
    if i = s.prm.npts.toNat then
      nextPoint i c k s = { s with
        obuf := (nextPoint i c k s).obuf, prog := { (nextPoint i c k s).prog with outCount := s.prm.npts }
        status := { s.status with outValid := true, busy := false, done := true }, estate := .idle }
    else
      nextPoint i c k s = { s with
        obuf := (nextPoint i c k s).obuf, prog := { (nextPoint i c k s).prog with outCount := s.prog.outCount }
        estate := .unp i c k } := by
  rcases nextPoint_cases i c k s with ⟨hi, e⟩ | ⟨hi, e⟩
  · rw [if_pos hi, e]; rfl
  · rw [if_neg hi, e]; rfl

/-- Settles O48: the bit of the byte held is 0, so the step is `maskedPoint`. -/
theorem maskedPoint_rule : Obligations.MaskedPoint := by
  intro s i c k x he hen hi hx hbit
  have hread : readByte s (s.prm.bmpAddr.toNat + i / 8) = .ok x := hx.readByte Nat.one_pos
  have hp : pointPresent s i = .ok false := by rw [pointPresent_bitmap hen, bitAt, hread, ← hbit]
  obtain ⟨hidx, hcur, hcw⟩ := nextPoint_progress (i + 1) c k (writeOut i nullEntry s)
  have hobuf : (maskedPoint i c k s).obuf = Cells.write s.obuf i nullEntry := nextPoint_obuf ..
  refine ⟨_, (engineStep_unp he).trans (unpPoint_masked (fun _ => hi) hp), ?_, fun j hj => ?_, hidx, hcur, hcw, ?_⟩
  · rw [hobuf, Cells.read_write_same]; rfl
  · rw [hobuf, Cells.read_write_other _ _ hj]
  · exact nextPoint_rule (i + 1) c k (writeOut i nullEntry s)

/-- The exponent field 2047 is that of the infinities and the NaNs (R199). -/
theorem nonFinite_eq_decide (v : B64) : nonFinite v = decide (unpack64 v = .nan ∨ ∃ g, unpack64 v = .inf g) := by
  have hexp : nonFinite v = true ↔ (v.extractLsb' 52 11).toNat = 2047 := by
    rw [nonFinite, beq_iff_eq, BitVec.toNat_eq]; rfl
  rw [Bool.eq_iff_iff, hexp, decide_eq_true_iff]
  simp only [unpack64]
  by_cases h : (v.extractLsb' 52 11).toNat = 2047
  · rw [if_pos h]
    exact iff_of_true h (by split <;> simp)
  · rw [if_neg h]
    exact iff_of_false h (by split <;> simp)

/-- Settles O49: the bits read are the codeword of R185, so the step is `presentPoint`. -/
theorem presentPoint_rule : Obligations.PresentPoint := by
  intro s i c k bit he hpres hd hbits W raw v
  obtain ⟨hb, hp⟩ := present_of_bit hpres
  have hraw : readBits s s.prm.dataAddr.toNat c W = .ok raw := by
    rw [readBits, bitsFrom_sum W 0 c bit hbits, Nat.zero_mul, Nat.zero_add]
  obtain ⟨hidx, hcur, hcw⟩ := nextPoint_progress (i + 1) (c + W) (k + 1)
    (warnNonfinite (nonFinite v) (writeOut i { present := true, value := v, raw := BitVec.ofNat 32 raw } s))
  have hobuf : (presentPoint i c k raw s).obuf =
      Cells.write s.obuf i { present := true, value := v, raw := BitVec.ofNat 32 raw } := nextPoint_obuf ..
  have hwarn : (presentPoint i c k raw s).status.wNonfinite = (s.status.wNonfinite || nonFinite v) := by
    rw [presentPoint, nextPoint_status]; rfl
  refine ⟨_, (engineStep_unp he).trans (unpPoint_present hb hp hd hraw), ?_, fun j hj => ?_, ?_, hidx, hcur, hcw, ?_⟩
  · rw [hobuf, Cells.read_write_same]
  · rw [hobuf, Cells.read_write_other _ _ hj]
  · rw [hwarn, nonFinite_eq_decide]
  · rw [hwarn]
    exact nextPoint_rule (i + 1) (c + W) (k + 1) (warnNonfinite (nonFinite v) (writeOut i _ s))

/-! ### What a point step reads (R185, R186, R189) -/

/-- The byte at `a` is the same in the memory `m`. -/
def SameByte (m : Memory) (s : State) (a : Nat) : Prop := Cells.read m a = Cells.read s.ibuf a

variable {m : Memory} {b : Nat}

theorem readByte_setIbuf {a : Nat} (h : SameByte m s a) : readByte { s with ibuf := m } a = readByte s a := by
  simp only [readByte]
  rw [h]

theorem bitAt_setIbuf (h : SameByte m s (b + i / 8)) : bitAt { s with ibuf := m } b i = bitAt s b i := by
  rw [bitAt, readByte_setIbuf h, bitAt]

theorem bitsFrom_setIbuf {w : Nat} (h : ∀ j, j < w → SameByte m s (b + (c + j) / 8)) (acc : Nat) :
    bitsFrom { s with ibuf := m } b acc c w = bitsFrom s b acc c w := by
  induction w generalizing acc c with
  | zero => rfl
  | succ w ih =>
    have hrest : ∀ j, j < w → SameByte m s (b + (c + 1 + j) / 8) := fun j hj => by
      rw [Nat.add_assoc, Nat.add_comm 1]; exact h (j + 1) (Nat.succ_lt_succ hj)
    simp only [bitsFrom, bitAt_setIbuf (i := c) (h 0 w.succ_pos), ih hrest]

/-- Every byte of the data span, and of the bitmap where it is enabled, is the same in the memory `m`. -/
structure SameSpans (m : Memory) (s : State) : Prop where
  data : ∀ j, j < s.prm.dataLen.toNat → SameByte m s (s.prm.dataAddr.toNat + j)
  bitmap : s.prm.bmpEn = true → ∀ j, j < s.prm.bmpLen.toNat → SameByte m s (s.prm.bmpAddr.toNat + j)

theorem SameSpans.pointPresent (h : SameSpans m s) (hb : InBitmap s i) :
    Machine.pointPresent { s with ibuf := m } i = Machine.pointPresent s i := by
  unfold Machine.pointPresent
  split
  · next hen =>
    have := hb hen
    exact bitAt_setIbuf (h.bitmap hen _ (by omega))
  · rfl

theorem SameSpans.readBits (h : SameSpans m s) (hd : c + s.prm.width.toNat ≤ 8 * s.prm.dataLen.toNat) :
    Machine.readBits { s with ibuf := m } s.prm.dataAddr.toNat c s.prm.width.toNat =
      Machine.readBits s s.prm.dataAddr.toNat c s.prm.width.toNat :=
  bitsFrom_setIbuf (fun j hj => h.data _ (by omega)) 0

theorem nextPoint_setIbuf (i c k : Nat) (m : Memory) (s : State) :
    nextPoint i c k { s with ibuf := m } = { nextPoint i c k s with ibuf := m } := by
  rcases nextPoint_cases i c k s with ⟨hi, e⟩ | ⟨hi, e⟩ <;> rw [e]
  · exact if_pos hi
  · exact if_neg hi

/-- A result with the memory of its next state replaced. -/
def setIbuf (m : Memory) : Result → Result
  | .next t => .next { t with ibuf := m }
  | .fault f => .fault f
  | .refused r => .refused r

/-- A point step on a memory that agrees on the spans is the same step, branch by branch. -/
theorem SameSpans.unpPoint (h : SameSpans m s) (i c k : Nat) :
    Machine.unpPoint i c k { s with ibuf := m } = setIbuf m (Machine.unpPoint i c k s) := by
  by_cases hpast : s.prm.bmpEn = true ∧ 8 * s.prm.bmpLen.toNat ≤ i
  · rw [unpPoint_past_bitmap hpast.1 hpast.2]
    exact unpPoint_past_bitmap hpast.1 hpast.2
  have hb : InBitmap s i := fun hen => not_le.1 fun hle => hpast ⟨hen, hle⟩
  have hb' : InBitmap { s with ibuf := m } i := hb
  have hp' := h.pointPresent hb
  cases hp : Machine.pointPresent s i with
  | error f =>
    rw [unpPoint_bitmap_stop hb hp]
    exact unpPoint_bitmap_stop hb' (hp'.trans hp)
  | ok present =>
    cases present with
    | false =>
      rw [unpPoint_masked hb hp, unpPoint_masked hb' (hp'.trans hp)]
      exact congrArg _ (nextPoint_setIbuf _ _ _ m (writeOut i nullEntry s))
    | true =>
      rcases Nat.lt_or_ge (8 * s.prm.dataLen.toNat) (c + s.prm.width.toNat) with hd | hd
      · rw [unpPoint_past_data hb hp hd]
        exact unpPoint_past_data hb' (hp'.trans hp) hd
      · have hr' := h.readBits hd
        cases hr : Machine.readBits s s.prm.dataAddr.toNat c s.prm.width.toNat with
        | error f =>
          rw [unpPoint_data_stop hb hp hd hr]
          exact unpPoint_data_stop hb' (hp'.trans hp) hd (hr'.trans hr)
        | ok raw =>
          rw [unpPoint_present hb hp hd hr, unpPoint_present hb' (hp'.trans hp) hd (hr'.trans hr)]
          exact congrArg _ (nextPoint_setIbuf _ _ _ m (warnNonfinite _ (writeOut i _ s)))

/-- Settles O54: the step on the other memory is the same step. -/
theorem pointReadsOnlySpans : Obligations.PointReadsOnlySpans := by
  intro s m i c k hdata hbmp
  have hstep := SameSpans.unpPoint ⟨hdata, hbmp⟩ i c k
  exact ⟨fun t ht => by rw [hstep, ht]; rfl, fun f hf => by rw [hstep, hf]; rfl⟩

/-! ### The counting law (R184, R191, R202) -/

/-- `o` is the result of point `i` of the UNPACK accepted in `s`: null for a masked point, and for the `j`-th present
one the codeword at bit `W * j` and its scaled value. -/
structure PointDone (s : State) (i : Nat) (o : Option OutEntry) : Prop where
  masked : isPresent s i = false → o = some nullEntry
  present : isPresent s i = true → ∃ raw,
    readBits s s.prm.dataAddr.toNat (s.prm.width.toNat * presentBefore s i) s.prm.width.toNat = .ok raw ∧
      o = some { present := true, value := pointValue s raw, raw := BitVec.ofNat 32 raw }

/-- The points below `i` of the UNPACK accepted in `s` are done in `u`, and no other entry is written. -/
structure PointsDone (s : State) (i : Nat) (u : State) : Prop where
  par : u.par = s.par
  prm : u.prm = s.prm
  ibuf : u.ibuf = s.ibuf
  bufLen : u.bufLen = s.bufLen
  no_fault : u.status.err = false
  done : ∀ j, j < i → PointDone s j (Cells.read u.obuf j)
  rest : ∀ j, i ≤ j → Cells.read u.obuf j = Cells.read s.obuf j

/-- The result of point `i` written to its entry. -/
theorem PointsDone.writeOut {u : State} {o : OutEntry} (h : PointsDone s i u) (ho : PointDone s i (some o)) :
    PointsDone s (i + 1) (writeOut i o u) :=
  { h with
    done := fun j hj => by
      rw [writeOut_obuf]
      rcases Nat.lt_succ_iff_lt_or_eq.1 hj with hlt | rfl
      · rw [Cells.read_write_other _ _ hlt.ne]; exact h.done j hlt
      · rw [Cells.read_write_same]; exact ho
    rest := fun j hj =>
      (Cells.read_write_other _ _ (Nat.ne_of_gt hj)).trans (h.rest j (Nat.le_of_succ_le hj)) }

theorem PointsDone.pointPresent {u : State} (h : PointsDone s i u) (j : Nat) :
    Machine.pointPresent u j = Machine.pointPresent s j := by
  rw [Machine.pointPresent, Machine.pointPresent, h.prm, bitAt_congr h.ibuf h.bufLen]

theorem PointsDone.pointValue {u : State} (h : PointsDone s i u) (raw : Nat) :
    Machine.pointValue u raw = Machine.pointValue s raw := by
  rw [Machine.pointValue, Machine.pointValue, h.prm, h.par]

theorem presentBefore_mono (s : State) : Monotone (presentBefore s) :=
  monotone_nat_of_le_succ fun i => by rw [presentBefore_succ]; exact Nat.le_add_right _ _

/-- The conditions of the counting law on the buffers: every byte of the valid buffer is written, the bitmap has a bit
for every point, and the data span holds a codeword for every present point (R202). -/
structure UnpackReadable (s : State) : Prop where
  written : Written s
  data_inside : s.prm.dataAddr.toNat + s.prm.dataLen.toNat ≤ s.bufLen.toNat
  bitmap : s.prm.bmpEn = true → s.prm.bmpAddr.toNat + s.prm.bmpLen.toNat ≤ s.bufLen.toNat ∧
    s.prm.npts.toNat ≤ 8 * s.prm.bmpLen.toNat
  fits : s.prm.width.toNat * presentBefore s s.prm.npts.toNat ≤ 8 * s.prm.dataLen.toNat

section Counting

variable (h : UnpackReadable s) (hi : i < s.prm.npts.toNat)
include h hi

theorem UnpackReadable.inBitmap : InBitmap s i := fun hen => hi.trans_le (h.bitmap hen).2

/-- The bit of every point can be read. -/
theorem UnpackReadable.pointPresent : Machine.pointPresent s i = .ok (isPresent s i) := by
  cases hp : Machine.pointPresent s i with
  | ok b => rw [isPresent, hp]
  | error f =>
    exfalso
    unfold Machine.pointPresent at hp
    split at hp
    · next hen =>
      obtain ⟨hin, hbits⟩ := h.bitmap hen
      obtain ⟨b, hb⟩ := readByte_of_written h.written (a := s.prm.bmpAddr.toNat + i / 8) (by omega)
      cases hb.symm.trans (bitAt_error hp)
    · cases hp

theorem UnpackReadable.cursor_le :
    s.prm.width.toNat * presentBefore s (i + 1) ≤ 8 * s.prm.dataLen.toNat :=
  (Nat.mul_le_mul_left _ (presentBefore_mono s hi)).trans h.fits

variable (hp : isPresent s i = true)
include hp

theorem UnpackReadable.codeword_inside :
    s.prm.width.toNat * presentBefore s i + s.prm.width.toNat ≤ 8 * s.prm.dataLen.toNat := by
  have hle := h.cursor_le hi
  rwa [presentBefore_succ, hp, Nat.mul_add, Bool.toNat_true, Nat.mul_one] at hle

/-- The codeword of every present point can be read. -/
theorem UnpackReadable.readBits : ∃ raw,
    Machine.readBits s s.prm.dataAddr.toNat (s.prm.width.toNat * presentBefore s i) s.prm.width.toNat = .ok raw := by
  have hfit := h.codeword_inside hi hp
  have hdata := h.data_inside
  cases hr : Machine.readBits s s.prm.dataAddr.toNat (s.prm.width.toNat * presentBefore s i) s.prm.width.toNat with
  | ok raw => exact ⟨raw, rfl⟩
  | error f =>
    obtain ⟨j, hj, he⟩ := bitsFrom_error hr
    obtain ⟨b, hb⟩ := readByte_of_written h.written
      (a := s.prm.dataAddr.toNat + (s.prm.width.toNat * presentBefore s i + j) / 8) (by omega)
    cases hb.symm.trans he

end Counting

/-- The cursor and the codeword count at a point are those of the present points before it: a point step does point `i`
and goes on to the next (R202). -/
theorem PointsDone.step {u : State} (h : PointsDone s i u) (hs : UnpackReadable s) (hi : i < s.prm.npts.toNat)
    (he : u.estate = .unp i (s.prm.width.toNat * presentBefore s i) (presentBefore s i)) :
    ∃ v, PointsDone s (i + 1) v ∧ engineStep u = .next
      (nextPoint (i + 1) (s.prm.width.toNat * presentBefore s (i + 1)) (presentBefore s (i + 1)) v) := by
  have hb : InBitmap u i := by rw [InBitmap, h.prm]; exact hs.inBitmap hi
  have hread := (h.pointPresent i).trans (hs.pointPresent hi)
  rw [engineStep_unp he, presentBefore_succ]
  cases hp : isPresent s i with
  | false =>
    rw [hp] at hread
    have hdone : PointDone s i (some nullEntry) := ⟨fun _ => rfl, fun hp' => by rw [hp] at hp'; cases hp'⟩
    exact ⟨_, h.writeOut hdone, unpPoint_masked hb hread⟩
  | true =>
    rw [hp] at hread
    obtain ⟨raw, hraw⟩ := hs.readBits hi hp
    have hfit := hs.codeword_inside hi hp
    have hdone : PointDone s i
        (some { present := true, value := Machine.pointValue u raw, raw := BitVec.ofNat 32 raw }) :=
      ⟨fun hp' => (by rw [hp] at hp'; cases hp'), fun _ => ⟨raw, hraw, by rw [h.pointValue]⟩⟩
    have hraw' := (bitsFrom_congr h.ibuf h.bufLen _ 0 _ _).trans hraw
    rw [← h.prm] at hfit hraw'
    refine ⟨warnNonfinite (nonFinite (Machine.pointValue u raw)) (Machine.writeOut i _ u),
      { h.writeOut hdone with }, ?_⟩
    rw [← h.prm, unpPoint_present hb hread hfit hraw']
    rfl

/-- From point `i` the remaining points are done in one step each. -/
theorem PointsDone.run {r : Nat} {u : State} (h : PointsDone s i u) (hs : UnpackReadable s)
    (hr : i + r = s.prm.npts.toNat) :
    ∃ v, PointsDone s s.prm.npts.toNat v ∧
      engineRun r (nextPoint i (s.prm.width.toNat * presentBefore s i) (presentBefore s i) u) =
        .next (publishOutput (setProgress s.prm.npts.toNat
          (s.prm.width.toNat * presentBefore s s.prm.npts.toNat) (presentBefore s s.prm.npts.toNat) v)) := by
  induction r generalizing i u with
  | zero =>
    obtain rfl : i = s.prm.npts.toNat := hr
    refine ⟨u, h, ?_⟩
    rw [nextPoint, h.prm, if_pos rfl]
    rfl
  | succ r ih =>
    have hi : i < s.prm.npts.toNat := by omega
    have hgo : i ≠ u.prm.npts.toNat := by rw [h.prm]; exact hi.ne
    rw [nextPoint, if_neg hgo]
    obtain ⟨v, hv, hstep⟩ :=
      PointsDone.step (u := { setProgress i _ _ u with estate := .unp i _ _ }) { h with } hs hi rfl
    rw [engineRun_succ_of_next hstep]
    exact ih hv (by omega)

/-- The start step of an accepted UNPACK whose checks pass. -/
theorem engineStep_unpack_passes (he : s.estate = .start (encode .unpack)) (ht : s.prm.drt = 0#16)
    (hw : s.prm.width.toNat ≤ 32) (hn : s.prm.npts.toNat ≤ s.par.outMax)
    (hd : s.prm.dataAddr.toNat + s.prm.dataLen.toNat ≤ s.bufLen.toNat)
    (hb : s.prm.bmpEn = true → s.prm.bmpAddr.toNat + s.prm.bmpLen.toNat ≤ s.bufLen.toNat) :
    engineStep s = .next (nextPoint 0 0 0 (dropOutput s)) := by
  have hexec : engineStep s = execUnpack s := engineStep_start he (decode_encode .unpack)
  rw [hexec]
  rcases execUnpack_cases s with ⟨h, -⟩ | ⟨-, h, -⟩ | ⟨-, -, h, -⟩ | ⟨-, -, -, h, -⟩ | ⟨-, -, -, -, hen, h, -⟩ |
    ⟨-, -, -, -, -, e⟩
  · exact absurd ht h
  · exact absurd hw (Nat.not_le.2 h)
  · exact absurd hn (Nat.not_le.2 h)
  · exact absurd hd (Nat.not_le.2 h)
  · exact absurd (hb hen) (Nat.not_le.2 h)
  · exact e

/-- Settles O52: the point steps do the points in order, and the last completes UNPACK. -/
theorem unpackCounting : Obligations.UnpackCounting := by
  intro s h hwr he ht hw hn hd hb hfit
  have hs : UnpackReadable s := ⟨hwr, hd, hb, hfit⟩
  obtain ⟨-, -, herr, -⟩ := h.engine.running (by rw [he]; nofun)
  have hfirst : PointsDone s 0 (dropOutput s) := ⟨rfl, rfl, rfl, rfl, herr, nofun, fun _ _ => rfl⟩
  obtain ⟨v, hv, hrun⟩ := hfirst.run hs (Nat.zero_add _)
  have hstart := engineStep_unpack_passes he ht hw hn hd fun hen => (hb hen).1
  have hcount : presentBefore s s.prm.npts.toNat ≤ 2 ^ 26 :=
    (presentBefore_le s _).trans (hn.trans (outMax_bounds h.buffers.params).2)
  have hcursor : s.prm.width.toNat * presentBefore s s.prm.npts.toNat < 2 ^ 32 :=
    (Nat.mul_le_mul hw hcount).trans_lt (by decide)
  refine ⟨_, (engineRun_succ_of_next hstart _).trans hrun, rfl, hv.no_fault, rfl, rfl, congrArg ParamFile.npts hv.prm,
    BitVec.ofNat_toNat .., Nat.mod_eq_of_lt (hcount.trans_lt (by decide)), Nat.mod_eq_of_lt hcursor,
    fun i hi => (hv.done i hi).masked, fun i hi => (hv.done i hi).present, hv.rest⟩

/-! ### Runs that end in a fault (R206) -/

/-- No result is valid, and no entry of OBUF from `i` up has changed since `s` (R183, R206). -/
structure NoOutput (s : State) (i : Nat) (t : State) : Prop where
  invalid : t.status.outValid = false
  count : t.prog.outCount = 0#32
  rest : ∀ j, i ≤ j → Cells.read t.obuf j = Cells.read s.obuf j

/-- Where the UNPACK accepted in `s` stands in `t`. -/
inductive UnpackStage (s t : State) : Prop where
  | start : t.estate = .start (encode .unpack) → t.obuf = s.obuf → UnpackStage s t
  | point {i c k : Nat} : t.estate = .unp i c k → NoOutput s i t → UnpackStage s t
  | fault : t.estate = .idle → NoOutput s t.prog.idx.toNat t → UnpackStage s t
  | done : t.estate = .idle → t.status.done = true → UnpackStage s t

theorem UnpackStage.nextPoint {u : State} (h : NoOutput s i u) (c k : Nat) : UnpackStage s (nextPoint i c k u) := by
  rcases nextPoint_cases i c k u with ⟨-, e⟩ | ⟨-, e⟩ <;> rw [e]
  · exact .done rfl rfl
  · exact .point rfl { h with }

/-- A result written to entry `i` leaves the entries above it. -/
theorem NoOutput.writeOut {u : State} (h : NoOutput s i u) (o : OutEntry) : NoOutput s (i + 1) (writeOut i o u) :=
  { h with
    rest := fun j hj =>
      (Cells.read_write_other _ _ (Nat.ne_of_gt hj)).trans (h.rest j (Nat.le_of_succ_le hj)) }

/-- An engine step takes UNPACK to its next stage. -/
theorem UnpackStage.step {u v : State} (h : UnpackStage s u) (hinv : BlockInv u) (hs : engineStep u = .next v) :
    UnpackStage s v := by
  cases h with
  | start he hobuf =>
    have hnone (i : Nat) : NoOutput s i (dropOutput u) := ⟨rfl, rfl, fun _ _ => congrArg (Cells.read · _) hobuf⟩
    have hexec : engineStep u = execUnpack u := engineStep_start he (decode_encode .unpack)
    rw [hexec] at hs
    rcases execUnpack_cases u with ⟨-, e⟩ | ⟨-, -, e⟩ | ⟨-, -, -, e⟩ | ⟨-, -, -, -, e⟩ | ⟨-, -, -, -, -, -, e⟩ |
      ⟨-, -, -, -, -, e⟩ <;> rw [e] at hs <;> rw [next_inj hs]
    case inr.inr.inr.inr.inr => exact .nextPoint (hnone 0) 0 0
    all_goals exact .fault rfl { hnone _ with }
  | @point i c k he hno =>
    have hidx : u.prog.idx.toNat = i := by
      obtain ⟨-, -, -, -, -, -, -, hidx, -⟩ := hinv.unpack.running i c k he
      exact hidx
    have hfault (e : ErrCode) (info : Word) : UnpackStage s (raise (opcodeByte .unpack) e info u) :=
      .fault rfl (by rw [raise_prog, hidx]; exact { hno with })
    rw [engineStep_unp he] at hs
    rcases unpPoint_cases i c k u with ⟨-, -, e⟩ | ⟨-, ⟨f, -, -, e⟩ | ⟨-, e⟩ | ⟨-, ⟨-, e⟩ |
      ⟨-, ⟨f, j, -, -, e⟩ | ⟨raw, -, e⟩⟩⟩⟩ <;> rw [e] at hs
    · rw [next_inj hs]; exact hfault _ _
    · cases hs
    · rw [next_inj hs]; exact .nextPoint (hno.writeOut _) c k
    · rw [next_inj hs]; exact hfault _ _
    · cases hs
    · rw [next_inj hs]; exact .nextPoint (u := warnNonfinite _ (writeOut i _ u)) { hno.writeOut _ with } _ _
  | fault hidle hno =>
    rw [engineStep_idle hidle] at hs
    rw [next_inj hs]
    exact .fault hidle hno
  | done hidle hd =>
    rw [engineStep_idle hidle] at hs
    rw [next_inj hs]
    exact .done hidle hd

/-- Settles O53: an idle UNPACK with ERR = 1 is at the fault stage, since a completed one has DONE = 1. -/
theorem unpackFaultNoOutput : Obligations.UnpackFaultNoOutput := by
  intro s t k h he hrun hidle herr
  obtain ⟨hinv, hstage⟩ : BlockInv t ∧ UnpackStage s t :=
    engineRun_keeps (P := fun u => BlockInv u ∧ UnpackStage s u)
      (fun u v hu hs => ⟨hu.1.of_engineForm (engineForm_of_next hs), hu.2.step hu.1 hs⟩) ⟨h, .start he rfl⟩ hrun
  cases hstage with
  | start he' => cases he'.symm.trans hidle
  | point he' => cases he'.symm.trans hidle
  | fault _ hno => exact ⟨hno.invalid, hno.count, hno.rest⟩
  | done _ hd => cases hd.symm.trans (hinv.engine.err_idle herr).2

end Sys2Proof.Machine

/-! PROOFS. The arithmetic of SCALE (42_unpacker.md R191 to R200): `fl64` of a value that binary64 can hold is that
value, so 2^E, the small powers of ten and `widen` are exact; the one NaN; and the corner values of SCALE. -/
namespace Sys2Proof.Machine

/-! ### What `fl64` gives (R11) -/

theorem fl64_msb (neg : Bool) (num den : Nat) : (fl64 neg num den).msb = neg := signed64_msb neg (roundMag_lt num den)

/-- A value is that of a finite pattern, whose sign is the sign bit. -/
theorem unpack64_of_ratValue {b : B64} {z : ℚ} (h : ratValue b = some z) : ∃ m e, unpack64 b = .fin b.msb m e := by
  cases hu : unpack64 b with
  | nan => rw [ratValue_nan hu] at h; cases h
  | inf g => rw [ratValue_inf hu] at h; cases h
  | fin g m e => rw [unpack64_sign hu]; exact ⟨m, e, rfl⟩

/-- Above half the smallest subnormal `fl64` does not round to 0. -/
theorem RoundsTo.sig_ne_zero {x : ℚ} {e : ℤ} {q : ℕ} (h : RoundsTo x e q) (hx : (2 : ℚ) ^ (-1075 : ℤ) < x) : q ≠ 0 := by
  rintro rfl
  have he : e = -1074 := by
    by_contra hne
    exact absurd (h.sig_ge hne) (by decide)
  subst he
  have hhalf := (abs_le.1 h.half).2
  rw [Nat.cast_zero, sub_zero, div_le_iff₀ (zpow_pos two_pos _), show (-1074 : ℤ) = -1075 + 1 from rfl,
    zpow_add_one₀ two_ne_zero] at hhalf
  linarith

section
variable {num den : Nat} (hd : 0 < den)
include hd

/-- Below the overflow threshold `fl64` is the value of the rounded significand. -/
theorem fl64_value (neg : Bool) (hlt : (num : ℚ) / den < 2 ^ 1024 - 2 ^ 970) :
    ∃ e q, RoundsTo ((num : ℚ) / den) e q ∧
      ratValue (fl64 neg num den) = some ((if neg then -1 else 1) * ((q : ℚ) * 2 ^ e)) := by
  obtain ⟨e, q, hr, hmag⟩ := roundMag_roundsTo num hd
  have hfin := not_le.1 (mt hr.overflow_iff.1 (not_le.2 hlt))
  refine ⟨e, q, hr, ?_⟩
  rw [fl64, hmag, min_eq_left hfin.le]
  exact ratValue_mag neg hr.exp_ge hr.sig_le hr.sig_ge hfin

/-- A value with a significand of 53 bits and no bit below 2^-1074 is not rounded. -/
theorem fl64_exact (neg : Bool) (hlt : (num : ℚ) / den < 2 ^ 1024 - 2 ^ 970) {n : Nat} {f : ℤ}
    (hx : (num : ℚ) / den = n * 2 ^ f) (hn : n < 2 ^ 53) (hf : -1074 ≤ f) :
    ratValue (fl64 neg num den) = some ((if neg then -1 else 1) * ((n : ℚ) * 2 ^ f)) := by
  obtain ⟨e, q, hr, hv⟩ := fl64_value hd neg hlt
  have hnear := (hr.nearest (n := n) (by rw [Nat.abs_cast]; exact_mod_cast hn) hf).1
  rw [hx, Int.cast_natCast, sub_self, abs_zero, abs_nonpos_iff, sub_eq_zero] at hnear
  rw [hv, hnear]

/-- Below the overflow threshold `fl64` is finite with the sign asked for, and it is no zero above half the smallest
subnormal. -/
theorem fl64_finite (neg : Bool) (hlt : (num : ℚ) / den < 2 ^ 1024 - 2 ^ 970) :
    ∃ m e, unpack64 (fl64 neg num den) = .fin neg m e ∧ ((2 : ℚ) ^ (-1075 : ℤ) < (num : ℚ) / den → m ≠ 0) := by
  obtain ⟨e, q, hr, hv⟩ := fl64_value hd neg hlt
  obtain ⟨m, f, hu⟩ := unpack64_of_ratValue hv
  rw [fl64_msb] at hu
  refine ⟨m, f, hu, ?_⟩
  rintro hx rfl
  have hz := eq_of_ratValue hu hv
  have hsign : (if neg then -1 else 1 : ℚ) ≠ 0 := by cases neg <;> simp
  rw [Nat.cast_zero, zero_mul, mul_zero, mul_eq_zero, mul_eq_zero, Nat.cast_eq_zero] at hz
  rcases hz with hz | hz | hz
  · exact hsign hz
  · exact hr.sig_ne_zero hx hz
  · exact (zpow_pos two_pos e).ne' hz

/-- `fl64` is the infinity of its sign or a finite value of its sign. -/
theorem fl64_cases (neg : Bool) :
    unpack64 (fl64 neg num den) = .inf neg ∨
      ∃ m e, unpack64 (fl64 neg num den) = .fin neg m e ∧ ((2 : ℚ) ^ (-1075 : ℤ) < (num : ℚ) / den → m ≠ 0) := by
  obtain ⟨-, ⟨hinf, -⟩ | ⟨hlt, -⟩⟩ := fl64Nearest neg num den hd
  · exact .inl hinf
  · exact .inr (fl64_finite hd neg hlt)

end

/-- The largest power of two is below the overflow threshold. -/
theorem lt_overflow_of_le {x : ℚ} (h : x ≤ 2 ^ (1023 : ℤ)) : x < 2 ^ 1024 - 2 ^ 970 := by
  refine h.trans_lt ?_
  rw [overflow_threshold, ← show 2 ^ 53 * (2 : ℚ) ^ (970 : ℤ) = 2 ^ (1023 : ℤ) from two_pow_mul_zpow 53 970]
  exact mul_lt_mul_of_pos_right (by norm_num) (zpow_pos two_pos _)

/-- The rational that `flScaled` rounds. -/
theorem flScaled_quotient (m : Nat) (e : ℤ) :
    ((m * 2 ^ e.toNat : Nat) : ℚ) / ((2 ^ (-e).toNat : Nat) : ℚ) = m * 2 ^ e := by
  have h := scaled_quotient m 1 (-e) Nat.one_pos
  rwa [neg_neg, Nat.one_mul, Nat.cast_one, div_one, zpow_neg, div_inv_eq_mul] at h

theorem flScaled_exact (neg : Bool) {m : Nat} {e : ℤ} (hm : m < 2 ^ 53) (he : -1074 ≤ e)
    (hle : (m : ℚ) * 2 ^ e ≤ 2 ^ (1023 : ℤ)) :
    ratValue (flScaled neg m e) = some ((if neg then -1 else 1) * ((m : ℚ) * 2 ^ e)) :=
  fl64_exact (Nat.two_pow_pos _) neg (by rw [flScaled_quotient]; exact lt_overflow_of_le hle) (flScaled_quotient m e)
    hm he

/-! ### Powers of two (R193) -/

theorem pow2of_inf {e : ℤ} (h : 1024 ≤ e) : pow2of e = inf64 false := if_pos h

theorem pow2of_zero {e : ℤ} (h : e ≤ -1075) : pow2of e = zero64 false := by
  rw [pow2of, if_neg (by omega), if_pos h]

theorem pow2of_scaled {e : ℤ} (hlo : -1074 ≤ e) (hhi : e ≤ 1023) : pow2of e = flScaled false 1 e := by
  rw [pow2of, if_neg (by omega), if_neg (by omega)]

theorem pow2of_exact {e : ℤ} (hlo : -1074 ≤ e) (hhi : e ≤ 1023) : ratValue (pow2of e) = some ((2 : ℚ) ^ e) := by
  have hv := flScaled_exact false (m := 1) (by norm_num) hlo
    (by rw [Nat.cast_one, one_mul]; exact zpow_le_zpow_right₀ one_le_two hhi)
  rwa [Nat.cast_one, one_mul, if_neg Bool.false_ne_true, one_mul, ← pow2of_scaled hlo hhi] at hv

/-- Settles O56: the power is exact where binary64 holds it, and the two other ranges are the definition's. -/
theorem powerOfTwo : Obligations.PowerOfTwo := fun _ =>
  ⟨pow2of_exact, fun h => (pow2of_inf h).trans (by decide), fun h => (pow2of_zero h).trans (by decide)⟩

/-! ### Powers of ten (R195) -/

theorem pow10Default_inf {d : ℤ} (h : 309 ≤ d) : pow10Default d = inf64 false := if_pos h

theorem pow10Default_zero {d : ℤ} (h : d ≤ -324) : pow10Default d = zero64 false := by
  rw [pow10Default, if_neg (by omega), if_pos h]

theorem pow10Default_rounded {d : ℤ} (hlo : -323 ≤ d) (hhi : d ≤ 308) :
    pow10Default d = fl64 false (10 ^ d.toNat) (10 ^ (-d).toNat) := by
  rw [pow10Default, if_neg (by omega), if_neg (by omega)]

theorem pow10_quotient (d : ℤ) : ((10 ^ d.toNat : Nat) : ℚ) / ((10 ^ (-d).toNat : Nat) : ℚ) = 10 ^ d := by
  rcases le_total 0 d with h | h
  · obtain ⟨k, rfl⟩ := Int.eq_ofNat_of_zero_le h
    rw [show (-(k : ℤ)).toNat = 0 by omega, Int.toNat_natCast, zpow_natCast]
    simp
  · obtain ⟨k, rfl⟩ : ∃ k : ℕ, d = -(k : ℤ) := ⟨(-d).toNat, by omega⟩
    rw [show (-(k : ℤ)).toNat = 0 by omega, neg_neg, Int.toNat_natCast, zpow_neg, zpow_natCast]
    simp

/-- `10^D = 5^D * 2^D`, and 5^22 fits the significand. -/
theorem pow10Default_exact {d : ℤ} (hlo : 0 ≤ d) (hhi : d ≤ 22) : ratValue (pow10Default d) = some ((10 : ℚ) ^ d) := by
  obtain ⟨k, rfl⟩ := Int.eq_ofNat_of_zero_le hlo
  have hten : (10 : ℚ) ^ (k : ℤ) = (5 ^ k : ℕ) * 2 ^ (k : ℤ) := by
    rw [Nat.cast_pow, zpow_natCast, zpow_natCast, Nat.cast_ofNat, ← mul_pow]; norm_num
  have hfive : 5 ^ k < 2 ^ 53 := (Nat.pow_le_pow_right (by decide) (show k ≤ 22 by omega)).trans_lt (by decide)
  have hbound : (10 : ℚ) ^ (k : ℤ) ≤ 2 ^ (1023 : ℤ) :=
    calc (10 : ℚ) ^ (k : ℤ) ≤ 10 ^ (22 : ℤ) := zpow_le_zpow_right₀ (by norm_num) hhi
      _ ≤ 2 ^ (74 : ℤ) := by norm_num
      _ ≤ 2 ^ (1023 : ℤ) := zpow_le_zpow_right₀ one_le_two (by norm_num)
  have hq := pow10_quotient k
  have hv := fl64_exact (Nat.pow_pos (by decide)) false (by rw [hq]; exact lt_overflow_of_le hbound) (hq.trans hten)
    hfive (by omega)
  rw [if_neg Bool.false_ne_true, one_mul, ← hten] at hv
  rw [pow10Default_rounded (by omega) (by omega), hv]

/-- Settles O57: as for 2^E. -/
theorem powerOfTen : Obligations.PowerOfTen := fun _ =>
  ⟨pow10Default_exact, fun h => (pow10Default_inf h).trans (by decide),
    fun h => (pow10Default_zero h).trans (by decide)⟩

/-! ### `widen` (R192) -/

theorem unpack_canonNaN : unpack64 canonNaN = .nan := by decide

/-- A finite binary32 value has a significand of 24 bits and an exponent from -149 to 104. -/
theorem unpack32_bounds {p : Word} {neg : Bool} {m : Nat} {e : ℤ} (h : unpack32 p = .fin neg m e) :
    m < 2 ^ 24 ∧ -149 ≤ e ∧ e ≤ 104 := by
  have hexp : (p.extractLsb' 23 8).toNat < 2 ^ 8 := BitVec.isLt _
  have hfrac : (p.extractLsb' 0 23).toNat < 2 ^ 23 := BitVec.isLt _
  simp only [unpack32] at h
  generalize (p.extractLsb' 23 8).toNat = x at h hexp
  generalize (p.extractLsb' 0 23).toNat = f at h hfrac
  split at h
  · split at h <;> cases h
  · split at h <;> (obtain ⟨-, rfl, rfl⟩ := FVal.fin.inj h; omega)

theorem widen_nan {p : Word} (h : unpack32 p = .nan) : widen p = canonNaN := by rw [widen, h]

theorem widen_inf {p : Word} {neg : Bool} (h : unpack32 p = .inf neg) : widen p = inf64 neg := by rw [widen, h]

theorem widen_fin {p : Word} {neg : Bool} {m : Nat} {e : ℤ} (h : unpack32 p = .fin neg m e) :
    widen p = flScaled neg m e := by rw [widen, h]

theorem widen_exact {p : Word} {neg : Bool} {m : Nat} {e : ℤ} (h : unpack32 p = .fin neg m e) :
    ratValue (widen p) = some ((if neg then -1 else 1) * ((m : ℚ) * 2 ^ e)) := by
  obtain ⟨hm, hlo, hhi⟩ := unpack32_bounds h
  rw [widen_fin h]
  refine flScaled_exact neg (hm.trans (by norm_num)) (by omega) ?_
  have hm' : (m : ℚ) ≤ 2 ^ 24 := by exact_mod_cast hm.le
  calc (m : ℚ) * 2 ^ e ≤ 2 ^ 24 * 2 ^ e := mul_le_mul_of_nonneg_right hm' (zpow_pos two_pos e).le
    _ = 2 ^ (24 + e) := two_pow_mul_zpow 24 e
    _ ≤ 2 ^ (1023 : ℤ) := zpow_le_zpow_right₀ one_le_two (by omega)

/-- Settles O58: by the three kinds of binary32 value. -/
theorem widenExact : Obligations.WidenExact := by
  intro p
  cases h : unpack32 p with
  | nan => rw [widen_nan h]; exact unpack_canonNaN
  | inf neg => rw [widen_inf h]; exact unpack_inf64 neg
  | fin neg m e =>
    refine ⟨?_, by rw [widen_fin h]; exact fl64_msb ..⟩
    rw [widen_exact h, mul_assoc]

/-! ### The one NaN (R197) -/

theorem canon_of_nan {o : B64} (h : unpack64 o = .nan) : canon o = canonNaN := by
  rw [canon, isNaN64, h]; rfl

theorem canon_of_not_nan {o : B64} (h : unpack64 o ≠ .nan) : canon o = o := by
  rw [canon, isNaN64, beq_false_of_ne h]; rfl

theorem canon_eq_canonNaN {o : B64} (h : unpack64 (canon o) = .nan) : canon o = canonNaN := by
  by_cases ho : unpack64 o = .nan
  · exact canon_of_nan ho
  · rw [canon_of_not_nan ho] at h; exact absurd h ho

/-- Settles O59: SCALE ends with `canon`. -/
theorem canonicalNaN : Obligations.CanonicalNaN :=
  ⟨fun _ => ⟨canon_of_nan, canon_of_not_nan⟩, fun _ _ _ _ _ => canon_eq_canonNaN⟩

/-! ### The IEEE-754 operations on operands of known kind (R193 to R195) -/

section Operations

variable {x y : B64} {a b : Bool} {m n : Nat} {e f : ℤ}

theorem mul64_fin_fin (hx : unpack64 x = .fin a m e) (hy : unpack64 y = .fin b n f) :
    mul64 x y = flScaled (a ^^ b) (m * n) (e + f) := by simp only [mul64, hx, hy]

theorem mul64_fin_inf (hx : unpack64 x = .fin a m e) (hm : m ≠ 0) (hy : unpack64 y = .inf b) :
    mul64 x y = inf64 (a ^^ b) := by simp only [mul64, hx, hy, if_neg hm]

theorem add64_nan_left (hx : unpack64 x = .nan) : add64 x y = canonNaN := by simp only [add64, hx]

theorem add64_nan_right (hy : unpack64 y = .nan) : add64 x y = canonNaN := by
  cases hx : unpack64 x <;> simp only [add64, hx, hy]

theorem add64_inf_inf (hx : unpack64 x = .inf a) (hy : unpack64 y = .inf a) : add64 x y = inf64 a := by
  simp only [add64, hx, hy, if_true]

theorem add64_inf_fin (hx : unpack64 x = .inf a) (hy : unpack64 y = .fin b n f) : add64 x y = inf64 a := by
  simp only [add64, hx, hy]

theorem add64_fin_inf (hx : unpack64 x = .fin a m e) (hy : unpack64 y = .inf b) : add64 x y = inf64 b := by
  simp only [add64, hx, hy]

theorem div64_nan_left (hx : unpack64 x = .nan) : div64 x y = canonNaN := by simp only [div64, hx]

theorem div64_inf_inf (hx : unpack64 x = .inf a) (hy : unpack64 y = .inf b) : div64 x y = canonNaN := by
  simp only [div64, hx, hy]

theorem div64_inf_fin (hx : unpack64 x = .inf a) (hy : unpack64 y = .fin b n f) : div64 x y = inf64 (a ^^ b) := by
  simp only [div64, hx, hy]

theorem div64_fin_zero (hx : unpack64 x = .fin a m e) (hm : m ≠ 0) (hy : unpack64 y = .fin b 0 f) :
    div64 x y = inf64 (a ^^ b) := by simp only [div64, hx, hy, if_true, if_neg hm]

/-- A zero divided by a finite value that is no zero. -/
theorem div64_zero_fin (hx : unpack64 x = .fin a 0 e) (hy : unpack64 y = .fin b n f) (hn : n ≠ 0) :
    div64 x y = zero64 (a ^^ b) := by
  simp only [div64, hx, hy, if_neg hn, Nat.zero_mul]
  rfl

end Operations

theorem flScaled_zero (neg : Bool) (e : ℤ) : flScaled neg 0 e = zero64 neg := by
  rw [flScaled, Nat.zero_mul]
  rfl

theorem unpack_zero64 (neg : Bool) : unpack64 (zero64 neg) = .fin neg 0 (-1074) := by cases neg <;> decide

theorem unpack64_exp_ge {b : B64} {g : Bool} {m : Nat} {e : ℤ} (h : unpack64 b = .fin g m e) : -1074 ≤ e := by
  simp only [unpack64] at h
  generalize (b.extractLsb' 52 11).toNat = x at h
  split at h
  · split at h <;> cases h
  · split at h <;> (obtain ⟨-, -, rfl⟩ := FVal.fin.inj h; omega)

/-! ### The terms of SCALE (R193 to R195) -/

/-- A codeword is held exactly, and is a zero only if it is 0. -/
theorem raw_finite {raw : Nat} (h : raw < 2 ^ 32) :
    ∃ m e, unpack64 (fl64 false raw 1) = .fin false m e ∧ (m : ℚ) * 2 ^ e = raw ∧ (1 ≤ raw → m ≠ 0) := by
  have hle : (raw : ℚ) ≤ 2 ^ (32 : ℤ) := by exact_mod_cast h.le
  have hv := fl64_exact Nat.one_pos false (num := raw) (n := raw) (f := 0)
    (by rw [Nat.cast_one, div_one]; exact lt_overflow_of_le (hle.trans (zpow_le_zpow_right₀ one_le_two (by norm_num))))
    (by rw [Nat.cast_one, div_one, zpow_zero, mul_one]) (h.trans (by norm_num)) (by norm_num)
  obtain ⟨m, e, hu⟩ := unpack64_of_ratValue hv
  rw [fl64_msb] at hu
  have hval := (eq_of_ratValue hu hv).symm
  rw [if_neg Bool.false_ne_true, one_mul, one_mul, zpow_zero, mul_one] at hval
  refine ⟨m, e, hu, hval, ?_⟩
  rintro hraw rfl
  rw [Nat.cast_zero, zero_mul, eq_comm, Nat.cast_eq_zero] at hval
  omega

/-- `2^E` is finite up to E = 1023. -/
theorem pow2of_finite {e : ℤ} (h : e ≤ 1023) : ∃ n f, unpack64 (pow2of e) = .fin false n f := by
  rcases le_or_gt e (-1075) with hlo | hlo
  · exact ⟨0, -1074, by rw [pow2of_zero hlo]; exact unpack_zero64 false⟩
  · obtain ⟨n, f, hu⟩ := unpack64_of_ratValue (pow2of_exact (show -1074 ≤ e by omega) h)
    rw [pow2of_scaled (by omega) h] at hu ⊢
    rw [show (flScaled false 1 e).msb = false from fl64_msb ..] at hu
    exact ⟨n, f, hu⟩

/-- `10^D` is finite up to D = 308, and is a zero only from D = -324 down. -/
theorem pow10Default_finite {d : ℤ} (h : d ≤ 308) :
    ∃ n f, unpack64 (pow10Default d) = .fin false n f ∧ (-323 ≤ d → n ≠ 0) := by
  rcases le_or_gt d (-324) with hlo | hlo
  · exact ⟨0, -1074, by rw [pow10Default_zero hlo]; exact unpack_zero64 false, fun hlo' => by omega⟩
  · have htop : (10 : ℚ) ^ (308 : ℤ) < 2 ^ 1024 - 2 ^ 970 := by
      have hnat : 10 ^ 308 + 2 ^ 970 < 2 ^ 1024 := by decide +kernel
      have hrat : (10 : ℚ) ^ 308 + 2 ^ 970 < 2 ^ 1024 := by exact_mod_cast hnat
      exact lt_sub_iff_add_lt.2 hrat
    have hbottom : (2 : ℚ) ^ (-1075 : ℤ) < 10 ^ (-323 : ℤ) := by
      have hnat : 10 ^ 323 < 2 ^ 1075 := by decide +kernel
      have hrat : (10 : ℚ) ^ 323 < 2 ^ 1075 := by exact_mod_cast hnat
      rw [zpow_neg, zpow_neg]
      exact inv_strictAnti₀ (zpow_pos (by norm_num) _) hrat
    have hten {x y : ℤ} (hxy : x ≤ y) : (10 : ℚ) ^ x ≤ 10 ^ y := zpow_le_zpow_right₀ (by norm_num) hxy
    have hq := pow10_quotient d
    obtain ⟨n, f, hu, hn⟩ := fl64_finite (den := 10 ^ (-d).toNat) (Nat.pow_pos (by decide)) false
      (by rw [hq]; exact (hten h).trans_lt htop)
    rw [← pow10Default_rounded (by omega) h] at hu
    exact ⟨n, f, hu, fun hlo' => hn (by rw [hq]; exact hbottom.trans_le (hten hlo'))⟩

/-- Positive, the infinity included. -/
def Positive (b : B64) : Prop := unpack64 b = .inf false ∨ ∃ m e, unpack64 b = .fin false m e ∧ m ≠ 0

theorem flScaled_positive {m : Nat} {e : ℤ} (h : (2 : ℚ) ^ (-1074 : ℤ) ≤ m * 2 ^ e) :
    Positive (flScaled false m e) := by
  have hlt : (2 : ℚ) ^ (-1075 : ℤ) < m * 2 ^ e := (zpow_lt_zpow_right₀ one_lt_two (by norm_num)).trans_le h
  exact (fl64_cases (Nat.two_pow_pos _) false).imp_right fun ⟨n, f, hu, hn⟩ =>
    ⟨n, f, hu, hn (by rw [flScaled_quotient]; exact hlt)⟩

/-- A codeword that is not 0 scaled by a power of two that is not rounded to 0. -/
theorem term_positive {raw : Nat} {e : ℤ} (hraw : 1 ≤ raw) (hlt : raw < 2 ^ 32) (hlo : -1074 ≤ e) (hhi : e ≤ 1023) :
    Positive (mul64 (fl64 false raw 1) (pow2of e)) := by
  obtain ⟨m, f, hx, hm, -⟩ := raw_finite hlt
  obtain ⟨n, g, hy⟩ := pow2of_finite hhi
  have hn : (n : ℚ) * 2 ^ g = 2 ^ e := by
    have hval := eq_of_ratValue hy (pow2of_exact hlo hhi)
    rwa [if_neg Bool.false_ne_true, one_mul, eq_comm] at hval
  rw [mul64_fin_fin hx hy]
  refine flScaled_positive ?_
  have hraw' : (1 : ℚ) ≤ raw := by exact_mod_cast hraw
  calc (2 : ℚ) ^ (-1074 : ℤ) ≤ 2 ^ e := zpow_le_zpow_right₀ one_le_two hlo
    _ ≤ raw * 2 ^ e := le_mul_of_one_le_left (zpow_pos two_pos e).le hraw'
    _ = (m * 2 ^ f) * (n * 2 ^ g) := by rw [hm, hn]
    _ = (m * n : Nat) * 2 ^ (f + g) := by rw [zpow_add₀ two_ne_zero, Nat.cast_mul]; ring

theorem Positive.add64_zero {y : B64} (h : Positive y) : Positive (add64 (zero64 false) y) := by
  rcases h with hy | ⟨n, f, hy, hn⟩
  · rw [add64_fin_inf (unpack_zero64 false) hy]
    exact .inl (unpack_inf64 false)
  · have hf := unpack64_exp_ge hy
    have hpos : 0 < n * 2 ^ (f - -1074).toNat := Nat.mul_pos (Nat.pos_of_ne_zero hn) (Nat.two_pow_pos _)
    have hsum : add64 (zero64 false) y = flScaled false (n * 2 ^ (f - -1074).toNat) (-1074) := by
      have ht : signedInt false 0 * 2 ^ ((-1074 : ℤ) - -1074).toNat + signedInt false n * 2 ^ (f - -1074).toNat =
          ((n * 2 ^ (f - -1074).toNat : Nat) : ℤ) := by simp [signedInt]
      have hpos' : (0 : ℤ) < ((n * 2 ^ (f - -1074).toNat : Nat) : ℤ) := by exact_mod_cast hpos
      simp only [add64, unpack_zero64, hy, min_eq_left hf, ht, if_neg hpos'.ne', decide_eq_false hpos'.not_gt,
        Int.natAbs_natCast]
    rw [hsum]
    refine flScaled_positive (le_mul_of_one_le_left (zpow_pos two_pos _).le ?_)
    exact_mod_cast hpos

theorem Positive.div64_zero {x : B64} (h : Positive x) : div64 x (zero64 false) = inf64 false := by
  rcases h with hx | ⟨m, e, hx, hm⟩
  · exact (div64_inf_fin hx (unpack_zero64 false) :)
  · exact (div64_fin_zero hx hm (unpack_zero64 false) :)

/-! ### SCALE with the default parameter functions (R191, R200) -/

/-- `R + raw * 2^E`, the numerator of SCALE (R194). -/
def scaleSum (ref : Word) (e : ℤ) (raw : Nat) : B64 := add64 (widen ref) (mul64 (fl64 false raw 1) (pow2of e))

section Sum

variable {ref : Word} {e : ℤ} {raw : Nat}

theorem scaleSum_nan_ref (h : unpack32 ref = .nan) : scaleSum ref e raw = canonNaN :=
  add64_nan_left (by rw [widen_nan h]; exact unpack_canonNaN)

/-- `0 * infinity` is NaN. -/
theorem scaleSum_zero_raw_inf (he : 1024 ≤ e) : scaleSum ref e 0 = canonNaN := by
  refine add64_nan_right ?_
  rw [pow2of_inf he]
  decide +kernel

theorem scaleSum_inf_scale (hraw : 1 ≤ raw) (hlt : raw < 2 ^ 32) (he : 1024 ≤ e)
    (href : ∃ neg m x, unpack32 ref = .fin neg m x) : scaleSum ref e raw = inf64 false := by
  obtain ⟨neg, m, x, href⟩ := href
  obtain ⟨k, f, hu, -, hk⟩ := raw_finite hlt
  obtain ⟨n, g, hw⟩ := unpack64_of_ratValue (widen_exact href)
  rw [scaleSum, pow2of_inf he, mul64_fin_inf hu (hk hraw) (unpack_inf64 false)]
  exact add64_fin_inf hw (unpack_inf64 false)

/-- The scaled codeword has sign 0, so it is not the opposite infinity. -/
theorem scaleSum_inf_ref (hlt : raw < 2 ^ 32) (he : e ≤ 1023) : scaleSum 0x7F800000#32 e raw = inf64 false := by
  obtain ⟨k, f, hu, -, -⟩ := raw_finite hlt
  obtain ⟨n, g, hy⟩ := pow2of_finite he
  have hw : unpack64 (widen 0x7F800000#32) = .inf false := by decide
  rw [scaleSum, mul64_fin_fin hu hy]
  rcases fl64_cases (Nat.two_pow_pos _) (false ^^ false) with ht | ⟨m, x, ht, -⟩
  · exact add64_inf_inf hw ht
  · exact add64_inf_fin hw ht

theorem scaleSum_zero (he : e ≤ 1023) (href : ref = 0#32 ∨ ref = 0x80000000#32) : scaleSum ref e 0 = zero64 false := by
  obtain ⟨n, g, hy⟩ := pow2of_finite he
  have hterm : mul64 (fl64 false 0 1) (pow2of e) = zero64 false := by
    rw [show fl64 false 0 1 = zero64 false from rfl, mul64_fin_fin (unpack_zero64 false) hy, Nat.zero_mul]
    exact flScaled_zero _ _
  rw [scaleSum, hterm]
  rcases href with rfl | rfl <;> decide +kernel

theorem scaleSum_positive (hraw : 1 ≤ raw) (hlt : raw < 2 ^ 32) (hlo : -1074 ≤ e) (hhi : e ≤ 1023) :
    Positive (scaleSum 0#32 e raw) := by
  have hw : widen 0#32 = zero64 false := flScaled_zero _ _
  rw [scaleSum, hw]
  exact (term_positive hraw hlt hlo hhi).add64_zero

end Sum

section Default

variable {p : Params} {ref : Word} {e d : ℤ} {raw : Nat} (hp : p.pow10Diff = []) (hr : p.round4Diff = [])
include hp hr

/-- SCALE rounds the quotient of its sum by the power of ten. -/
theorem scale_eq : scale p ref e d raw = canon (round4Default (div64 (scaleSum ref e raw) (pow10Default d))) := by
  rw [scale, pow10, round4, hp, hr]
  rfl

theorem scale_of_quotient {v : B64} (h : div64 (scaleSum ref e raw) (pow10Default d) = v) :
    scale p ref e d raw = canon (round4Default v) := by rw [scale_eq hp hr, h]

theorem scale_of_sum_nan (h : scaleSum ref e raw = canonNaN) : scale p ref e d raw = canonNaN := by
  rw [scale_of_quotient hp hr (v := canonNaN) (by rw [h]; exact div64_nan_left unpack_canonNaN)]
  decide +kernel

/-- An infinite sum stays infinite, unless the power of ten is infinite too (log entry 23). -/
theorem scale_of_sum_inf (h : scaleSum ref e raw = inf64 false) :
    (d ≤ 308 → scale p ref e d raw = inf64 false) ∧ (309 ≤ d → scale p ref e d raw = canonNaN) := by
  refine ⟨fun hd => ?_, fun hd => ?_⟩
  · obtain ⟨n, f, hu, -⟩ := pow10Default_finite hd
    rw [scale_of_quotient hp hr (v := inf64 false) (by rw [h]; exact (div64_inf_fin (unpack_inf64 false) hu :))]
    decide +kernel
  · rw [scale_of_quotient hp hr (v := canonNaN)
      (by rw [h, pow10Default_inf hd]; exact div64_inf_inf (unpack_inf64 false) (unpack_inf64 false))]
    decide +kernel

theorem scale_of_sum_zero (h : scaleSum ref e raw = zero64 false) (hlo : -323 ≤ d) (hhi : d ≤ 308) :
    scale p ref e d raw = 0#64 := by
  obtain ⟨n, f, hu, hn⟩ := pow10Default_finite hhi
  rw [scale_of_quotient hp hr (v := zero64 false)
    (by rw [h]; exact (div64_zero_fin (unpack_zero64 false) hu (hn hlo) :))]
  decide +kernel

/-- A power of ten that underflows divides by zero. -/
theorem scale_of_sum_positive (h : Positive (scaleSum ref e raw)) (hd : d ≤ -324) :
    scale p ref e d raw = inf64 false := by
  rw [scale_of_quotient hp hr (v := inf64 false) (by rw [pow10Default_zero hd]; exact h.div64_zero)]
  decide +kernel

end Default

/-- Settles O60: each corner by its sum, the last three by evaluation at their literal inputs. -/
theorem scaleCorners : Obligations.ScaleCorners := by
  intro p ref e d raw hp hr hlt
  refine ⟨fun href => scale_of_sum_nan hp hr (scaleSum_nan_ref href), ?zeroInf,
    fun hraw he href => (scale_of_sum_inf hp hr (scaleSum_inf_scale hraw hlt he href)).1,
    fun hraw he href => (scale_of_sum_inf hp hr (scaleSum_inf_scale hraw hlt he href)).2,
    ?infRef, ?infRefInf, ?zero, ?negZero, ?underflow, ?overflow, ?roundedAway, ?nearOne⟩
  case zeroInf =>
    rintro rfl he
    exact scale_of_sum_nan hp hr (scaleSum_zero_raw_inf he)
  case infRef =>
    rintro rfl he
    exact (scale_of_sum_inf hp hr (scaleSum_inf_ref hlt (by omega))).1
  case infRefInf =>
    rintro rfl he
    exact (scale_of_sum_inf hp hr (scaleSum_inf_ref hlt (by omega))).2
  case zero =>
    rintro rfl href he
    exact scale_of_sum_zero hp hr (scaleSum_zero he (.inl href))
  case negZero =>
    rintro rfl href he
    exact scale_of_sum_zero hp hr (scaleSum_zero he (.inr href))
  case underflow =>
    rintro rfl rfl hd hraw
    exact scale_of_sum_positive hp hr (scaleSum_positive hraw hlt (by decide) (by decide)) hd
  case overflow =>
    rintro rfl rfl hd rfl
    rw [scale_eq hp hr, pow10Default_inf hd]
    decide +kernel
  case roundedAway =>
    rintro rfl rfl rfl rfl
    rw [scale_eq hp hr]
    decide +kernel
  case nearOne =>
    rintro rfl rfl rfl rfl
    rw [scale_eq hp hr]
    decide +kernel

end Sys2Proof.Machine

/-! PROOFS. The system command and the register actions of CTRL (43_system.md R230 to R232): NOP, the soft reset and the error
clear. -/
namespace Sys2Proof.Machine

/-! ### NOP (R230) -/

/-- Settles O35: the whole of NOP is `finish`. -/
theorem nopCompletes : Obligations.NopCompletes := fun _ => rfl

/-! ### The register part of a reset (R231, R290, R292) -/

/-- Every register reads its reset value: by `rfl`, but for the words put together from fields and the slots of the table. -/
theorem readReg_resetRegisters (s : State) (r : Reg) : readReg (resetRegisters s) r = resetWord s.par r := by
  cases r with
  | status => exact (by decide : statusWord Status.zero = 0#32)
  | irqEn => exact (by decide : irqEnWord State.reset.irqEn = 0#32)
  | s0Info => exact readReg_messageStartReset s .s0Info (by decide)
  | sectPresent => exact presentWord_messageStartReset s
  | sectAddr n | sectLen n => simp [readReg, resetRegisters, State.reset, SectTable.empty, Slot.absent, resetWord]
  | _ => rfl

/-- No term of IRQ is left (R265). -/
theorem irq_resetRegisters (s : State) : irq (resetRegisters s) = false := rfl

/-! ### A host write to CTRL (R26) -/

theorem hostAccess_write_ctrl (v : Word) (s : State) :
    hostAccess (.write .b32 0x008#32 v) s = { writeCtrl v s with resp := some .okay } :=
  hostAccess_write_reg .ctrl v s

/-- Bit 0 alone decides on the soft reset. -/
theorem writeCtrl_softReset {v : Word} (h0 : v.getLsbD 0 = true) (s : State) : writeCtrl v s = resetRegisters s :=
  if_pos h0

theorem writeCtrl_clearError {v : Word} (h0 : v.getLsbD 0 = false) (h1 : v.getLsbD 1 = true) (s : State) :
    writeCtrl v s = clearError s := by
  rw [writeCtrl, h0, h1, if_neg Bool.false_ne_true, if_pos rfl]

/-- Settles O19: the write is the register part of a reset, which keeps the buffers and the model's own fields. -/
theorem softResetRule : Obligations.SoftResetRule := by
  intro s v h0
  rw [hostAccess_write_ctrl, writeCtrl_softReset h0]
  exact ⟨rfl, readReg_resetRegisters s, rfl, rfl, irq_resetRegisters s, rfl, rfl, rfl, rfl⟩

/-- Settles O20: the write is the error clear, by whether ERR is 1. -/
theorem errorClearRule : Obligations.ErrorClearRule := by
  intro s v h0 h1
  rw [hostAccess_write_ctrl, writeCtrl_clearError h0 h1, clearError]
  split <;> rfl

end Sys2Proof.Machine

/-! PROOFS. Commands, faults and the interrupt (60_exceptions.md R251 to R265): the acceptance of a command, the step that
runs it, the warnings a faulting step leaves alone, the exits from a fault, and IRQ. -/
namespace Sys2Proof.Machine

variable {s t : State}

/-! ### Acceptance (R251) -/

/-- The drop of R80 while BUSY is the drop of R251, so the acceptance rule alone decides on a write to CMD. -/
theorem writeReg_cmd (w : Word) (s : State) : writeReg .cmd w s = issueCmd w s := by
  cases hb : s.status.busy with
  | true => simp [writeReg, droppedWhileBusy, issueCmd, hb]
  | false => exact writeReg_of_not_busy hb .cmd w

theorem hostAccess_write_cmd (w : Word) (s : State) :
    hostAccess (.write .b32 0x010#32 w) s = { issueCmd w s with resp := some .okay } := by
  rw [← writeReg_cmd]
  exact hostAccess_write_reg .cmd w s

theorem issueCmd_dropped (h : s.status.busy = true ∨ s.status.err = true) (w : Word) : issueCmd w s = dropWrite s :=
  if_pos (by simpa using h)

theorem issueCmd_accepted (hb : s.status.busy = false) (he : s.status.err = false) (w : Word) :
    issueCmd w s = accept w s :=
  if_neg (by simp [hb, he])

/-- Settles O7: a write to CMD is `issueCmd`, and an engine step from START goes by what the word decodes to. -/
theorem commandAcceptance : Obligations.CommandAcceptance := by
  intro s w
  rw [hostAccess_write_cmd]
  refine ⟨fun h => ?dropped, fun hb he => ?accepted, fun hstart =>
    ⟨fun e hd => engineStep_illegal hstart hd, fun i hd => engineStep_start hstart hd⟩⟩
  case dropped => rw [issueCmd_dropped h]; rfl
  case accepted => rw [issueCmd_accepted hb he]; rfl

/-! ### The step that runs a command (R251, R299) -/

/-- The fetch word of a command word accepts that word and lists an engine step. -/
theorem withFetchWord_toNat (w : Word) (s : State) :
    s.withFetchWord 32 w.toNat = { accept w s with moves := .engine :: s.moves } := by
  rw [State.withFetchWord, Nat.mod_eq_of_lt w.isLt, BitVec.ofNat_toNat, BitVec.setWidth_eq]

/-- Settles O5: the step is an engine step from START, and a well-formed command's word decodes to it. -/
theorem stepRunsDecodedCommand : Obligations.StepRunsDecodedCommand := by
  refine ⟨fun s w i he hd => ⟨fun hm => (step_engine hm).trans (engineStep_start he hd),
    fun rest hm => (step_engine_move hm).trans (engineStep_start he hd)⟩, fun s i hwf => ?fetched⟩
  case fetched =>
    have hd : decode (encode i) = .ok i := (decode_encode i).trans (if_pos hwf)
    rw [withFetchWord_toNat]
    exact (step_engine_move rfl).trans (engineStep_start rfl hd)

/-! ### A faulting step sets no warning (R259) -/

/-- The warning bits of STATUS agree. -/
def SameWarnings (f g : Status) : Prop :=
  f.wTrunc = g.wTrunc ∧ f.wSectnum = g.wSectnum ∧ f.wDup = g.wDup ∧ f.wNonfinite = g.wNonfinite ∧ f.wDrop = g.wDrop

/-- An engine step leaves ERR alone, or it is a fault entry, before which no warning was set. -/
theorem engineForm_err_or_sameWarnings (h : EngineForm s t) :
    t.status.err = s.status.err ∨ SameWarnings t.status s.status := by
  cases h with
  | illegal | codecFault | initFault | nextFault | splitFault | splitMagic | unpFault | headFault | pointFault =>
    exact .inr ⟨rfl, rfl, rfl, rfl, rfl⟩
  | unp => rw [nextPoint_status]; exact .inl rfl
  | masked => rw [maskedPoint, nextPoint_status]; exact .inl rfl
  | present => rw [presentPoint, nextPoint_status]; exact .inl rfl
  | take =>
    obtain ⟨a, b, hs⟩ := takeSection_status _ _ _ _ s
    rw [hs]
    exact .inl rfl
  | _ => exact .inl rfl

/-- Settles O28: a step that raises ERR has not left it alone. -/
theorem noWarningWithFault : Obligations.NoWarningWithFault := by
  intro s t hs hclear hraised
  rcases engineForm_err_or_sameWarnings (engineForm_of_next hs) with herr | hsame
  · exact absurd (hraised.symm.trans (herr.trans hclear)) nofun
  · exact hsame

/-! ### The exits from a fault (R256) -/

/-- The fault of `s`, its code and its information stand in `t`, and no command has been accepted. -/
structure FaultKept (s t : State) : Prop where
  err : t.status.err = s.status.err
  errcode : t.status.errcode = s.status.errcode
  info0 : t.errInfo0 = s.errInfo0
  info1 : t.errInfo1 = s.errInfo1
  lastCmd : t.lastCmd = s.lastCmd
  estate : t.estate = s.estate

theorem FaultKept.refl (s : State) : FaultKept s s := ⟨rfl, rfl, rfl, rfl, rfl, rfl⟩

theorem faultKept_dropWrite (s : State) : FaultKept s (dropWrite s) := ⟨rfl, rfl, rfl, rfl, rfl, rfl⟩

/-- A write of `v` to CTRL that sets neither of its two bits does nothing (R26). -/
theorem writeCtrl_of_no_bit {v : Word} (h : ¬ (v.getLsbD 0 = true ∨ v.getLsbD 1 = true)) (s : State) :
    writeCtrl v s = s := by
  obtain ⟨h0, h1⟩ := not_or.1 h
  rw [writeCtrl, if_neg h0, if_neg h1]

/-- Only CTRL's two bits clear a fault; CMD drops the command (R251). -/
theorem faultKept_writeReg (herr : s.status.err = true) {r : Reg} {v : Word}
    (h : r = .ctrl → ¬ (v.getLsbD 0 = true ∨ v.getLsbD 1 = true)) : FaultKept s (writeReg r v s) := by
  unfold writeReg
  split
  · exact faultKept_dropWrite s
  · cases r with
    | cmd => rw [storeReg, issueCmd_dropped (.inr herr)]; exact faultKept_dropWrite s
    | ctrl => rw [storeReg, writeCtrl_of_no_bit (h rfl)]; exact .refl s
    | _ => exact ⟨rfl, rfl, rfl, rfl, rfl, rfl⟩

/-- The host access is a 32-bit write to CTRL that sets one of its two bits: the error clear or the soft reset. -/
def ClearsFault (a : Access) : Prop :=
  ∃ v, a = .write .b32 0x008#32 v ∧ (v.getLsbD 0 = true ∨ v.getLsbD 1 = true)

theorem windowOf_eq_regs {p : Params} {off o : Nat} (h : windowOf p off = .regs o) : o = off := by
  unfold windowOf at h
  split at h
  · exact (Window.regs.inj h).symm
  · repeat' split at h
    all_goals cases h

/-- A legal access to CTRL is a 32-bit one at its offset. -/
theorem access_eq_ctrl {size : Size} {off : Word} {o : Nat} (hw : windowOf s.par off.toNat = .regs o)
    (hl : wordLegal size o = true) (hr : regAt o = some .ctrl) : size = .b32 ∧ off = 0x008#32 := by
  obtain ⟨hsize, -⟩ : size = .b32 ∧ o % 4 = 0 := by simpa [wordLegal] using hl
  refine ⟨hsize, BitVec.eq_of_toNat_eq ?_⟩
  rw [← windowOf_eq_regs hw, regOffset_of_regAt hr]
  rfl

theorem faultKept_writeBus (herr : s.status.err = true) {size : Size} {off v : Word}
    (h : ¬ ClearsFault (.write size off v)) : FaultKept s (writeBus s size off.toNat v).1 := by
  unfold writeBus
  cases hw : windowOf s.par off.toNat with
  | regs o =>
    dsimp only
    split
    · rename_i hl
      split
      · rename_i r hr
        refine faultKept_writeReg herr fun hctrl hbit => h ?_
        subst hctrl
        obtain ⟨rfl, rfl⟩ := access_eq_ctrl hw hl hr
        exact ⟨v, rfl, hbit⟩
      · exact .refl s
    · exact .refl s
  | obuf i w => dsimp only; split <;> exact .refl s
  | ibuf a =>
    dsimp only
    split
    · unfold writeIbuf
      split
      · exact faultKept_dropWrite s
      · exact ⟨rfl, rfl, rfl, rfl, rfl, rfl⟩
    · exact .refl s
  | reserved => exact .refl s

theorem faultKept_hostAccess (herr : s.status.err = true) {a : Access} (h : ¬ ClearsFault a) :
    FaultKept s (hostAccess a s) := by
  cases a with
  | read size off => exact { FaultKept.refl s with }
  | write size off v => exact { faultKept_writeBus herr h with }

/-- Every step from a fault keeps it, or is an access that clears it, or RESET. -/
theorem faultKept_or_exit (hidle : s.estate = .idle) (herr : s.status.err = true) (hs : step s = .next t) :
    FaultKept s t ∨ (∃ a rest, s.moves = .host a :: rest ∧ ClearsFault a) ∨ ∃ rest, s.moves = .reset :: rest := by
  cases hm : s.moves with
  | nil =>
    rw [step_engine hm, engineStep_idle hidle] at hs
    rw [next_inj hs]
    exact .inl (.refl s)
  | cons m rest =>
    cases m with
    | engine =>
      rw [step_engine_move hm, engineStep_idle (s := { s with moves := rest }) hidle] at hs
      rw [next_inj hs]
      exact .inl { FaultKept.refl s with }
    | host a =>
      by_cases hclear : ClearsFault a
      · exact .inr (.inl ⟨a, rest, rfl, hclear⟩)
      · rw [step_host_move hm] at hs
        rw [next_inj hs]
        exact .inl { faultKept_hostAccess (s := { s with moves := rest }) herr hclear with }
    | reset => exact .inr (.inr ⟨rest, rfl⟩)

/-- Settles O29: while ERR is 1 the engine is idle, so only a host access or RESET can leave the fault. -/
theorem faultIsSticky : Obligations.FaultIsSticky := by
  intro s t hinv herr hs
  obtain ⟨hidle, -⟩ := hinv.engine.err_idle herr
  rcases faultKept_or_exit hidle herr hs with hk | ⟨a, rest, hm, v, rfl, hbit⟩ | hreset
  · exact .inl ⟨hk.err.trans herr, hk.errcode, hk.info0, hk.info1, hk.lastCmd, hk.estate.trans hidle⟩
  · exact .inr (.inl ⟨v, rest, hm, hbit⟩)
  · exact .inr (.inr hreset)

/-! ### The interrupt output (R265) -/

/-- A warning is set exactly where STATUS[20:16] is not 0 (R264). -/
theorem warnings_ne_zero_iff (f : Status) : (statusWord f).extractLsb' 16 5 ≠ 0#5 ↔ anyWarning f = true := by
  have hzero : (statusWord f).extractLsb' 16 5 = 0#5 ↔ anyWarning f = false := by
    simp only [BitVec.eq_of_getLsbD_eq_iff, Nat.forall_lt_succ_right]
    simp [statusWord, anyWarning]
  rw [ne_eq, hzero, Bool.not_eq_false]

/-- The enables are the three low bits of IRQ_EN (R27). -/
theorem irqEnWord_bits (e : IrqEn) : (irqEnWord e).getLsbD 0 = e.doneIe ∧ (irqEnWord e).getLsbD 1 = e.errIe ∧
    (irqEnWord e).getLsbD 2 = e.warnIe := by
  simp [irqEnWord]

/-- Settles O10: the bits of the two words are the fields `irq` reads. -/
theorem irqOutput : Obligations.IrqOutput := by
  intro s
  obtain ⟨-, hdone, herr, -⟩ := statusLayout s.status
  obtain ⟨hdoneIe, herrIe, hwarnIe⟩ := irqEnWord_bits s.irqEn
  simp only [readReg, hdone, herr, hdoneIe, herrIe, hwarnIe, warnings_ne_zero_iff, irq, Bool.or_eq_true,
    Bool.and_eq_true, or_assoc]

end Sys2Proof.Machine

/-! PROOFS. RESET and the bounds of a run (42_unpacker.md R186; 70_reset_and_hazards.md R290 to R298): the state after RESET,
the steps of a written buffer, and the number of steps UNPACK takes. -/
namespace Sys2Proof.Machine

variable {s t : State}

/-! ### A written buffer (R295) -/

/-- Settles O26: the one stop the invariant leaves (R74) is on an unwritten byte below BUF_LEN. -/
theorem writtenBufferRuns : Obligations.WrittenBufferRuns := by
  intro s h hwr
  rcases engineReadsBelowBufLen s h with hnext | ⟨a, ha, hnone, -⟩
  · exact hnext
  · have hsome : (Cells.read s.ibuf a).isSome = true := hwr a ha
    rw [hnone] at hsome
    cases hsome

/-! ### The number of steps of UNPACK (R298) -/

/-- UNPACK has ended, or stands at point `i` of `n`. -/
def IdleOrAtPoint (n : Word) (i : Nat) (t : State) : Prop :=
  t.estate = .idle ∨ t.prm.npts = n ∧ ∃ c k, t.estate = .unp i c k

theorem idleOrAtPoint_nextPoint (i c k : Nat) (s : State) : IdleOrAtPoint s.prm.npts i (nextPoint i c k s) := by
  rcases nextPoint_cases i c k s with ⟨-, e⟩ | ⟨-, e⟩ <;> rw [e]
  · exact .inl rfl
  · exact .inr ⟨rfl, c, k, rfl⟩

/-- UNPACK's start step faults, completes or goes on to point 0. -/
theorem engineStep_unpack_next (he : s.estate = .start (encode .unpack)) (h : engineStep s = .next t) :
    IdleOrAtPoint s.prm.npts 0 t := by
  have hexec : engineStep s = execUnpack s := engineStep_start he (decode_encode .unpack)
  rw [hexec] at h
  rcases execUnpack_cases s with ⟨-, e⟩ | ⟨-, -, e⟩ | ⟨-, -, -, e⟩ | ⟨-, -, -, -, e⟩ | ⟨-, -, -, -, -, -, e⟩ |
    ⟨-, -, -, -, -, e⟩ <;> rw [e] at h <;> rw [next_inj h]
  case inr.inr.inr.inr.inr => exact idleOrAtPoint_nextPoint 0 0 0 (dropOutput s)
  all_goals exact .inl rfl

/-- A point step faults, or goes on to the next point, where UNPACK may complete. -/
theorem engineStep_unp_next {i c k : Nat} (he : s.estate = .unp i c k) (h : engineStep s = .next t) :
    IdleOrAtPoint s.prm.npts (i + 1) t := by
  rw [engineStep_unp he] at h
  rcases unpPoint_cases i c k s with ⟨-, -, e⟩ | ⟨-, ⟨f, -, -, e⟩ | ⟨-, e⟩ | ⟨-, ⟨-, e⟩ |
    ⟨-, ⟨f, j, -, -, e⟩ | ⟨raw, -, e⟩⟩⟩⟩ <;> rw [e] at h
  · rw [next_inj h]; exact .inl rfl
  · cases h
  · rw [next_inj h]; exact idleOrAtPoint_nextPoint _ _ _ (writeOut i nullEntry s)
  · rw [next_inj h]; exact .inl rfl
  · cases h
  · rw [next_inj h]; exact idleOrAtPoint_nextPoint _ _ _ (warnNonfinite _ (writeOut i _ s))

/-- Each point takes one step, and the invariant keeps the point below NPTS while UNPACK runs. -/
theorem BlockInv.pointSteps_bounded (h : BlockInv s) {n : Word} {i r : Nat} (hat : IdleOrAtPoint n i s)
    (hr : n.toNat ≤ i + r) : EndsIdleOrUnwritten (engineRun r s) := by
  induction r generalizing s i with
  | zero =>
    rcases hat with hidle | ⟨rfl, c, k, he⟩
    · exact endsIdleOrUnwritten_of_idle hidle 0
    · obtain ⟨-, hi⟩ := h.unpack.unpacking he
      omega
  | succ r ih =>
    rcases hat with hidle | ⟨rfl, c, k, he⟩
    · exact endsIdleOrUnwritten_of_idle hidle (r + 1)
    · exact h.endsIdleOrUnwritten_succ fun t hinv ht => ih hinv (engineStep_unp_next he ht) (by omega)

/-- Settles O51: one start step, then one step for each of the N points. -/
theorem unpackBounded : Obligations.UnpackBounded := fun _ h he =>
  h.endsIdleOrUnwritten_succ fun _ hinv ht => hinv.pointSteps_bounded (engineStep_unpack_next he ht) (by omega)

/-! ### RESET (R290, R292) -/

/-- RESET differs from a soft reset in no register. -/
theorem readReg_hardReset (s : State) (r : Reg) : readReg (hardReset s) r = readReg (resetRegisters s) r := rfl

/-- Settles O21: RESET is the register part of a reset with both buffers emptied. -/
theorem hardResetRule : Obligations.HardResetRule := fun s rest hm =>
  ⟨_, step_reset_move hm, rfl,
    fun r => (readReg_hardReset _ r).trans (readReg_resetRegisters { s with moves := rest } r), fun _ => rfl,
    fun _ => rfl, rfl, rfl, rfl⟩

/-- The default parameters as CAPS shows them (R33). -/
theorem capsWord_default : capsWord Params.default = 0x08201418#32 := by decide

/-- Settles O22: the state after RESET is a fixed point of the register reset, so its registers read their reset words. -/
theorem resetState : Obligations.ResetState := by
  refine ⟨fun r => ?_, rfl, rfl, fun _ => rfl, fun _ => rfl⟩
  have hread : readReg State.reset r = resetWord Params.default r := readReg_resetRegisters State.reset r
  rw [hread]
  cases r with
  | caps => exact capsWord_default
  | _ => rfl

/-- Settles O23: the engine is idle, no message and no result is valid, and the buffers are empty. -/
theorem invAtReset : Obligations.InvAtReset where
  buffers :=
    { params := by decide, ibuf_wf := .nil, obuf_wf := .nil, ibuf_inside := nofun, obuf_inside := nofun
      bufLen_le := Nat.zero_le _ }
  engine := by constructor <;> simp [State.reset, Status.zero]
  framer := .of_no_message rfl rfl rfl nofun
  unpack := .of_no_result rfl rfl nofun

end Sys2Proof.Machine
